-- ==== Sys2Proof/Word.lean ====
section
/-! DEFINITION. The word types of the block (00_scope R9, R10; 30_encoding R80). Nothing else stands here: the
bit-field helpers are in Decode.lean and Machine/Operands.lean. -/

namespace Sys2Proof

/-- A byte on the bus, a register image, a multiplexer byte, a channel id. -/
abbrev Byte := BitVec 8

/-- A 32-bit value of R9 and R10; a signed one is read by `BitVec.toInt`. -/
abbrev Word32 := BitVec 32

/-- The 40-bit host command word of R80: opcode in bits 39:32, argument in bits 31:0. -/
abbrev CmdWord := BitVec 40

end Sys2Proof
end

