-- ==== Sys2Proof/Config.lean ====
section
/-! DEFINITION. What an instantiation fixes: the variant (00_scope R6), the OPEN platform parameters (R8) as one
record of plain data, and the free values of the model as opaque constants. -/

namespace Sys2Proof

/-- The six part numbers, in the order of R6. An index outside 0..5 names none of them (R291). -/
inductive Variant where
  | mcp3461 | mcp3462 | mcp3464 | mcp3561 | mcp3562 | mcp3564
  deriving DecidableEq, Repr

/-- The index `v` of R6. -/
def Variant.index : Variant → Nat
  | .mcp3461 => 0
  | .mcp3462 => 1
  | .mcp3464 => 2
  | .mcp3561 => 3
  | .mcp3562 => 4
  | .mcp3564 => 5

/-- R291: an index outside 0..5 is refused, so there is no instance. -/
def Variant.ofIndex : Nat → Option Variant
  | 0 => some .mcp3461
  | 1 => some .mcp3462
  | 2 => some .mcp3464
  | 3 => some .mcp3561
  | 4 => some .mcp3562
  | 5 => some .mcp3564
  | _ => none

/-- The table of R6, first column: resolution_max in bits, as the signed 8-bit number of R9. -/
def Variant.resolutionMax : Variant → BitVec 8
  | .mcp3461 | .mcp3462 | .mcp3464 => 16#8
  | .mcp3561 | .mcp3562 | .mcp3564 => 24#8

/-- The table of R6, second column: channels_max. -/
def Variant.channelsMax : Variant → Nat
  | .mcp3461 | .mcp3561 => 2
  | .mcp3462 | .mcp3562 => 4
  | .mcp3464 | .mcp3564 => 8

/-- The registers of the chip that the block names (20_memory R60). -/
inductive Reg where
  | adcdata | config0 | config3 | mux | scan | lock
  deriving DecidableEq, Repr

/-- Transfer types of R87. -/
inductive Xfer where
  | read | write
  deriving DecidableEq, Repr

/-- Fast commands of R87 and R127. -/
inductive FastCmd where
  | reset | standby | convStart
  deriving DecidableEq, Repr

/-- The values of ADDR_ADCDATA .. ADDR_LOCK (R8, R60). -/
structure AddrMap where
  adcdata : Nat
  config0 : Nat
  config3 : Nat
  mux     : Nat
  scan    : Nat
  lock    : Nat
  deriving DecidableEq, Repr

/-- LAYOUT (10_state R27): the lowest bit of each field inside its containing image. The widths are R27's: 2 bits
for clkSel, adcMode, convMode and dataFormat, 1 for vrefSel, 16 for the scan mask. -/
structure Layout where
  clkSel     : Nat
  adcMode    : Nat
  vrefSel    : Nat
  convMode   : Nat
  dataFormat : Nat
  scanLo     : Nat
  deriving DecidableEq, Repr

/-- SHADOW_DEFAULTS (R8, 40_begin R103). `scan` is the image's bytes, most significant first. -/
structure ShadowDefaults where
  cfg0 : Byte
  cfg3 : Byte
  mux  : Byte
  scan : List Byte
  lock : Byte
  deriving DecidableEq, Repr

/-- CHANNEL_TABLE[v] for every variant (10_state R24); TABLE_LEN[v] is the length of a list. -/
structure ChannelTables where
  mcp3461 : List Byte
  mcp3462 : List Byte
  mcp3464 : List Byte
  mcp3561 : List Byte
  mcp3562 : List Byte
  mcp3564 : List Byte
  deriving DecidableEq, Repr

def ChannelTables.of (t : ChannelTables) : Variant → List Byte
  | .mcp3461 => t.mcp3461
  | .mcp3462 => t.mcp3462
  | .mcp3464 => t.mcp3464
  | .mcp3561 => t.mcp3561
  | .mcp3562 => t.mcp3562
  | .mcp3564 => t.mcp3564

/-- SIGN_CONSUMING of the three formats the source leaves open; that of sgn_data is fixed to true by R183. -/
structure SignConsuming where
  sgnDataZero  : Bool
  sgnextData   : Bool
  idSgnextData : Bool
  deriving DecidableEq, Repr

/-- The OPEN platform parameters of R8, fixed at instantiation (R290). CMD is given by one table of command bytes
for reads and one for writes, indexed by register address, of 2^ADDR_BITS entries each (log 10). -/
structure Params where
  addrBits       : Nat
  addr           : AddrMap
  cmdRead        : List Byte
  cmdWrite       : List Byte
  fastReset      : Byte
  fastStandby    : Byte
  fastConvStart  : Byte
  scanBytes      : Nat
  layout         : Layout
  defaults       : ShadowDefaults
  channelTables  : ChannelTables
  cacheSize      : Nat
  drBit          : Fin 8
  clkInternal    : BitVec 2
  convContinuous : BitVec 2
  signConsuming  : SignConsuming
  unlockKey      : Byte
  deriving DecidableEq, Repr

/-- ADDR_r of R8. -/
def Params.addrOf (p : Params) : Reg → Nat
  | .adcdata => p.addr.adcdata
  | .config0 => p.addr.config0
  | .config3 => p.addr.config3
  | .mux     => p.addr.mux
  | .scan    => p.addr.scan
  | .lock    => p.addr.lock

/-- FASTCMD(f) of R87. -/
def Params.fastByte (p : Params) : FastCmd → Byte
  | .reset     => p.fastReset
  | .standby   => p.fastStandby
  | .convStart => p.fastConvStart

/-- CHANNEL_TABLE[v] of R24. -/
def Params.channelTable (p : Params) (v : Variant) : List Byte := p.channelTables.of v

/-- SIGN_CONSUMING of the four recognized formats (R183). -/
def Params.signConsumes (p : Params) (fmt : BitVec 2) : Bool :=
  match fmt.toNat with
  | 0 => true
  | 1 => p.signConsuming.sgnDataZero
  | 2 => p.signConsuming.sgnextData
  | _ => p.signConsuming.idSgnextData

/-- Two bit ranges, given by lowest bit and width, share no bit. -/
def disjointRanges (lo₁ w₁ lo₂ w₂ : Nat) : Bool := decide (lo₁ + w₁ ≤ lo₂) || decide (lo₂ + w₂ ≤ lo₁)

/-- The fields lie inside their images and those of one image share no bit (R27, log 11). -/
def Layout.wf (l : Layout) (scanBytes : Nat) : Bool :=
  decide (l.clkSel + 2 ≤ 8) && decide (l.adcMode + 2 ≤ 8) && decide (l.vrefSel + 1 ≤ 8) &&
  decide (l.convMode + 2 ≤ 8) && decide (l.dataFormat + 2 ≤ 8) && decide (l.scanLo + 16 ≤ 8 * scanBytes) &&
  disjointRanges l.clkSel 2 l.adcMode 2 && disjointRanges l.clkSel 2 l.vrefSel 1 &&
  disjointRanges l.adcMode 2 l.vrefSel 1 && disjointRanges l.convMode 2 l.dataFormat 2

/-- All command bytes: CMD(READ, a), CMD(WRITE, a) and FASTCMD(f). -/
def Params.commandBytes (p : Params) : List Byte :=
  p.cmdRead ++ (p.cmdWrite ++ [p.fastReset, p.fastStandby, p.fastConvStart])

/-- What the spec requires of the parameters: command bytes distinct (R87), addresses of ADDR_BITS bits (R60), the
layout inside the images (R27), the scan default of the image's width (R26), tables of at most 16 distinct entries
(R24), and channels_max <= CACHE_SIZE <= 16 (R35). -/
def Params.wf (p : Params) (v : Variant) : Bool :=
  decide (p.cmdRead.length = 2 ^ p.addrBits) && decide (p.cmdWrite.length = 2 ^ p.addrBits) &&
  decide p.commandBytes.Nodup &&
  [Reg.adcdata, .config0, .config3, .mux, .scan, .lock].all (fun r => decide (p.addrOf r < 2 ^ p.addrBits)) &&
  decide ([Reg.adcdata, .config0, .config3, .mux, .scan, .lock].map p.addrOf).Nodup &&
  p.layout.wf p.scanBytes && decide (p.defaults.scan.length = p.scanBytes) &&
  decide ((p.channelTable v).length ≤ 16) && decide (p.channelTable v).Nodup &&
  decide (v.channelsMax ≤ p.cacheSize) && decide (p.cacheSize ≤ 16)

namespace Config

/-- Free value (R65, log 4): the byte the peer answers in its `k`-th exchange, where State lists no answer. -/
opaque freeByte : Nat → Byte

/-- Free value (R182, log 5): the `k`-th draw of fmt_bits, where State lists none. -/
opaque freeFmtBits : Nat → BitVec 2

/-- Free value (R236, log 17): 2^resolution for a resolution above 31, which no run reaches. -/
opaque freeMaxValue : BitVec 8 → Word32

/-- Free value (R87, log 10): CMD of an address that is outside the parameter's table. -/
opaque freeCmd : Xfer → Nat → Byte

/-- SPI_CLOCK_HZ (R128): an OPEN session constant that no rule at byte level reads (log 18). -/
opaque spiClockHz : Nat

/-- SPI_BIT_ORDER (R128): true for most significant bit first; no rule reads it (log 18). -/
opaque spiMsbFirst : Bool

/-- SPI_MODE (R128): one of the four SPI modes; no rule reads it (log 18). -/
opaque spiMode : Fin 4

/-- INTERNAL_REF_MV (44_setters R195). -/
def internalRefMv : Word32 := 2400#32

/-- The format code `id_sgnext_data` (R15). -/
def fmtIdSgnextData : Byte := 3#8

/-- The format code `sgn_data` (R15). -/
def fmtSgnData : Byte := 0#8

/-- PRESUMED (log 9): the 16-entry table of 93 item G7. -/
def pTestTable : List Byte :=
  [0x08#8, 0x18#8, 0x28#8, 0x38#8, 0x48#8, 0x58#8, 0x68#8, 0x78#8] ++
  [0x01#8, 0x23#8, 0x45#8, 0x67#8, 0xDE#8, 0x98#8, 0xF8#8, 0x88#8]

/-- PRESUMED (log 9): P-test, the parameter instance of 95_test_vectors, whose values are the general-knowledge
candidates of 93 Part 2 (G1 to G7, G11, G12) and are not normative. -/
def pTest : Params where
  addrBits := 4
  addr := { adcdata := 0, config0 := 1, config3 := 4, mux := 6, scan := 7, lock := 13 }
  cmdRead := (List.range 16).map fun a => BitVec.ofNat 8 (0x41 + 4 * a)
  cmdWrite := (List.range 16).map fun a => BitVec.ofNat 8 (0x42 + 4 * a)
  fastReset := 0x78#8
  fastStandby := 0x6C#8
  fastConvStart := 0x68#8
  scanBytes := 3
  layout := { clkSel := 4, adcMode := 0, vrefSel := 7, convMode := 6, dataFormat := 4, scanLo := 0 }
  defaults := { cfg0 := 0xC0#8, cfg3 := 0x00#8, mux := 0x01#8, scan := [0#8, 0#8, 0#8], lock := 0xA5#8 }
  channelTables :=
    { mcp3461 := pTestTable, mcp3462 := pTestTable, mcp3464 := pTestTable,
      mcp3561 := pTestTable, mcp3562 := pTestTable, mcp3564 := pTestTable }
  cacheSize := 16
  drBit := 2
  clkInternal := 0b10#2
  convContinuous := 0b11#2
  signConsuming := { sgnDataZero := true, sgnextData := true, idSgnextData := true }
  unlockKey := 0xA5#8

end Config

/-- CMD(t, a) of R87. -/
def Params.cmdByte (p : Params) (t : Xfer) (a : Nat) : Byte :=
  (match t with
   | .read => p.cmdRead
   | .write => p.cmdWrite).getD a (Config.freeCmd t a)

end Sys2Proof
end

