-- ==== Sys2Proof/Syntax.lean ====
section
/-! DEFINITION. The instructions: one constructor per row of spec/opcode_table.json (30_encoding R82 for the host
commands, 41_bus_frames R121, R124, R126 for the wire frames), with the mnemonics of the table. -/

namespace Sys2Proof

/-- Operands are those of the formats of R81. A frame's operands are those of R121, R124 and R126; the value `x` of
FRAME_WREG is given by its bytes, most significant first, so that the byte count `n` is the list's length. -/
inductive Instr where
  | begin
  | read
  | isrHandler
  | setDataFormat (f : BitVec 8)
  | setConvMode (m : BitVec 2)
  | setAdcMode (m : BitVec 2)
  | setClockSelection (c : BitVec 2)
  | setScanChannel (sel : BitVec 8)
  | unsetScanChannel (sel : BitVec 8)
  | setReference (r : BitVec 32)
  | lock (k : BitVec 8)
  | unlock
  | analogRead (sel : BitVec 8)
  | analogReadDiff (pos neg : BitVec 4)
  | singleEndedMode
  | differentialMode
  | startContinuousDifferential
  | startSingleDifferential
  | setResolution (b : BitVec 8)
  | isComplete
  | getMaxValue
  | isDifferential
  | isContinuous
  | getReference
  | readCache (i : BitVec 8)
  | frameRreg (a : Nat) (n : Nat)
  | frameWreg (a : Nat) (x : List Byte)
  | frameFast (f : FastCmd)
  deriving DecidableEq, Repr

/-- The mnemonic of the opcode table. -/
def Instr.mnemonic : Instr → String
  | .begin => "BEGIN"
  | .read => "READ"
  | .isrHandler => "ISR_HANDLER"
  | .setDataFormat _ => "SET_DATA_FORMAT"
  | .setConvMode _ => "SET_CONV_MODE"
  | .setAdcMode _ => "SET_ADC_MODE"
  | .setClockSelection _ => "SET_CLOCK_SELECTION"
  | .setScanChannel _ => "SET_SCAN_CHANNEL"
  | .unsetScanChannel _ => "UNSET_SCAN_CHANNEL"
  | .setReference _ => "SET_REFERENCE"
  | .lock _ => "LOCK"
  | .unlock => "UNLOCK"
  | .analogRead _ => "ANALOG_READ"
  | .analogReadDiff _ _ => "ANALOG_READ_DIFF"
  | .singleEndedMode => "SINGLE_ENDED_MODE"
  | .differentialMode => "DIFFERENTIAL_MODE"
  | .startContinuousDifferential => "START_CONTINUOUS_DIFFERENTIAL"
  | .startSingleDifferential => "START_SINGLE_DIFFERENTIAL"
  | .setResolution _ => "SET_RESOLUTION"
  | .isComplete => "IS_COMPLETE"
  | .getMaxValue => "GET_MAX_VALUE"
  | .isDifferential => "IS_DIFFERENTIAL"
  | .isContinuous => "IS_CONTINUOUS"
  | .getReference => "GET_REFERENCE"
  | .readCache _ => "READ_CACHE"
  | .frameRreg _ _ => "FRAME_RREG"
  | .frameWreg _ _ => "FRAME_WREG"
  | .frameFast _ => "FRAME_FAST"

end Sys2Proof
end

