-- ==== Sys2Proof/WellFormed.lean ====
section
/-! DEFINITION. When an instruction is well formed. The operand fields of a host command have exactly the widths of
R81, so their types leave nothing to check; a frame's operands are those of the uses of 30_encoding R87, with the
widths of 20_memory R68. -/

namespace Sys2Proof

/-- The registers that the block writes (20_memory R60, 41_bus_frames R125). -/
def writtenRegs : List Reg := [.config0, .config3, .mux, .scan, .lock]

/-- The payload bytes of a register write (20_memory R68); the block never writes the ADC data register (R60). -/
def Params.writeBytes (p : Params) : Reg → Nat
  | .config0 | .config3 | .mux | .lock => 1
  | .scan => p.scanBytes
  | .adcdata => 0

/-- FRAME_RREG: the ADC data register's address and 3 or 4 payload bytes (R60, R68, R121). FRAME_WREG: the address of
a register that the block writes, and a value of that register's width (R60, R68, R124). -/
def Instr.wf (p : Params) : Instr → Bool
  | .begin => true
  | .read => true
  | .isrHandler => true
  | .setDataFormat _ => true
  | .setConvMode _ => true
  | .setAdcMode _ => true
  | .setClockSelection _ => true
  | .setScanChannel _ => true
  | .unsetScanChannel _ => true
  | .setReference _ => true
  | .lock _ => true
  | .unlock => true
  | .analogRead _ => true
  | .analogReadDiff _ _ => true
  | .singleEndedMode => true
  | .differentialMode => true
  | .startContinuousDifferential => true
  | .startSingleDifferential => true
  | .setResolution _ => true
  | .isComplete => true
  | .getMaxValue => true
  | .isDifferential => true
  | .isContinuous => true
  | .getReference => true
  | .readCache _ => true
  | .frameRreg a n => decide (a = p.addr.adcdata) && (decide (n = 3) || decide (n = 4))
  | .frameWreg a x => writtenRegs.any fun r => decide (a = p.addrOf r) && decide (x.length = p.writeBytes r)
  | .frameFast _ => true

end Sys2Proof
end

