-- ==== Sys2Proof/Decode.lean ====
section
/-! DEFINITION. The decoder of host command words (30_encoding R80 to R84) and of frames on the wire (R87 to R89),
then the encoder from the same tables, the assembler of R85, and the host's `decodeTableWord`. -/

namespace Sys2Proof

/-- Why bits decode to no instruction: R83's two tests, and (for a frame) bytes that the block never sends as one frame
(20_memory R68, 30_encoding R87 to R89). -/
inductive Illegal where
  | unassignedOpcode
  | mustBeZero
  | notAFrame
  deriving DecidableEq, Repr

/-- The outcome of decoding, total (R83). -/
inductive Decoded where
  | ok (i : Instr)
  | illegal (why : Illegal)
  deriving DecidableEq, Repr

/-- What is presented to the block: a command word on the command port (R80), or the bytes the block itself sends in
one chip-select frame, first byte the command byte of R87 (the wire rows of the table, log 14). -/
inductive Input where
  | command (w : CmdWord)
  | wire (bytes : List Byte)
  deriving DecidableEq, Repr

/-- `op = c[39:32]` (R80). -/
def opField (c : CmdWord) : Byte := c.extractLsb' 32 8

/-- `arg = c[31:0]` (R80). -/
def argField (c : CmdWord) : Word32 := c.extractLsb' 0 32

/-- Format N of R81. -/
def formatN (arg : Word32) (i : Instr) : Decoded :=
  if arg = 0#32 then .ok i else .illegal .mustBeZero

/-- Format B8 of R81; format S8 has the same bits. -/
def formatB8 (arg : Word32) (k : BitVec 8 → Instr) : Decoded :=
  if arg.extractLsb' 8 24 = 0#24 then .ok (k (arg.extractLsb' 0 8)) else .illegal .mustBeZero

/-- Format E2 of R81. -/
def formatE2 (arg : Word32) (k : BitVec 2 → Instr) : Decoded :=
  if arg.extractLsb' 2 30 = 0#30 then .ok (k (arg.extractLsb' 0 2)) else .illegal .mustBeZero

/-- Format P44 of R81: pos in bits 7:4, neg in bits 3:0. -/
def formatP44 (arg : Word32) (k : BitVec 4 → BitVec 4 → Instr) : Decoded :=
  if arg.extractLsb' 8 24 = 0#24 then .ok (k (arg.extractLsb' 4 4) (arg.extractLsb' 0 4)) else .illegal .mustBeZero

/-- `decode` of R83 over the opcode map of R82. -/
def decodeCommand (c : CmdWord) : Decoded :=
  match (opField c).toNat with
  | 0x01 => formatN (argField c) .begin
  | 0x02 => formatN (argField c) .read
  | 0x03 => formatN (argField c) .isrHandler
  | 0x10 => formatB8 (argField c) .setDataFormat
  | 0x11 => formatE2 (argField c) .setConvMode
  | 0x12 => formatE2 (argField c) .setAdcMode
  | 0x13 => formatE2 (argField c) .setClockSelection
  | 0x14 => formatB8 (argField c) .setScanChannel
  | 0x15 => formatB8 (argField c) .unsetScanChannel
  | 0x16 => .ok (.setReference (argField c))
  | 0x17 => formatB8 (argField c) .lock
  | 0x18 => formatN (argField c) .unlock
  | 0x20 => formatB8 (argField c) .analogRead
  | 0x21 => formatP44 (argField c) .analogReadDiff
  | 0x30 => formatN (argField c) .singleEndedMode
  | 0x31 => formatN (argField c) .differentialMode
  | 0x32 => formatN (argField c) .startContinuousDifferential
  | 0x33 => formatN (argField c) .startSingleDifferential
  | 0x34 => formatB8 (argField c) .setResolution
  | 0x40 => formatN (argField c) .isComplete
  | 0x41 => formatN (argField c) .getMaxValue
  | 0x42 => formatN (argField c) .isDifferential
  | 0x43 => formatN (argField c) .isContinuous
  | 0x44 => formatN (argField c) .getReference
  | 0x45 => formatB8 (argField c) .readCache
  | _ => .illegal .unassignedOpcode

/-- `width(f)` (42_read_decode R141): the payload bytes of a read, by the format code. -/
def sampleWidth (f : Byte) : Nat :=
  match f.toNat with
  | 0 => 3
  | 1 => 3
  | _ => 4

/-- The widths a read can have now, `fmt` being S.fmt_code: the one that S.fmt_code chooses (30_encoding R88). Before
the first BEGIN S.fmt_code holds no value, and either width of R68 is let through (DESIGN CHOICE, log 14). -/
def readWidths : Option Byte → List Nat
  | some f => [sampleWidth f]
  | none => [3, 4]

/-- The bytes after a read command: the block sends 0x00 while it receives the payload (R121, R122), whose length
S.fmt_code chooses (R88). -/
def wireRead (p : Params) (fmt : Option Byte) (pay : List Byte) : Decoded :=
  if pay.all (· == 0#8) && (readWidths fmt).contains pay.length then .ok (.frameRreg p.addr.adcdata pay.length)
  else .illegal .notAFrame

/-- The bytes after a write command are the value, most significant byte first (R124), of the written register's
width (R68, R88). -/
def wireWrite (p : Params) (r : Reg) (pay : List Byte) : Decoded :=
  if pay.length = p.writeBytes r then .ok (.frameWreg (p.addrOf r) pay) else .illegal .notAFrame

/-- The written register whose write command `c` is (R87). -/
def writeTarget (p : Params) (c : Byte) : Option Reg := writtenRegs.find? fun r => p.cmdByte .write (p.addrOf r) == c

/-- A fast command has no payload (R126). -/
def wireFast (p : Params) (c : Byte) (pay : List Byte) : Decoded :=
  if pay = [] then
    if c = p.fastReset then .ok (.frameFast .reset)
    else if c = p.fastStandby then .ok (.frameFast .standby)
    else if c = p.fastConvStart then .ok (.frameFast .convStart)
    else .illegal .notAFrame
  else .illegal .notAFrame

/-- A frame from the bytes the block sends in it: the first byte is a command byte of R87's table of uses, and the
payload has the length that follows from it (R88). The block sends no other frame (R60, R68, R89). -/
def decodeWire (p : Params) (fmt : Option Byte) : List Byte → Decoded
  | [] => .illegal .notAFrame
  | c :: pay =>
    if c = p.cmdByte .read p.addr.adcdata then wireRead p fmt pay
    else
      match writeTarget p c with
      | some r => wireWrite p r pay
      | none => wireFast p c pay

/-- The decoder of everything presented to the block, `fmt` being S.fmt_code if it holds a value: a command word's
decode does not depend on it (R83), a read frame's length does (R88). -/
def decode (p : Params) (fmt : Option Byte) : Input → Decoded
  | .command w => decodeCommand w
  | .wire bytes => decodeWire p fmt bytes

/-- A read frame has a width that S.fmt_code lets it have (R88); nothing else depends on S.fmt_code. -/
def Instr.fits (fmt : Option Byte) (i : Instr) : Prop := ∀ a n : Nat, i = .frameRreg a n → n ∈ readWidths fmt

/-- The opcode of R82; a frame has none. -/
def Instr.opcode : Instr → Option Byte
  | .begin => some 0x01#8
  | .read => some 0x02#8
  | .isrHandler => some 0x03#8
  | .setDataFormat _ => some 0x10#8
  | .setConvMode _ => some 0x11#8
  | .setAdcMode _ => some 0x12#8
  | .setClockSelection _ => some 0x13#8
  | .setScanChannel _ => some 0x14#8
  | .unsetScanChannel _ => some 0x15#8
  | .setReference _ => some 0x16#8
  | .lock _ => some 0x17#8
  | .unlock => some 0x18#8
  | .analogRead _ => some 0x20#8
  | .analogReadDiff _ _ => some 0x21#8
  | .singleEndedMode => some 0x30#8
  | .differentialMode => some 0x31#8
  | .startContinuousDifferential => some 0x32#8
  | .startSingleDifferential => some 0x33#8
  | .setResolution _ => some 0x34#8
  | .isComplete => some 0x40#8
  | .getMaxValue => some 0x41#8
  | .isDifferential => some 0x42#8
  | .isContinuous => some 0x43#8
  | .getReference => some 0x44#8
  | .readCache _ => some 0x45#8
  | .frameRreg _ _ => none
  | .frameWreg _ _ => none
  | .frameFast _ => none

/-- The argument of R85: the operand fields where R81 puts them, every other bit zero. -/
def Instr.arg : Instr → Word32
  | .setDataFormat f => f.zeroExtend 32
  | .setConvMode m => m.zeroExtend 32
  | .setAdcMode m => m.zeroExtend 32
  | .setClockSelection c => c.zeroExtend 32
  | .setScanChannel sel => sel.zeroExtend 32
  | .unsetScanChannel sel => sel.zeroExtend 32
  | .setReference r => r
  | .lock k => k.zeroExtend 32
  | .analogRead sel => sel.zeroExtend 32
  | .analogReadDiff pos neg => (pos ++ neg).zeroExtend 32
  | .setResolution b => b.zeroExtend 32
  | .readCache i => i.zeroExtend 32
  | .begin | .read | .isrHandler | .unlock | .singleEndedMode | .differentialMode | .startContinuousDifferential
  | .startSingleDifferential | .isComplete | .getMaxValue | .isDifferential | .isContinuous | .getReference
  | .frameRreg _ _ | .frameWreg _ _ | .frameFast _ => 0#32

/-- `c = {op, arg}` (R85); none for a frame, which no host command word selects (41_bus_frames). -/
def commandWord (i : Instr) : Option CmdWord := i.opcode.map fun op => op ++ i.arg

/-- The bytes the block sends in a frame (R121, R122, R124, R126). -/
def wireBytes (p : Params) : Instr → List Byte
  | .frameRreg a n => p.cmdByte .read a :: List.replicate n 0#8
  | .frameWreg a x => p.cmdByte .write a :: x
  | .frameFast f => [p.fastByte f]
  | .begin | .read | .isrHandler | .setDataFormat _ | .setConvMode _ | .setAdcMode _ | .setClockSelection _
  | .setScanChannel _ | .unsetScanChannel _ | .setReference _ | .lock _ | .unlock | .analogRead _
  | .analogReadDiff _ _ | .singleEndedMode | .differentialMode | .startContinuousDifferential
  | .startSingleDifferential | .setResolution _ | .isComplete | .getMaxValue | .isDifferential | .isContinuous
  | .getReference | .readCache _ => []

/-- The encoder: a host command's word, a frame's bytes. -/
def encode (p : Params) (i : Instr) : Input :=
  match commandWord i with
  | some w => .command w
  | none => .wire (wireBytes p i)

/-- The operand text of R85: decimal operands, a signed one for format S8. -/
def Instr.operandText : Instr → String
  | .setDataFormat f => " " ++ f.toNat.repr
  | .setConvMode m => " " ++ m.toNat.repr
  | .setAdcMode m => " " ++ m.toNat.repr
  | .setClockSelection c => " " ++ c.toNat.repr
  | .setScanChannel sel => " " ++ sel.toNat.repr
  | .unsetScanChannel sel => " " ++ sel.toNat.repr
  | .setReference r => " " ++ r.toNat.repr
  | .lock k => " " ++ k.toNat.repr
  | .analogRead sel => " " ++ sel.toNat.repr
  | .analogReadDiff pos neg => " " ++ pos.toNat.repr ++ ", " ++ neg.toNat.repr
  | .setResolution b => " " ++ b.toInt.repr
  | .readCache i => " " ++ i.toNat.repr
  | .begin | .read | .isrHandler | .unlock | .singleEndedMode | .differentialMode | .startContinuousDifferential
  | .startSingleDifferential | .isComplete | .getMaxValue | .isDifferential | .isContinuous | .getReference
  | .frameRreg _ _ | .frameWreg _ _ | .frameFast _ => ""

/-- The assembler line of R85. -/
def Instr.assembler (i : Instr) : String := i.mnemonic ++ i.operandText

/-- An unsigned operand of `n` bits, if the number fits. -/
def operandU (n : Nat) (x : Int) (k : BitVec n → Instr) : Option Instr :=
  if 0 ≤ x ∧ x < 2 ^ n then some (k (BitVec.ofInt n x)) else none

/-- The symbolic format codes of R85. -/
def formatSymbol : String → Option Int
  | "sgn_data" => some 0
  | "sgn_data_zero" => some 1
  | "sgnext_data" => some 2
  | "id_sgnext_data" => some 3
  | _ => none

/-- The assembler of R85, from a mnemonic and its operand numbers; ISR is its one pseudo-instruction. -/
def assemble : String → List Int → Option Instr
  | "BEGIN", [] => some .begin
  | "READ", [] => some .read
  | "ISR_HANDLER", [] => some .isrHandler
  | "ISR", [] => some .isrHandler
  | "SET_DATA_FORMAT", [x] => operandU 8 x .setDataFormat
  | "SET_CONV_MODE", [x] => operandU 2 x .setConvMode
  | "SET_ADC_MODE", [x] => operandU 2 x .setAdcMode
  | "SET_CLOCK_SELECTION", [x] => operandU 2 x .setClockSelection
  | "SET_SCAN_CHANNEL", [x] => operandU 8 x .setScanChannel
  | "UNSET_SCAN_CHANNEL", [x] => operandU 8 x .unsetScanChannel
  | "SET_REFERENCE", [x] => operandU 32 x .setReference
  | "LOCK", [x] => operandU 8 x .lock
  | "UNLOCK", [] => some .unlock
  | "ANALOG_READ", [x] => operandU 8 x .analogRead
  | "ANALOG_READ_DIFF", [x, y] =>
    if 0 ≤ x ∧ x < 16 then operandU 4 y (.analogReadDiff (BitVec.ofInt 4 x)) else none
  | "SINGLE_ENDED_MODE", [] => some .singleEndedMode
  | "DIFFERENTIAL_MODE", [] => some .differentialMode
  | "START_CONTINUOUS_DIFFERENTIAL", [] => some .startContinuousDifferential
  | "START_SINGLE_DIFFERENTIAL", [] => some .startSingleDifferential
  | "SET_RESOLUTION", [x] => if -128 ≤ x ∧ x < 128 then some (.setResolution (BitVec.ofInt 8 x)) else none
  | "IS_COMPLETE", [] => some .isComplete
  | "GET_MAX_VALUE", [] => some .getMaxValue
  | "IS_DIFFERENTIAL", [] => some .isDifferential
  | "IS_CONTINUOUS", [] => some .isContinuous
  | "GET_REFERENCE", [] => some .getReference
  | "READ_CACHE", [x] => operandU 8 x .readCache
  | _, _ => none

/-- How many bytes the block sends after command byte `c`, its operand bytes all zero, for a table row that gives
only the first byte (R68, R88): the format's width for a read (its longest form where S.fmt_code holds no value, log
14), the register's width for a write, none for a fast command. -/
def wireTail (p : Params) (fmt : Option Byte) (c : Byte) : Nat :=
  if c = p.cmdByte .read p.addr.adcdata then fmt.elim 4 sampleWidth
  else
    match writeTarget p c with
    | some r => p.writeBytes r
    | none => 0

/-- The input a table row's word stands for: 40 bits are a command word, 8 bits a frame's command byte with the
operand bytes zero. -/
def tableInput (p : Params) (fmt : Option Byte) (nbits w : Nat) : Option Input :=
  if nbits = 40 ∧ w < 2 ^ 40 then some (.command (BitVec.ofNat 40 w))
  else if nbits = 8 ∧ w < 2 ^ 8 then
    some (.wire (BitVec.ofNat 8 w :: List.replicate (wireTail p fmt (BitVec.ofNat 8 w)) 0#8))
  else none

/-- The instruction the decoder reads from a row's word, under the parameters of reset (log 9), where S.fmt_code holds
no value. -/
def decodeTableWord (nbits w : Nat) : Option Instr :=
  match tableInput Config.pTest none nbits w with
  | some inp =>
    match decode Config.pTest none inp with
    | .ok i => some i
    | .illegal _ => none
  | none => none

end Sys2Proof
end

