-- ==== Sys2Proof/Machine/State.lean ====
section
/-! DEFINITION. The machine's state S (10_state R20 to R45) as plain data, the reasons a step can stop, and the state
right after instantiation (70_reset_and_hazards R290). -/

namespace Sys2Proof.Machine

/-- A chip-select level (00_scope R12). -/
inductive Level where
  | low | high
  deriving DecidableEq, Repr

/-- The chip-select output (R38): not yet configured, or driven to a level. -/
inductive CsPin where
  | z
  | driven (l : Level)
  deriving DecidableEq, Repr

/-- A bus event (R17): a chip-select level, or one byte exchange with the byte sent and the byte received. -/
inductive BusEvent where
  | cs (l : Level)
  | xfer (sent received : Byte)
  deriving DecidableEq, Repr

/-- What the block is doing (R41). -/
inductive Busy where
  | none
  | fg (op : Instr)
  | isr
  deriving DecidableEq, Repr

/-- The fault codes of 60_exceptions R261. -/
inductive FaultCode where
  | illegalCommand
  | notBegun
  | cacheIndexOutOfRange
  | unwrittenCache
  | unwrittenStatus
  | channelNotFound
  | negativeResolution
  | concurrentEntry
  deriving DecidableEq, Repr

/-- What S.fault holds (R42): the code and the command word that raised it. -/
structure FaultRecord where
  code : FaultCode
  word : CmdWord
  deriving DecidableEq, Repr

/-- The register shadow (R26), which holds a value from the first BEGIN on (R31). `imgScan` is the image's bytes,
most significant first (log 13). -/
structure Shadow where
  imgCfg0 : Byte
  imgCfg3 : Byte
  imgMux  : Byte
  imgScan : List Byte
  imgLock : Byte
  fmtCode : Byte
  deriving DecidableEq, Repr

/-- The response record of 30_encoding R86. -/
structure Response where
  status  : Option Byte := none
  ok      : Option Bool := none
  channel : Option Byte := none
  value   : Option Word32 := none
  flag    : Option Bool := none
  max     : Option Word32 := none
  ref     : Option Word32 := none
  deriving DecidableEq, Repr

/-- Why the machine takes no step. -/
inductive Fault where
  /-- The block is in the faulted state (R262, U20): no word is taken or answered. Raised by `step` and by every
  meaning on a state whose `fault` is set, with what it holds. Safe: the spec gives no step. -/
  | faulted (code : FaultCode) (word : CmdWord)
  deriving DecidableEq, Repr

/-- Why a step is refused. -/
inductive Refusal where
  /-- No meaning yet. Raised only by exec's own arms. Safe: nothing is claimed of the instruction. -/
  | notModelled (mnemonic : String)
  /-- A host command while an operation is running: the host does not issue one then (R263, log 15). Raised by
  every meaning but ISR_HANDLER's, in states that no run reaches. Safe: a stop. -/
  | hostMustWait
  /-- Bytes on the wire form of the port that are no frame of the block (R68, R87 to R89, log 14). Raised by `step`. Safe:
  the block never sends them. -/
  | notAFrame
  deriving DecidableEq, Repr

/-- The record S of R11, the sequencer, what is observed of a run (R17), and the agents' inputs (log 2 to log 5). -/
@[ext]
structure State where
  /-- The OPEN platform parameters (R8), fixed at instantiation. -/
  params : Params
  /-- S.v (R22). -/
  v : Variant
  /-- S.resolution_max (R22). -/
  resolutionMax : BitVec 8
  /-- S.channels_max (R22). -/
  channelsMax : Nat
  /-- S.has_irq (R22). -/
  hasIrq : Bool
  /-- S.chan_valid_mask (R23). -/
  chanValidMask : BitVec 8
  /-- S.resolution (R25), signed. -/
  resolution : BitVec 8
  /-- The register shadow (R26, R31). -/
  shadow : Option Shadow
  /-- S.reference in millivolts (R29). -/
  reference : Word32
  /-- S.status (R32). -/
  status : Option Byte
  /-- S.sample (R34). -/
  sample : Option Word32
  /-- S.cache (R35): CACHE_SIZE entries. -/
  cache : List (Option Word32)
  /-- S.differential (R36). -/
  differential : Bool
  /-- S.continuous (R37). -/
  continuous : Bool
  /-- S.cs (R38). -/
  cs : CsPin
  /-- S.session (R39). -/
  session : Bool
  /-- S.begun (R40). -/
  begun : Bool
  /-- S.busy (R41). -/
  busy : Busy
  /-- S.fault (R42). -/
  fault : Option FaultRecord
  /-- The sequencer step (R21): how many bus events the running operation has made (log 3). -/
  seqStep : Nat
  /-- The bytes that the last FRAME_RREG returned (R121, R123, log 16). -/
  payload : List Byte
  /-- The bus events so far, oldest first (R17). -/
  bus : List BusEvent
  /-- The command responses so far, oldest first (R17). -/
  responses : List Response
  /-- What the host and the environment will present, in order (R80, R16, log 2). -/
  port : List Input
  /-- At each coming boundary inside an operation: does the environment present ISR_HANDLER (R268, log 3)? -/
  irqPlan : List Bool
  /-- The peer's coming answers (R65, log 4). -/
  peer : List Byte
  /-- How many bytes the peer has answered (log 4). -/
  drawn : Nat
  /-- The coming draws of fmt_bits (R182, log 5). -/
  fmtDraws : List (BitVec 2)
  /-- How many draws of fmt_bits were made (log 5). -/
  fmtDrawn : Nat
  deriving DecidableEq, Repr

/-- Instantiation (R290): the instantiation values of R45, no frame sent, chip-select unconfigured. -/
def State.instantiate (p : Params) (v : Variant) (hasIrq : Bool) : State where
  params := p
  v := v
  resolutionMax := v.resolutionMax
  channelsMax := v.channelsMax
  hasIrq := hasIrq
  chanValidMask := BitVec.ofNat 8 (2 ^ v.channelsMax - 1)
  resolution := v.resolutionMax
  shadow := none
  reference := 0#32
  status := none
  sample := none
  cache := List.replicate p.cacheSize none
  differential := false
  continuous := false
  cs := .z
  session := false
  begun := false
  busy := .none
  fault := none
  seqStep := 0
  payload := []
  bus := []
  responses := []
  port := []
  irqPlan := []
  peer := []
  drawn := 0
  fmtDraws := []
  fmtDrawn := 0

/-- R291: an index outside 0..5 gives no instance. -/
def State.instantiateIndex (p : Params) (v : Nat) (hasIrq : Bool) : Option State :=
  (Variant.ofIndex v).map fun v => State.instantiate p v hasIrq

/-- The machine right after reset: an instance of the spec's own test parameters (PRESUMED, log 9), the variant of
its property 8 in polled mode (DESIGN CHOICE, log 8). -/
def State.reset : State := State.instantiate Config.pTest .mcp3562 false

end Sys2Proof.Machine
end

