-- ==== Sys2Proof/Machine/Ops.lean ====
section
/-! DEFINITION. The primitives of the spec's pseudocode (00_scope R11, R12): reading and writing S, raising a fault
(60_exceptions R262), the boundary between bus events (R268), bus events and draws, the shadow, the result cache
(20_memory R66, R67), the entry checks (R263), and the running of one operation. There is no return from a fault
(R265); an operation's end, ISR_HANDLER's among them (R270), is in `runOperation`. -/

namespace Sys2Proof.Machine

/-- An operation of the pseudocode: from a state, a result and a state, or stopped by a fault in the state the fault
left (a fault is precise at its line, R262). -/
abbrev Op (α : Type) : Type := EStateM Unit State α

/-- `S.f`, read. -/
def look {α : Type} (f : State → α) : Op α := fun s => .ok (f s) s

/-- `S.f <- v`. -/
def update (f : State → State) : Op Unit := fun s => .ok () (f s)

/-! The named updates of S: each changes the fields its name says and no other. -/

/-- `S.shadow <- x`. -/
def State.setShadow (s : State) (x : Shadow) : State := { s with shadow := some x }

/-- `S.reference <- x`. -/
def State.setReference (s : State) (x : Word32) : State := { s with reference := x }

/-- `S.resolution <- x`. -/
def State.setResolution (s : State) (x : BitVec 8) : State := { s with resolution := x }

/-- `S.status <- x`. -/
def State.setStatus (s : State) (x : Byte) : State := { s with status := some x }

/-- `S.sample <- x`. -/
def State.setSample (s : State) (x : Word32) : State := { s with sample := some x }

/-- `S.cache[i] <- x`. -/
def State.setCache (s : State) (i : Nat) (x : Word32) : State := { s with cache := s.cache.set i (some x) }

/-- `S.differential <- x`. -/
def State.setDifferential (s : State) (x : Bool) : State := { s with differential := x }

/-- `S.continuous <- x`. -/
def State.setContinuous (s : State) (x : Bool) : State := { s with continuous := x }

/-- `S.cs <- l`. -/
def State.setCs (s : State) (l : Level) : State := { s with cs := .driven l }

/-- `S.session <- x`. -/
def State.setSession (s : State) (x : Bool) : State := { s with session := x }

/-- `S.begun <- true`. -/
def State.setBegun (s : State) : State := { s with begun := true }

/-- The bytes a FRAME_RREG returns (R121). -/
def State.setPayload (s : State) (x : List Byte) : State := { s with payload := x }

/-- A bus event is observed (R17), and the sequencer step advances (R21). -/
def State.addEvent (s : State) (e : BusEvent) : State := { s with bus := s.bus ++ [e], seqStep := s.seqStep + 1 }

/-- A boundary inside an operation is passed: one entry of the environment's plan is used up (log 3). -/
def State.passBoundary (s : State) : State := { s with irqPlan := s.irqPlan.tail }

/-- One answer of the peer is used up (log 4). -/
def State.drewByte (s : State) : State := { s with peer := s.peer.tail, drawn := s.drawn + 1 }

/-- One draw of fmt_bits is used up (log 5). -/
def State.drewFmtBits (s : State) : State := { s with fmtDraws := s.fmtDraws.tail, fmtDrawn := s.fmtDrawn + 1 }

/-- An operation starts (R263 step 4): S.busy is set and the sequencer is at its first step. -/
def State.enter (s : State) (b : Busy) : State := { s with busy := b, seqStep := 0 }

/-- An operation ends (R263 step 5): S.busy is none, and its response, if it gives one, is returned (R86). -/
def State.leave (s : State) (r : Option Response) : State :=
  { s with busy := .none, seqStep := 0, responses := s.responses ++ r.toList }

/-- Fault entry (R262): S.fault holds the code and the command word; every other field stays. -/
def State.raise (s : State) (code : FaultCode) (word : CmdWord) : State := { s with fault := some ⟨code, word⟩ }

/-- The ISR_HANDLER word, `0x03_00000000` (R261). -/
def isrWord : CmdWord := 0x0300000000#40

/-- The current command word of R262: that of the running operation. -/
def Busy.word : Busy → CmdWord
  | .none => 0#40
  | .fg i => (commandWord i).getD 0#40
  | .isr => isrWord

/-- `raise Fault(code)` (R262). -/
def raise {α : Type} (code : FaultCode) : Op α := fun s => .error () (s.raise code s.busy.word)

/-- The boundary before a bus event (R268): none before an operation's first event; at any other the environment may
present ISR_HANDLER, which then raises ConcurrentEntry with its own word (log 3). DESIGN CHOICE (log 3): R268 does not
say on which side of a boundary the state writes between two bus events fall; here the boundary is right before the
later event, so all of them have happened (in BEGIN, between RESET's CS(1) and the next CS(0): `S.cs`, `S.session`,
LoadDefaults, `S.begun`, the clk_sel view and the inner frame's `S.session`). -/
def boundary : Op Unit := fun s =>
  if s.seqStep = 0 then .ok () s
  else if s.irqPlan.headD false then .error () (s.passBoundary.raise .concurrentEntry isrWord)
  else .ok () s.passBoundary

/-- A bus event happens. -/
def emit (e : BusEvent) : Op Unit := update (·.addEvent e)

/-- `CS(level)` (R12). -/
def driveCs (l : Level) : Op Unit := do
  boundary
  emit (.cs l)

/-- The peer's answer `k` exchanges from now: the listed one, else a free byte (R65, log 4). -/
def State.answer (s : State) (k : Nat) : Byte := s.peer.getD k (Config.freeByte (s.drawn + k))

/-- One byte drawn from the peer (R65). -/
def drawByte : Op Byte := fun s => .ok (s.answer 0) s.drewByte

/-- `Xfer(b) -> r` (R12). -/
def xfer (b : Byte) : Op Byte := do
  boundary
  let r ← drawByte
  emit (.xfer b r)
  return r

/-- The next draw of fmt_bits: the listed one, else free bits (R182, log 5). -/
def State.fmtAnswer (s : State) : BitVec 2 := s.fmtDraws.headD (Config.freeFmtBits s.fmtDrawn)

/-- `draw()` of two bits (R181). -/
def drawFmtBits : Op (BitVec 2) := fun s => .ok s.fmtAnswer s.drewFmtBits

/-- `if not S.begun then raise Fault(NotBegun)`. -/
def requireBegun : Op Unit := do
  if ← look (·.begun) then return ()
  raise .notBegun

/-- A read of the shadow; before the first BEGIN it holds no value and the read raises NotBegun (R31). -/
def readShadow : Op Shadow := fun s =>
  match s.shadow with
  | some sh => .ok sh s
  | none => raise .notBegun s

/-- A write of part of the shadow; before the first BEGIN it raises NotBegun (R31). -/
def writeShadow (f : Shadow → Shadow) : Op Unit := do
  let sh ← readShadow
  update (·.setShadow (f sh))

/-- `CacheWrite(i, x)` (R66). -/
def cacheWrite (i : Byte) (x : Word32) : Op Unit := do
  if (← look (·.params.cacheSize)) ≤ i.toNat then raise .cacheIndexOutOfRange
  update (·.setCache i.toNat x)

/-- `CacheRead(i)` (R67). -/
def cacheRead (i : Byte) : Op Word32 := do
  if (← look (·.params.cacheSize)) ≤ i.toNat then raise .cacheIndexOutOfRange
  match (← look (·.cache)).getD i.toNat none with
  | some x => return x
  | none => raise .unwrittenCache

/-- Steps 4 and 5 of R263: S.busy is set, the operation runs, and at its end S.busy is none and the response, if the
operation gives one, is returned (R86). A fault leaves everything as it was at its line (R262, log 7). -/
def runOperation (b : Busy) (body : Op (Option Response)) (s : State) : Host.Outcome State Fault Refusal :=
  match body (s.enter b) with
  | .ok r t => .next (t.leave r)
  | .error _ t => .next t

/-- A host command: step 1 of R263, then the operation. The host issues it only when S.busy is none (R263). -/
def hostCommand (i : Instr) (body : Op Response) (s : State) : Host.Outcome State Fault Refusal :=
  match s.fault with
  | some f => .fault (.faulted f.code f.word)
  | none => if s.busy = .none then runOperation (.fg i) (some <$> body) s else .refused .hostMustWait

/-- ISR_HANDLER: steps 1 and 2 of R263, then the operation. -/
def isrCommand (body : Op Response) (s : State) : Host.Outcome State Fault Refusal :=
  match s.fault with
  | some f => .fault (.faulted f.code f.word)
  | none =>
    if s.busy = .none then runOperation .isr (some <$> body) s else .next (s.raise .concurrentEntry isrWord)

/-- A frame by itself, as the sequencer runs it (41_bus_frames): no response record (log 14). DESIGN CHOICE (log 14):
R41 gives `fg(op)` for a host command only; here S.busy is `fg` of the frame while it runs, so that an ISR_HANDLER at a
boundary inside it raises ConcurrentEntry as inside any operation (60_exceptions R268), and the host waits for its end
(R263). -/
def wireFrame (i : Instr) (body : Op Unit) (s : State) : Host.Outcome State Fault Refusal :=
  match s.fault with
  | some f => .fault (.faulted f.code f.word)
  | none => if s.busy = .none then runOperation (.fg i) ((fun _ => none) <$> body) s else .refused .hostMustWait

end Sys2Proof.Machine
end

