-- ==== Sys2Proof/Machine/Operands.lean ====
section
/-! DEFINITION. The operand forms: the views of the register images (10_state R27), the channel lookup (42 R152), the
packing of a pin pair (45 R213), and the effective resolution of a format code (44 R183). All are pure functions. -/

namespace Sys2Proof.Machine

/-- The 2-bit view of an image whose lowest bit is `lo` (R27). -/
def view2 (img : Byte) (lo : Nat) : BitVec 2 := (img >>> lo).setWidth 2

/-- Writing a 2-bit view: the image's other bits keep their values (R27). -/
def setView2 (img : Byte) (lo : Nat) (x : BitVec 2) : Byte :=
  (img &&& ~~~(0x03#8 <<< lo)) ||| (x.setWidth 8 <<< lo)

/-- The 1-bit view of an image at bit `k` (R27). -/
def viewBit (img : Byte) (k : Nat) : Bool := img.getLsbD k

/-- Writing a 1-bit view (R27). -/
def setViewBit (img : Byte) (k : Nat) (x : Bool) : Byte :=
  if x then img ||| (0x01#8 <<< k) else img &&& ~~~(0x01#8 <<< k)

/-- Bit `k` of an image given by its bytes, most significant first (R27, log 13). -/
def imageBit (img : List Byte) (k : Nat) : Bool := viewBit (img.reverse.getD (k / 8) 0#8) (k % 8)

/-- Writing bit `k` of an image given by its bytes; the other bits keep their values (R27). -/
def setImageBit (img : List Byte) (k : Nat) (x : Bool) : List Byte :=
  (img.reverse.modify (k / 8) fun b => setViewBit b (k % 8) x).reverse

/-- `clk_sel` (R27). -/
def Shadow.clkSel (sh : Shadow) (l : Layout) : BitVec 2 := view2 sh.imgCfg0 l.clkSel

/-- `adc_mode` (R27). -/
def Shadow.adcMode (sh : Shadow) (l : Layout) : BitVec 2 := view2 sh.imgCfg0 l.adcMode

/-- `vref_sel` (R27): true means internal reference selected. -/
def Shadow.vrefSel (sh : Shadow) (l : Layout) : Bool := viewBit sh.imgCfg0 l.vrefSel

/-- `conv_mode` (R27). -/
def Shadow.convMode (sh : Shadow) (l : Layout) : BitVec 2 := view2 sh.imgCfg3 l.convMode

/-- `fmt_bits` (R27). -/
def Shadow.fmtBits (sh : Shadow) (l : Layout) : BitVec 2 := view2 sh.imgCfg3 l.dataFormat

/-- `scan_mask[i]` (R27, R193). -/
def Shadow.scanMask (sh : Shadow) (l : Layout) (i : Nat) : Bool := imageBit sh.imgScan (l.scanLo + i)

/-- `clk_sel <- c`. -/
def Shadow.setClkSel (l : Layout) (c : BitVec 2) (sh : Shadow) : Shadow :=
  { sh with imgCfg0 := setView2 sh.imgCfg0 l.clkSel c }

/-- `adc_mode <- m`. -/
def Shadow.setAdcMode (l : Layout) (m : BitVec 2) (sh : Shadow) : Shadow :=
  { sh with imgCfg0 := setView2 sh.imgCfg0 l.adcMode m }

/-- `vref_sel <- x`. -/
def Shadow.setVrefSel (l : Layout) (x : Bool) (sh : Shadow) : Shadow :=
  { sh with imgCfg0 := setViewBit sh.imgCfg0 l.vrefSel x }

/-- `conv_mode <- m`. -/
def Shadow.setConvMode (l : Layout) (m : BitVec 2) (sh : Shadow) : Shadow :=
  { sh with imgCfg3 := setView2 sh.imgCfg3 l.convMode m }

/-- `fmt_bits <- x`. -/
def Shadow.setFmtBits (l : Layout) (x : BitVec 2) (sh : Shadow) : Shadow :=
  { sh with imgCfg3 := setView2 sh.imgCfg3 l.dataFormat x }

/-- `scan_mask[i] <- x` (R193). -/
def Shadow.setScanMask (l : Layout) (i : Nat) (x : Bool) (sh : Shadow) : Shadow :=
  { sh with imgScan := setImageBit sh.imgScan (l.scanLo + i) x }

/-- The sentinel of R152: no such channel. -/
def noChannel : Byte := 0xFF#8

/-- The scan of R152 from index `i` on: the lowest matching index, or the sentinel. -/
def lookupFrom (m : Byte) : Nat → List Byte → Byte
  | _, [] => noChannel
  | i, b :: rest => if b = m then BitVec.ofNat 8 i else lookupFrom m (i + 1) rest

/-- `lookup(m)` in the variant's channel table (R152). -/
def State.lookup (s : State) (m : Byte) : Byte := lookupFrom m 0 (s.params.channelTable s.v)

/-- `mux_pack(pos, neg)` (R213): the positive pin in bits 7:4. -/
def muxPack (pos neg : BitVec 4) : Byte := pos ++ neg

/-- `new_resolution(f)` (R183), from the fixed baseline resolution_max; 0xFF is the signed -1. -/
def State.newResolution (s : State) (f : Byte) : BitVec 8 :=
  if 4 ≤ f.toNat then 0xFF#8
  else if s.params.signConsumes (f.setWidth 2) then s.resolutionMax - 1#8
  else s.resolutionMax

/-- The chip-register image that WriteReg sends (41 R125), as bytes, most significant first. -/
def Shadow.image (sh : Shadow) : Reg → List Byte
  | .adcdata => []
  | .config0 => [sh.imgCfg0]
  | .config3 => [sh.imgCfg3]
  | .mux => [sh.imgMux]
  | .scan => sh.imgScan
  | .lock => [sh.imgLock]

end Sys2Proof.Machine
end

