-- ==== Sys2Proof/Machine/Frames.lean ====
section
/-! DEFINITION. The bus transaction primitives (41_bus_frames R120 to R129) and the meanings of the three wire rows
FRAME_RREG, FRAME_WREG and FRAME_FAST. -/

namespace Sys2Proof.Machine

/-- The payload exchanges of a frame (R120): one `Xfer` for each byte to send, the received bytes in order. -/
def exchange : List Byte → Op (List Byte)
  | [] => return []
  | b :: rest => do
    let r ← xfer b
    let rs ← exchange rest
    return r :: rs

/-- `Frame(cmd, dir, n, w)` (R120), `out` being what the payload exchanges send: 0x00 for a read (R122), the value's
bytes for a write, nothing for a fast command. The received payload bytes are returned; a write discards them. -/
def frame (cmd : Byte) (out : List Byte) : Op (List Byte) := do
  let outer ← look (·.session)
  update (·.setSession true)
  driveCs .low
  update (·.setCs .low)
  let st ← xfer cmd
  update (·.setStatus st)
  let r ← exchange out
  driveCs .high
  update (·.setCs .high)
  update (·.setSession outer)
  return r

/-- `FRAME_RREG(a, n)` (R121 to R123). -/
def frameRreg (a n : Nat) : Op (List Byte) := do
  let r ← frame ((← look (·.params)).cmdByte .read a) (List.replicate n 0#8)
  update (·.setPayload r)
  return r

/-- `FRAME_WREG(a, n, x)` (R124), `x` by its `n` bytes, most significant first. -/
def frameWreg (a : Nat) (x : List Byte) : Op Unit := do
  let _ ← frame ((← look (·.params)).cmdByte .write a) x
  return ()

/-- `FRAME_FAST(f)` (R126). -/
def frameFast (f : FastCmd) : Op Unit := do
  let _ ← frame ((← look (·.params)).fastByte f) []
  return ()

/-- `WriteReg(r)` (R125): the whole current image of the containing register. -/
def writeReg (r : Reg) : Op Unit := do
  let sh ← readShadow
  let p ← look (·.params)
  frameWreg (p.addrOf r) (sh.image r)

/-- FRAME_RREG by itself (R121). -/
def execFrameRreg (a n : Nat) (s : State) : Host.Outcome State Fault Refusal :=
  wireFrame (.frameRreg a n) (do let _ ← frameRreg a n; return ()) s

/-- FRAME_WREG by itself (R124). -/
def execFrameWreg (a : Nat) (x : List Byte) (s : State) : Host.Outcome State Fault Refusal :=
  wireFrame (.frameWreg a x) (frameWreg a x) s

/-- FRAME_FAST by itself (R126). -/
def execFrameFast (f : FastCmd) (s : State) : Host.Outcome State Fault Refusal :=
  wireFrame (.frameFast f) (frameFast f) s

end Sys2Proof.Machine
end

