-- ==== Sys2Proof/Machine/Setters.lean ====
section
/-! DEFINITION. The configuration setters (44_setters R180 to R198). -/

namespace Sys2Proof.Machine

/-- `SETTER(field, reg, value)` (R180): one field of the shadow, the whole containing image, the captured status. -/
def setter (write : Layout → Shadow → Shadow) (r : Reg) : Op Response := do
  requireBegun
  let p ← look (·.params)
  writeShadow (write p.layout)
  writeReg r
  return { status := ← look (·.status) }

/-- SET_DATA_FORMAT (R181 to R183). -/
def setDataFormatOp (f : Byte) : Op Response := do
  requireBegun
  let p ← look (·.params)
  writeShadow fun sh => { sh with fmtCode := f }
  if f.toNat ≤ 3 then
    writeShadow (Shadow.setFmtBits p.layout (f.setWidth 2))
  else
    let x ← drawFmtBits
    writeShadow (Shadow.setFmtBits p.layout x)
  writeReg .config3
  update fun s => s.setResolution (s.newResolution f)
  return { status := ← look (·.status) }

/-- SET_CONV_MODE (R185). -/
def setConvModeOp (m : BitVec 2) : Op Response := setter (Shadow.setConvMode · m) .config3

/-- SET_ADC_MODE (R187). -/
def setAdcModeOp (m : BitVec 2) : Op Response := setter (Shadow.setAdcMode · m) .config0

/-- SET_CLOCK_SELECTION (R189). -/
def setClockSelectionOp (c : BitVec 2) : Op Response := setter (Shadow.setClkSel · c) .config0

/-- SET_SCAN_CHANNEL (R191) and UNSET_SCAN_CHANNEL (R192): the mask bit of the selector's table index. -/
def scanChannelOp (sel : Byte) (x : Bool) : Op Response := do
  requireBegun
  let i ← look (·.lookup sel)
  if i = noChannel then raise .channelNotFound
  let p ← look (·.params)
  writeShadow (Shadow.setScanMask p.layout i.toNat x)
  writeReg .scan
  return { status := ← look (·.status) }

/-- SET_REFERENCE (R194, R195). -/
def setReferenceOp (r : Word32) : Op Response := do
  if r = 0#32 then
    requireBegun
    update (·.setReference Config.internalRefMv)
    let p ← look (·.params)
    writeShadow (Shadow.setVrefSel p.layout true)
    writeReg .config0
    return { status := ← look (·.status) }
  else
    update (·.setReference r)
    return { status := ← look (·.status) }

/-- LOCK (R197). -/
def lockOp (k : Byte) : Op Response := setter (fun _ sh => { sh with imgLock := k }) .lock

/-- UNLOCK (R198): the fixed default key. -/
def unlockOp : Op Response := do
  let p ← look (·.params)
  setter (fun _ sh => { sh with imgLock := p.unlockKey }) .lock

/-- SET_DATA_FORMAT. -/
def execSetDataFormat (f : BitVec 8) (s : State) : Host.Outcome State Fault Refusal :=
  hostCommand (.setDataFormat f) (setDataFormatOp f) s

/-- SET_CONV_MODE. -/
def execSetConvMode (m : BitVec 2) (s : State) : Host.Outcome State Fault Refusal :=
  hostCommand (.setConvMode m) (setConvModeOp m) s

/-- SET_ADC_MODE. -/
def execSetAdcMode (m : BitVec 2) (s : State) : Host.Outcome State Fault Refusal :=
  hostCommand (.setAdcMode m) (setAdcModeOp m) s

/-- SET_CLOCK_SELECTION. -/
def execSetClockSelection (c : BitVec 2) (s : State) : Host.Outcome State Fault Refusal :=
  hostCommand (.setClockSelection c) (setClockSelectionOp c) s

/-- SET_SCAN_CHANNEL. -/
def execSetScanChannel (sel : BitVec 8) (s : State) : Host.Outcome State Fault Refusal :=
  hostCommand (.setScanChannel sel) (scanChannelOp sel true) s

/-- UNSET_SCAN_CHANNEL. -/
def execUnsetScanChannel (sel : BitVec 8) (s : State) : Host.Outcome State Fault Refusal :=
  hostCommand (.unsetScanChannel sel) (scanChannelOp sel false) s

/-- SET_REFERENCE. -/
def execSetReference (r : BitVec 32) (s : State) : Host.Outcome State Fault Refusal :=
  hostCommand (.setReference r) (setReferenceOp r) s

/-- LOCK. -/
def execLock (k : BitVec 8) (s : State) : Host.Outcome State Fault Refusal := hostCommand (.lock k) (lockOp k) s

/-- UNLOCK. -/
def execUnlock (s : State) : Host.Outcome State Fault Refusal := hostCommand .unlock unlockOp s

end Sys2Proof.Machine
end

