-- ==== Sys2Proof/Machine/Begin.lean ====
section
/-! DEFINITION. BEGIN (40_begin R100 to R108). -/

namespace Sys2Proof.Machine

/-- The shadow that `LoadDefaults()` sets (R103). -/
def defaultShadow (p : Params) : Shadow where
  imgCfg0 := p.defaults.cfg0
  imgCfg3 := p.defaults.cfg3
  imgMux := p.defaults.mux
  imgScan := p.defaults.scan
  imgLock := p.defaults.lock
  fmtCode := (view2 p.defaults.cfg3 p.layout.dataFormat).setWidth 8

/-- `LoadDefaults()` (R103): no frame, and nothing but the shadow. -/
def loadDefaults : Op Unit := update fun s => s.setShadow (defaultShadow s.params)

/-- The mode branch of R100: interrupt mode. -/
def beginInterrupt : Op Unit := do
  let p ← look (·.params)
  let _ ← setDataFormatOp Config.fmtIdSgnextData
  let _ ← setConvModeOp p.convContinuous
  frameFast .convStart

/-- The mode branch of R100: polled mode (R106). -/
def beginPolled : Op Unit := do
  let _ ← setDataFormatOp Config.fmtSgnData
  let _ ← setReferenceOp (← look (·.reference))
  frameFast .standby

/-- BEGIN (R100, R101): the responses of the inner setters are discarded, and the result is always true (R102). An
ISR_HANDLER between two of its bus events finds all the lines between them done (DESIGN CHOICE, log 3). -/
def beginOp : Op Response := do
  update (·.setCs .high)
  driveCs .high
  update (·.setSession true)
  frameFast .reset
  loadDefaults
  update (·.setBegun)
  let p ← look (·.params)
  let _ ← setClockSelectionOp p.clkInternal
  if ← look (·.hasIrq) then beginInterrupt else beginPolled
  update (·.setSession false)
  return { ok := some true, status := ← look (·.status) }

/-- BEGIN. -/
def execBegin (s : State) : Host.Outcome State Fault Refusal := hostCommand .begin beginOp s

end Sys2Proof.Machine
end

