-- ==== Sys2Proof/Machine/Sample.lean ====
section
/-! DEFINITION. The sample decoder (42_read_decode R142 to R153; the payload width of R141 is in Decode): assembly, value decode and
channel-id decode, pure functions of the format code, the sample word and the multiplexer image. -/

namespace Sys2Proof.Machine

/-- `assemble(B)` (R142), by the sum of R62: the first byte received is the most significant, and a 3-byte read
leaves bits 31:24 zero. -/
def assembleBytes (bytes : List Byte) : Word32 :=
  bytes.foldl (fun acc b => (acc <<< 8) ||| b.setWidth 32) 0#32

/-- The decode of `sgn_data` (R144): bits 23:0 sign-extended. -/
def decodeSgnData (w : Word32) : Word32 := (w.extractLsb' 0 24).signExtend 32

/-- The decode of `sgn_data_zero` (R145): a logical right shift by 8. -/
def decodeSgnDataZero (w : Word32) : Word32 := w >>> 8

/-- The decode of `sgnext_data` and `id_sgnext_data` (R146): bit 25 to bit 31, bits 30:24 zero, bits 23:0 kept. -/
def decodeSgnext (w : Word32) : Word32 := w.extractLsb' 25 1 ++ 0#7 ++ w.extractLsb' 0 24

/-- `decode_value(f, w)` (R143); an unrecognized code decodes to -1 (R147). -/
def decodeValue (f : Byte) (w : Word32) : Word32 :=
  match f.toNat with
  | 0 => decodeSgnData w
  | 1 => decodeSgnDataZero w
  | 2 => decodeSgnext w
  | 3 => decodeSgnext w
  | _ => 0xFFFFFFFF#32

/-- `decode_channel(f, w, m)` (R150): bits 31:28 for `id_sgnext_data` (R151), else the lookup of `m` (R152, R153). -/
def State.decodeChannel (s : State) (f : Byte) (w : Word32) (m : Byte) : Byte :=
  if f = Config.fmtIdSgnextData then (w.extractLsb' 28 4).setWidth 8 else s.lookup m

end Sys2Proof.Machine
end

