-- ==== Sys2Proof/Machine/Read.lean ====
section
/-! DEFINITION. READ (42_read_decode R140, R154 to R156) and ISR_HANDLER (43_interrupt R170 to R175), over the shared
`readSample`. -/

namespace Sys2Proof.Machine

/-- `ReadSample()` (R140): one read frame, the sample word, its channel id and its value. -/
def readSample : Op (Byte × Word32) := do
  let sh ← readShadow
  let p ← look (·.params)
  let bytes ← frameRreg p.addr.adcdata (sampleWidth sh.fmtCode)
  let w := assembleBytes bytes
  update (·.setSample w)
  let ch ← look fun s => s.decodeChannel sh.fmtCode w sh.imgMux
  return (ch, decodeValue sh.fmtCode w)

/-- READ (R140). -/
def readOp : Op Response := do
  requireBegun
  let (ch, val) ← readSample
  let st ← look (·.status)
  return { status := st, channel := some ch, value := some val }

/-- ISR_HANDLER (R170): one read, one cache store, the empty record. -/
def isrOp : Op Response := do
  requireBegun
  let (ch, val) ← readSample
  cacheWrite ch val
  return { }

/-- READ. -/
def execRead (s : State) : Host.Outcome State Fault Refusal := hostCommand .read readOp s

/-- ISR_HANDLER. -/
def execIsrHandler (s : State) : Host.Outcome State Fault Refusal := isrCommand isrOp s

end Sys2Proof.Machine
end

