-- ==== Sys2Proof/Machine/Conversion.lean ====
section
/-! DEFINITION. The conversion triggers (45_conversion R210 to R215). -/

namespace Sys2Proof.Machine

/-- ANALOG_READ (R210 to R212): the multiplexer write, the conversion start, the read with no poll between them, and
the cache store. -/
def analogReadOp (sel : Byte) : Op Response := do
  requireBegun
  writeShadow fun sh => { sh with imgMux := sel }
  writeReg .mux
  frameFast .convStart
  let (ch, val) ← readSample
  cacheWrite ch val
  return { value := some val }

/-- ANALOG_READ. -/
def execAnalogRead (sel : BitVec 8) (s : State) : Host.Outcome State Fault Refusal :=
  hostCommand (.analogRead sel) (analogReadOp sel) s

/-- ANALOG_READ_DIFF (R214): ANALOG_READ of the packed pair. -/
def execAnalogReadDiff (pos neg : BitVec 4) (s : State) : Host.Outcome State Fault Refusal :=
  hostCommand (.analogReadDiff pos neg) (analogReadOp (muxPack pos neg)) s

end Sys2Proof.Machine
end

