-- ==== Sys2Proof/Machine/Flags.lean ====
section
/-! DEFINITION. The condition-code-like state of 10_state R43: the data-ready flag of the status byte (R33), the
comparison of SET_RESOLUTION (46 R234), and the maximum value of a resolution with its negative case (R236). No
operation sets a flag as a side effect of arithmetic. -/

namespace Sys2Proof.Machine

/-- `S.status[DR_BIT] = 1` (R33, R235): the raw bit. -/
def dataReady (p : Params) (status : Byte) : Bool := status.getLsbD p.drBit.val

/-- `b < S.resolution_max`, signed (R234). -/
def belowMax (b max : BitVec 8) : Bool := b.slt max

/-- `S.resolution < 0` (R236). -/
def negative (r : BitVec 8) : Bool := r.msb

/-- `2^resolution` as an unsigned 32-bit number (R236). For a resolution above 31, which no run reaches, the spec
states no 32-bit result and the value is free (log 17). -/
def maxValue (r : BitVec 8) : Word32 :=
  if r.toNat < 32 then BitVec.ofNat 32 (2 ^ r.toNat) else Config.freeMaxValue r

end Sys2Proof.Machine
end

