-- ==== Sys2Proof/Machine/Modes.lean ====
section
/-! DEFINITION. The mode toggles, SET_RESOLUTION and the queries (46_modes_queries R230 to R242). None sends a frame
and none needs BEGIN. -/

namespace Sys2Proof.Machine

/-- A toggle writes host-side flags and returns the empty record (R230 to R233). -/
def toggle (f : State → State) : Op Response := do
  update f
  return { }

/-- SET_RESOLUTION (R234). -/
def setResolutionOp (b : BitVec 8) : Op Response := do
  if belowMax b (← look (·.resolutionMax)) then
    update (·.setResolution b)
  return { }

/-- IS_COMPLETE (R235). -/
def isCompleteOp : Op Response := do
  match ← look (·.status) with
  | none => raise .unwrittenStatus
  | some st =>
    let p ← look (·.params)
    return { flag := some (dataReady p st) }

/-- GET_MAX_VALUE (R236). -/
def getMaxValueOp : Op Response := do
  let r ← look (·.resolution)
  if negative r then raise .negativeResolution
  return { max := some (maxValue r) }

/-- READ_CACHE (R242). -/
def readCacheOp (i : Byte) : Op Response := do
  return { value := some (← cacheRead i) }

/-- SINGLE_ENDED_MODE (R230). -/
def execSingleEndedMode (s : State) : Host.Outcome State Fault Refusal :=
  hostCommand .singleEndedMode (toggle (·.setDifferential false)) s

/-- DIFFERENTIAL_MODE (R231). -/
def execDifferentialMode (s : State) : Host.Outcome State Fault Refusal :=
  hostCommand .differentialMode (toggle (·.setDifferential true)) s

/-- START_CONTINUOUS_DIFFERENTIAL (R232). -/
def execStartContinuousDifferential (s : State) : Host.Outcome State Fault Refusal :=
  hostCommand .startContinuousDifferential (toggle fun s => (s.setContinuous true).setDifferential true) s

/-- START_SINGLE_DIFFERENTIAL (R233). -/
def execStartSingleDifferential (s : State) : Host.Outcome State Fault Refusal :=
  hostCommand .startSingleDifferential (toggle fun s => (s.setContinuous false).setDifferential true) s

/-- SET_RESOLUTION. -/
def execSetResolution (b : BitVec 8) (s : State) : Host.Outcome State Fault Refusal :=
  hostCommand (.setResolution b) (setResolutionOp b) s

/-- IS_COMPLETE. -/
def execIsComplete (s : State) : Host.Outcome State Fault Refusal := hostCommand .isComplete isCompleteOp s

/-- GET_MAX_VALUE. -/
def execGetMaxValue (s : State) : Host.Outcome State Fault Refusal := hostCommand .getMaxValue getMaxValueOp s

/-- IS_DIFFERENTIAL (R238). -/
def execIsDifferential (s : State) : Host.Outcome State Fault Refusal :=
  hostCommand .isDifferential (do return { flag := some (← look (·.differential)) }) s

/-- IS_CONTINUOUS (R239). -/
def execIsContinuous (s : State) : Host.Outcome State Fault Refusal :=
  hostCommand .isContinuous (do return { flag := some (← look (·.continuous)) }) s

/-- GET_REFERENCE (R240). -/
def execGetReference (s : State) : Host.Outcome State Fault Refusal :=
  hostCommand .getReference (do return { ref := some (← look (·.reference)) }) s

/-- READ_CACHE. -/
def execReadCache (i : BitVec 8) (s : State) : Host.Outcome State Fault Refusal :=
  hostCommand (.readCache i) (readCacheOp i) s

end Sys2Proof.Machine
end

