-- ==== Sys2Proof/Machine/Dispatch.lean ====
section
/-! DEFINITION. exec: one arm per constructor of Instr, each one direct call of that instruction's meaning. -/

namespace Sys2Proof.Machine

def exec (i : Instr) (s : State) : Host.Outcome State Fault Refusal :=
  match i with
  | .begin => Sys2Proof.Machine.execBegin s
  | .read => Sys2Proof.Machine.execRead s
  | .isrHandler => Sys2Proof.Machine.execIsrHandler s
  | .setDataFormat f => Sys2Proof.Machine.execSetDataFormat f s
  | .setConvMode m => Sys2Proof.Machine.execSetConvMode m s
  | .setAdcMode m => Sys2Proof.Machine.execSetAdcMode m s
  | .setClockSelection c => Sys2Proof.Machine.execSetClockSelection c s
  | .setScanChannel sel => Sys2Proof.Machine.execSetScanChannel sel s
  | .unsetScanChannel sel => Sys2Proof.Machine.execUnsetScanChannel sel s
  | .setReference r => Sys2Proof.Machine.execSetReference r s
  | .lock k => Sys2Proof.Machine.execLock k s
  | .unlock => Sys2Proof.Machine.execUnlock s
  | .analogRead sel => Sys2Proof.Machine.execAnalogRead sel s
  | .analogReadDiff pos neg => Sys2Proof.Machine.execAnalogReadDiff pos neg s
  | .singleEndedMode => Sys2Proof.Machine.execSingleEndedMode s
  | .differentialMode => Sys2Proof.Machine.execDifferentialMode s
  | .startContinuousDifferential => Sys2Proof.Machine.execStartContinuousDifferential s
  | .startSingleDifferential => Sys2Proof.Machine.execStartSingleDifferential s
  | .setResolution b => Sys2Proof.Machine.execSetResolution b s
  | .isComplete => Sys2Proof.Machine.execIsComplete s
  | .getMaxValue => Sys2Proof.Machine.execGetMaxValue s
  | .isDifferential => Sys2Proof.Machine.execIsDifferential s
  | .isContinuous => Sys2Proof.Machine.execIsContinuous s
  | .getReference => Sys2Proof.Machine.execGetReference s
  | .readCache ch => Sys2Proof.Machine.execReadCache ch s
  | .frameRreg a n => Sys2Proof.Machine.execFrameRreg a n s
  | .frameWreg a x => Sys2Proof.Machine.execFrameWreg a x s
  | .frameFast f => Sys2Proof.Machine.execFrameFast f s

end Sys2Proof.Machine
end

