-- ==== Sys2Proof/Machine/Fetch.lean ====
section
/-! DEFINITION. Taking what is presented (60_exceptions R263): the next input of the port, a word that decodes to no
operation, and the placing of a table row's word where the next step takes it. -/

namespace Sys2Proof.Machine

/-- Step 3 of R263: a word that decodes to Illegal raises IllegalCommand before any state changes (R83); bytes that
the block never sends as a frame are refused by name (30_encoding R89, log 14). -/
def rejectInput (inp : Input) (s : State) : Host.Outcome State Fault Refusal :=
  match inp with
  | .command w => .next (s.raise .illegalCommand w)
  | .wire _ => .refused .notAFrame

/-- What an input decodes to now, S.fmt_code choosing the length of a read frame (30_encoding R83, R88). -/
def State.decodeInput (s : State) (inp : Input) : Decoded := decode s.params (s.shadow.map (·.fmtCode)) inp

/-- The input is taken: the word leaves the port. -/
def State.take (s : State) (rest : List Input) : State := { s with port := rest }

/-- The word of a table row, put first on the port (log 2). -/
def State.present (s : State) (nbits w : Nat) : State :=
  match tableInput s.params (s.shadow.map (·.fmtCode)) nbits w with
  | some inp => { s with port := inp :: s.port }
  | none => s

end Sys2Proof.Machine
end

