-- ==== Sys2Proof/Machine/Step.lean ====
section
/-! DEFINITION. One step: the next thing presented is taken, decoded and run to its end or to a fault (60_exceptions
R263, log 1). With nothing presented the block waits (70_reset_and_hazards R293). -/

namespace Sys2Proof.Machine

/-- R263: in the faulted state no step (R262); else the first input of the port is decoded and run. -/
def step (s : State) : Host.Outcome State Fault Refusal :=
  match s.fault with
  | some f => .fault (.faulted f.code f.word)
  | none =>
    match s.port with
    | [] => .next s
    | inp :: rest =>
      match s.decodeInput inp with
      | .ok i => exec i (s.take rest)
      | .illegal _ => rejectInput inp (s.take rest)

/-- `s` with a table row's word where the next step takes it (log 2). -/
def State.withFetchWord (s : State) (nbits w : Nat) : State := s.present nbits w

end Sys2Proof.Machine
end

