-- ==== Sys2Proof/Safety.lean ====
section
/-! DEFINITION. What counts as a safe run, and the terms claims are stated in: an idle or begun block, a quiet
environment, the closed form of an undisturbed frame (41_bus_frames R120), the state invariant, and views of the bus
trace. -/

namespace Sys2Proof.Machine

/-- No fault and no operation running: the block takes the next word (R263). -/
abbrev State.Idle (s : State) : Prop := s.fault = none ∧ s.busy = .none

/-- Idle after a BEGIN, with the shadow `sh` (R31, R40). -/
abbrev State.Ready (s : State) (sh : Shadow) : Prop := s.Idle ∧ s.begun = true ∧ s.shadow = some sh

/-- The environment presents no ISR_HANDLER at the next `n` boundaries inside operations (R268, R294 item 4). -/
abbrev State.Quiet (s : State) (n : Nat) : Prop := ∀ b ∈ s.irqPlan.take n, b = false

/-- A run of `k` steps that does not end in the faulted state (R262: a faulted state is never the final state of a
successful run). -/
def SuccessfulRun (k : Nat) (s t : State) : Prop := Host.Core.run core k s = .next t ∧ t.fault = none

/-- The peer's next `n` answers after the first `k`. -/
def State.answers (s : State) (k n : Nat) : List Byte := (List.range n).map fun j => s.answer (k + j)

/-- The bus events of one undisturbed frame (R120) that takes the peer's answers from the `k`-th on: command byte
`cmd`, payload bytes `out` sent. -/
def State.frameAt (s : State) (k : Nat) (cmd : Byte) (out : List Byte) : List BusEvent :=
  .cs .low :: .xfer cmd (s.answer k) :: (List.zipWith .xfer out (s.answers (k + 1) out.length) ++ [.cs .high])

/-- The boundaries an undisturbed frame passes: one before each of its events, but none before an operation's
first (R268). -/
def State.frameBoundaries (s : State) (n : Nat) : Nat := if s.seqStep = 0 then n + 2 else n + 3

/-- The state after one undisturbed frame (R120). -/
def State.afterFrame (s : State) (cmd : Byte) (out : List Byte) : State :=
  { s with
    cs := .driven .high
    status := some (s.answer 0)
    bus := s.bus ++ s.frameAt 0 cmd out
    seqStep := s.seqStep + (out.length + 3)
    irqPlan := s.irqPlan.drop (s.frameBoundaries out.length)
    peer := s.peer.drop (out.length + 1)
    drawn := s.drawn + (out.length + 1) }

/-- The state after an undisturbed `WriteReg(r)` of the shadow `sh` (R125). -/
def State.afterWriteReg (s : State) (r : Reg) (sh : Shadow) : State :=
  s.afterFrame (s.params.cmdByte .write (s.params.addrOf r)) (sh.image r)

/-- The state after an undisturbed fast command (R126). -/
def State.afterFast (s : State) (f : FastCmd) : State := s.afterFrame (s.params.fastByte f) []

/-- The sample word that an undisturbed read of `n` bytes would assemble now (R142). -/
def State.nextWord (s : State) (n : Nat) : Word32 := assembleBytes (s.answers 1 n)

/-- The state after an undisturbed read of `n` bytes of the ADC data register, with the sample word set (R140). -/
def State.afterSample (s : State) (n : Nat) : State :=
  ((s.afterFrame (s.params.cmdByte .read s.params.addr.adcdata) (List.replicate n 0#8)).setPayload
    (s.answers 1 n)).setSample (s.nextWord n)

/-- The fields that an instantiation fixes are those of the other state (R22, R8). -/
abbrev State.SameInstance (s t : State) : Prop :=
  t.params = s.params ∧ t.v = s.v ∧ t.resolutionMax = s.resolutionMax ∧ t.channelsMax = s.channelsMax ∧
  t.hasIrq = s.hasIrq ∧ t.chanValidMask = s.chanValidMask

/-- The instantiation fields are those of the variant, under parameters the spec admits (R6, R22, R23). -/
abbrev State.InvInstance (s : State) : Prop :=
  s.params.wf s.v = true ∧ s.resolutionMax = s.v.resolutionMax ∧ s.channelsMax = s.v.channelsMax ∧
  s.chanValidMask = BitVec.ofNat 8 (2 ^ s.v.channelsMax - 1)

/-- The shadow's own part of the invariant: the scan image has its width (R26), and a recognized format's code is in
fmt_bits (R28). -/
abbrev Shadow.Inv (p : Params) (sh : Shadow) : Prop :=
  sh.imgScan.length = p.scanBytes ∧ (sh.fmtCode.toNat ≤ 3 → sh.fmtBits p.layout = sh.fmtCode.setWidth 2)

/-- The shadow holds a value exactly after a BEGIN (R31, R40), and then a frame has been sent (R32). -/
abbrev State.InvShadow (s : State) : Prop :=
  s.begun = s.shadow.isSome ∧ (s.begun = true → s.status.isSome = true) ∧
  ∀ sh ∈ s.shadow, sh.Inv s.params

/-- The cache has CACHE_SIZE entries (R35), and the resolution is at most resolution_max (R236). -/
abbrev State.InvData (s : State) : Prop :=
  s.cache.length = s.params.cacheSize ∧ s.resolution.toInt ≤ s.resolutionMax.toInt

/-- Between operations (no fault) nothing is running, no session is open and chip-select is not asserted (R38, R39,
R41). -/
abbrev State.InvIdle (s : State) : Prop :=
  s.fault = none → s.busy = .none ∧ s.session = false ∧ s.cs ≠ .driven .low ∧ s.seqStep = 0

/-- The state invariant. -/
abbrev State.Inv (s : State) : Prop := s.InvInstance ∧ s.InvShadow ∧ s.InvData ∧ s.InvIdle

/-- What a bus event shows of the block alone: the level, or the byte sent. -/
def BusEvent.sent : BusEvent → Level ⊕ Byte
  | .cs l => .inl l
  | .xfer b _ => .inr b

/-- The exchanges that follow an assertion of chip-select directly: each frame's command byte and the status byte
received with it (R120). -/
def commandExchanges : List BusEvent → List (Byte × Byte)
  | .cs .low :: .xfer b r :: rest => (b, r) :: commandExchanges rest
  | _ :: rest => commandExchanges rest
  | [] => []

/-- The exchanges up to the release of chip-select; none if it is not released (R120). -/
def payloadLength : List BusEvent → Option Nat
  | .xfer _ _ :: rest => (payloadLength rest).map (· + 1)
  | .cs .high :: _ => some 0
  | .cs .low :: _ => none
  | [] => none

/-- The whole frames of a bus trace: each frame's command byte, and the number of its payload bytes (R120). -/
def wholeFrames : List BusEvent → List (Byte × Nat)
  | .cs .low :: .xfer c _ :: rest => ((payloadLength rest).map fun n => (c, n)).toList ++ wholeFrames rest
  | _ :: rest => wholeFrames rest
  | [] => []

/-- The opcodes that R84 leaves unassigned. -/
def unassignedOpcode (op : Nat) : Bool :=
  op == 0x00 || (0x04 ≤ op && op ≤ 0x0F) || (0x19 ≤ op && op ≤ 0x1F) || (0x22 ≤ op && op ≤ 0x2F) ||
  (0x35 ≤ op && op ≤ 0x3F) || 0x46 ≤ op

/-- The must-be-zero bits of an assigned opcode's argument: its format (R82) and that format's bits (R81). -/
def mustBeZeroMask (op : Nat) : Word32 :=
  if op = 0x16 then 0#32
  else if op ∈ [0x11, 0x12, 0x13] then 0xFFFFFFFC#32
  else if op ∈ [0x10, 0x14, 0x15, 0x17, 0x20, 0x21, 0x34, 0x45] then 0xFFFFFF00#32
  else 0xFFFFFFFF#32

end Sys2Proof.Machine

namespace Sys2Proof

/-- The command bytes of R87's table of uses. -/
def Params.usedCommands (p : Params) : List Byte :=
  p.cmdByte .read p.addr.adcdata ::
    ([Reg.config0, .config3, .mux, .scan, .lock].map (fun r => p.cmdByte .write (p.addrOf r)) ++
      [p.fastReset, p.fastStandby, p.fastConvStart])

/-- The numbers of payload bytes that a frame with this command byte can have (20_memory R68, 30_encoding R88); a byte
that is none of R87's uses has none. -/
def Params.frameWidths (p : Params) (c : Byte) : List Nat :=
  if c = p.cmdByte .read p.addr.adcdata then [3, 4]
  else if c ∈ [p.fastReset, p.fastStandby, p.fastConvStart] then [0]
  else if c = p.cmdByte .write p.addr.scan then [p.scanBytes]
  else if c ∈ [Reg.config0, .config3, .mux, .lock].map (fun r => p.cmdByte .write (p.addrOf r)) then [1]
  else []

/-- A host command or ISR_HANDLER, not a frame by itself. -/
def Instr.isCommand : Instr → Bool
  | .frameRreg _ _ => false
  | .frameWreg _ _ => false
  | .frameFast _ => false
  | .begin => true
  | .read => true
  | .isrHandler => true
  | .setDataFormat _ => true
  | .setConvMode _ => true
  | .setAdcMode _ => true
  | .setClockSelection _ => true
  | .setScanChannel _ => true
  | .unsetScanChannel _ => true
  | .setReference _ => true
  | .lock _ => true
  | .unlock => true
  | .analogRead _ => true
  | .analogReadDiff _ _ => true
  | .singleEndedMode => true
  | .differentialMode => true
  | .startContinuousDifferential => true
  | .startSingleDifferential => true
  | .setResolution _ => true
  | .isComplete => true
  | .getMaxValue => true
  | .isDifferential => true
  | .isContinuous => true
  | .getReference => true
  | .readCache _ => true

/-- The operations of 46_modes_queries: none sends a frame. -/
def Instr.isHostSide : Instr → Bool
  | .singleEndedMode | .differentialMode | .startContinuousDifferential | .startSingleDifferential
  | .setResolution _ | .isComplete | .getMaxValue | .isDifferential | .isContinuous | .getReference
  | .readCache _ => true
  | .begin | .read | .isrHandler | .setDataFormat _ | .setConvMode _ | .setAdcMode _ | .setClockSelection _
  | .setScanChannel _ | .unsetScanChannel _ | .setReference _ | .lock _ | .unlock | .analogRead _
  | .analogReadDiff _ _ | .frameRreg _ _ | .frameWreg _ _ | .frameFast _ => false

/-- The operations that need a BEGIN on every path (R31, R261 code 2). -/
def Instr.needsBegin : Instr → Bool
  | .read | .isrHandler | .setDataFormat _ | .setConvMode _ | .setAdcMode _ | .setClockSelection _
  | .setScanChannel _ | .unsetScanChannel _ | .lock _ | .unlock | .analogRead _ | .analogReadDiff _ _ => true
  | .setReference r => r = 0#32
  | .begin | .singleEndedMode | .differentialMode | .startContinuousDifferential | .startSingleDifferential
  | .setResolution _ | .isComplete | .getMaxValue | .isDifferential | .isContinuous | .getReference | .readCache _
  | .frameRreg _ _ | .frameWreg _ _ | .frameFast _ => false

/-- S.busy while the command runs (R263 step 4). -/
def Instr.running : Instr → Machine.Busy
  | .isrHandler => .isr
  | i => .fg i

end Sys2Proof
end

