-- ==== Sys2Proof/Certificates/Slice0/Obligations.lean ====
section
/-! DEFINITION. The statements for the provers. A statement about an instruction's result gives the whole next state:
every field that is not listed keeps its value. What a run records (`bus`, `responses`, `payload`, `seqStep`) and what
the agents will do (`port`, `irqPlan`, `peer`, `drawn`, `fmtDraws`, `fmtDrawn`) are fields of the model's own making
(log 2 to log 5, log 16): a clause about how a field of the second kind is used up is the model's. "Quiet" premises say
that the environment presents no ISR_HANDLER at the boundaries inside the operation (60_exceptions R268); the
statements about ISR_HANDLER there are at the end. -/

open Sys2Proof Sys2Proof.Machine

/-! ### Encoding -/

/-- Words written out from 30_encoding R81, R82 and R85 decode to the instructions they stand for (95 section 2.1). The
last three clauses are the model's, not the spec's rules: CMD and FASTCMD are OPEN in R87, the command bytes 0x5A, 0x41
and 0x78 are those of P-test (log 9, PRESUMED; 95 section 2.2, not normative), and that a frame can be presented by
itself is log 14's choice. -/
def Obligations.SampleWordsDecode : Prop :=
  decodeCommand 0x0100000000#40 = .ok .begin ∧
  decodeCommand 0x0300000000#40 = .ok .isrHandler ∧
  decodeCommand 0x1000000003#40 = .ok (.setDataFormat 3#8) ∧
  decodeCommand 0x1100000003#40 = .ok (.setConvMode 3#2) ∧
  decodeCommand 0x16FFFFFFFF#40 = .ok (.setReference 4294967295#32) ∧
  decodeCommand 0x21000000F0#40 = .ok (.analogReadDiff 15#4 0#4) ∧
  decodeCommand 0x34000000FF#40 = .ok (.setResolution (BitVec.ofInt 8 (-1))) ∧
  decodeCommand 0x45000000FF#40 = .ok (.readCache 255#8) ∧
  decodeCommand 0x0000000000#40 = .illegal .unassignedOpcode ∧
  decodeCommand 0x4600000000#40 = .illegal .unassignedOpcode ∧
  decodeCommand 0x1100000004#40 = .illegal .mustBeZero ∧
  decodeCommand 0x0100000001#40 = .illegal .mustBeZero ∧
  decodeCommand 0x2000000100#40 = .illegal .mustBeZero ∧
  decode Config.pTest none (.wire [0x5A#8, 0x08#8]) = .ok (.frameWreg 6 [0x08#8]) ∧
  decode Config.pTest none (.wire [0x41#8, 0x00#8, 0x00#8, 0x00#8]) = .ok (.frameRreg 0 3) ∧
  decode Config.pTest none (.wire [0x78#8]) = .ok (.frameFast .reset)

/-- Decoding an encoded well-formed instruction gives it back, for every admitted parameter instance and every
S.fmt_code (for a read frame, one that chooses its width, 30_encoding R88): no operand bit is dropped (30_encoding R81,
R82, R87; 41_bus_frames R121, R124, R126). That a frame can be presented by itself is the model's (log 14). -/
def Obligations.DecodeEncodeAgree : Prop :=
  ∀ (p : Params) (v : Variant), p.wf v = true → ∀ (fmt : Option Byte) (i : Instr), i.wf p = true → i.fits fmt →
    decode p fmt (encode p i) = .ok i

/-- A command word that decodes to an instruction is that instruction's one word (30_encoding R83, R85). -/
def Obligations.LegalWordIsTheEncoding : Prop :=
  ∀ (c : CmdWord) (i : Instr), decodeCommand c = .ok i → commandWord i = some c

/-- The decoder gives only well-formed instructions: a read frame is of the ADC data register, 3 or 4 bytes as
S.fmt_code chooses, and a write frame is of one of the five written registers, with that register's width; and what is
decoded is exactly the encoding of what comes out, so every other word and all other bytes are refused (20_memory R60,
R68; 30_encoding R81, R83 to R85, R88; 41_bus_frames R121, R122, R124, R126). That a frame can be presented by itself, and
that either width is let through while S.fmt_code holds no value, is the model's (log 14). -/
def Obligations.DecodedIsWellFormed : Prop :=
  ∀ (p : Params) (fmt : Option Byte) (inp : Input) (i : Instr), decode p fmt inp = .ok i →
    i.wf p = true ∧ i.fits fmt ∧ encode p i = inp ∧
    (∀ a n : Nat, i = .frameRreg a n → a = p.addr.adcdata ∧ (n = 3 ∨ n = 4) ∧ ∀ f ∈ fmt, n = sampleWidth f) ∧
    ∀ (a : Nat) (x : List Byte), i = .frameWreg a x →
      (a ∈ [p.addr.config0, p.addr.config3, p.addr.mux, p.addr.lock] ∧ x.length = 1) ∨
      (a = p.addr.scan ∧ x.length = p.scanBytes)

/-- The illegal words are exactly those with an unassigned opcode or a nonzero must-be-zero bit (30_encoding R83,
R84). -/
def Obligations.IllegalWordsAreThese : Prop :=
  ∀ c : CmdWord, (∃ why, decodeCommand c = .illegal why) ↔
    unassignedOpcode (opField c).toNat = true ∨ argField c &&& mustBeZeroMask (opField c).toNat ≠ 0#32

/-! ### The step -/

/-- An idle block that is presented an input which decodes to an instruction takes it and runs it: step is exec of
that instruction on the state whose port lost the input (60_exceptions R263; log 1, log 2). -/
def Obligations.StepRunsTheDecoded : Prop :=
  ∀ (s : State) (inp : Input) (rest : List Input) (i : Instr),
    s.fault = none → s.port = inp :: rest → s.decodeInput inp = .ok i → step s = exec i { s with port := rest }

/-- A word that decodes to Illegal raises IllegalCommand before any state changes: S.fault gets the code and the word
(30_encoding R83; 60_exceptions R262, R263). -/
def Obligations.IllegalWordFaults : Prop :=
  ∀ (s : State) (w : CmdWord) (rest : List Input) (why : Illegal),
    s.fault = none → s.port = .command w :: rest → decodeCommand w = .illegal why →
    step s = .next { s with port := rest, fault := some ⟨.illegalCommand, w⟩ }

/-- With nothing presented the block waits (70_reset_and_hazards R293; the idle step is the model's choice, log 2). -/
def Obligations.BlockWaitsForAWord : Prop :=
  ∀ s : State, s.fault = none → s.port = [] → step s = .next s

/-- In the faulted state the block takes no step and answers no command (60_exceptions R262). -/
def Obligations.FaultedBlockTakesNoStep : Prop :=
  ∀ (s : State) (f : FaultRecord), s.fault = some f →
    step s = .fault (.faulted f.code f.word) ∧ ∀ i : Instr, exec i s = .fault (.faulted f.code f.word)

/-! ### Instantiation -/

/-- The instantiation values of 10_state R45, for every parameter instance, variant and mode (70 R290). -/
def Obligations.InstantiationValues : Prop :=
  ∀ (p : Params) (v : Variant) (irq : Bool),
    let s := State.instantiate p v irq
    s.params = p ∧ s.v = v ∧ s.hasIrq = irq ∧ s.resolutionMax = v.resolutionMax ∧ s.channelsMax = v.channelsMax ∧
    s.chanValidMask.toNat = 2 ^ v.channelsMax - 1 ∧ s.resolution = v.resolutionMax ∧ s.shadow = none ∧
    s.reference = 0#32 ∧ s.status = none ∧ s.sample = none ∧ s.cache.length = p.cacheSize ∧
    (∀ x ∈ s.cache, x = none) ∧ s.differential = false ∧ s.continuous = false ∧ s.cs = .z ∧ s.session = false ∧
    s.begun = false ∧ s.busy = .none ∧ s.fault = none ∧ s.bus = []

/-- The variant table of 00_scope R6, and the refusal of an unknown variant (70 R291). -/
def Obligations.VariantTable : Prop :=
  (∀ (p : Params) (n : Nat) (irq : Bool), State.instantiateIndex p n irq = none ↔ 6 ≤ n) ∧
  [0, 1, 2, 3, 4, 5].map (fun n => (Variant.ofIndex n).map fun v => (v.resolutionMax.toInt, v.channelsMax)) =
    [some (16, 2), some (16, 4), some (16, 8), some (24, 2), some (24, 4), some (24, 8)]

/-! ### The sample decoder -/

/-- The payload width by format code (42_read_decode R141). -/
def Obligations.PayloadWidthByFormat : Prop :=
  ∀ f : Byte, sampleWidth f = if f = 0#8 ∨ f = 1#8 then 3 else 4

/-- The first byte received is the most significant; a 3-byte read leaves bits 31:24 zero (42_read_decode R142). -/
def Obligations.AssemblyIsBigEndian : Prop :=
  (∀ a b c d : Byte, assembleBytes [a, b, c, d] = a ++ b ++ c ++ d) ∧
  (∀ a b c : Byte, assembleBytes [a, b, c] = 0#8 ++ a ++ b ++ c)

/-- The value decode of each format, as numbers: two's complement of bits 23:0 for `sgn_data`; the unsigned word over
256 for `sgn_data_zero`; bit 25 to bit 31 over the low 24 bits, nothing outside the mask 0x80FFFFFF, for the other
two; -1 for an unrecognized code (42_read_decode R143 to R147). -/
def Obligations.ValueDecodeByFormat : Prop :=
  ∀ (f : Byte) (w : Word32),
    (f = 0#8 → (decodeValue f w).toInt = (w.extractLsb' 0 24).toInt) ∧
    (f = 1#8 → (decodeValue f w).toNat = w.toNat / 256) ∧
    (f = 2#8 ∨ f = 3#8 →
      decodeValue f w = ((w.extractLsb' 25 1).zeroExtend 32 <<< 31) ||| (w &&& 0x00FFFFFF#32) ∧
      decodeValue f w &&& ~~~0x80FFFFFF#32 = 0#32) ∧
    (4 ≤ f.toNat → (decodeValue f w).toInt = -1)

/-- `sgn_data_zero`: a logical right shift by 8, never negative; on the 3-byte word that its reads assemble the last wire
byte is shifted out (42_read_decode R145). -/
def Obligations.ZeroPaddedDecodeShiftsRight : Prop :=
  (∀ w : Word32, decodeValue 1#8 w = w >>> 8 ∧ (decodeValue 1#8 w).toNat < 2 ^ 24 ∧
    0 ≤ (decodeValue 1#8 w).toInt) ∧
  decodeValue 1#8 0xAABBCC00#32 = 0x00AABBCC#32 ∧ sampleWidth 1#8 = 3 ∧
  ∀ a b c : Byte, decodeValue 1#8 (assembleBytes [a, b, c]) = 0#16 ++ (a ++ b)

/-- `sgnext_data` and `id_sgnext_data`: bit 31 is bit 25 of the word, bits 30:24 are zero, bits 23:0 are the word's; so a
set bit 25 gives a value at or below -2130706433, and bits 31:26 and 24 of the word are ignored
(42_read_decode R146). -/
def Obligations.ExtendedSignDecodeKeepsTheMask : Prop :=
  ∀ (f : Byte) (w : Word32), f = 2#8 ∨ f = 3#8 →
    (decodeValue f w).getLsbD 31 = w.getLsbD 25 ∧ (decodeValue f w).extractLsb' 24 7 = 0#7 ∧
    (decodeValue f w).extractLsb' 0 24 = w.extractLsb' 0 24 ∧
    decodeValue f w = ((w.extractLsb' 25 1).zeroExtend 32 <<< 31) ||| (w &&& 0x00FFFFFF#32) ∧
    decodeValue f w &&& ~~~0x80FFFFFF#32 = 0#32 ∧
    (w.getLsbD 25 = true → (decodeValue f w).toInt ≤ -2130706433) ∧
    decodeValue f w = decodeValue f (w &&& 0x02FFFFFF#32)

/-- The lookup answers the lowest index whose entry is the multiplexer byte, and 0xFF if no entry is
(42_read_decode R152), for tables of at most 16 entries (10_state R24). -/
def Obligations.LookupFindsLowestIndex : Prop :=
  ∀ (s : State) (m : Byte), (s.params.channelTable s.v).length ≤ 16 →
    (m ∉ s.params.channelTable s.v → s.lookup m = 0xFF#8) ∧
    (m ∈ s.params.channelTable s.v → ∃ i : Nat, i < 16 ∧ s.lookup m = BitVec.ofNat 8 i ∧
      (s.params.channelTable s.v)[i]? = some m ∧ ∀ j < i, (s.params.channelTable s.v)[j]? ≠ some m)

/-- The channel id: bits 31:28 of the word for `id_sgnext_data`, the lookup of the multiplexer image for every other
code (42_read_decode R150, R151). -/
def Obligations.ChannelIdByFormat : Prop :=
  ∀ (s : State) (f : Byte) (w : Word32) (m : Byte),
    (f = 3#8 → (s.decodeChannel f w m).toNat = w.toNat / 2 ^ 28) ∧ (f ≠ 3#8 → s.decodeChannel f w m = s.lookup m)

/-! ### READ and ISR_HANDLER -/

/-- READ: one read frame of the width of the shadow's format, the decoded sample and the captured status in the
response; nothing is stored in the cache (42_read_decode R140, R156). -/
def Obligations.ReadReturnsTheSample : Prop :=
  ∀ (s : State) (sh : Shadow), s.Ready sh →
    let n := sampleWidth sh.fmtCode
    let bytes := s.answers 1 n
    let w := assembleBytes bytes
    s.Quiet (n + 2) →
    exec .read s = .next { s with
      status := some (s.answer 0)
      sample := some w
      payload := bytes
      cs := .driven .high
      seqStep := 0
      bus := s.bus ++ s.frameAt 0 (s.params.cmdByte .read s.params.addr.adcdata) (List.replicate n 0#8)
      responses := s.responses ++ [{
        status := some (s.answer 0)
        channel := some (s.decodeChannel sh.fmtCode w sh.imgMux)
        value := some (decodeValue sh.fmtCode w) }]
      irqPlan := s.irqPlan.drop (n + 2)
      peer := s.peer.drop (n + 1)
      drawn := s.drawn + (n + 1) }

/-- ISR_HANDLER: one read frame, then the decoded value is stored at the decoded channel id; the response is the
empty record (43_interrupt R170). -/
def Obligations.IsrStoresTheSample : Prop :=
  ∀ (s : State) (sh : Shadow), s.Ready sh →
    let n := sampleWidth sh.fmtCode
    let bytes := s.answers 1 n
    let w := assembleBytes bytes
    let ch := s.decodeChannel sh.fmtCode w sh.imgMux
    s.Quiet (n + 2) → ch.toNat < s.params.cacheSize →
    exec .isrHandler s = .next { s with
      status := some (s.answer 0)
      sample := some w
      payload := bytes
      cache := s.cache.set ch.toNat (some (decodeValue sh.fmtCode w))
      cs := .driven .high
      seqStep := 0
      bus := s.bus ++ s.frameAt 0 (s.params.cmdByte .read s.params.addr.adcdata) (List.replicate n 0#8)
      responses := s.responses ++ [{ }]
      irqPlan := s.irqPlan.drop (n + 2)
      peer := s.peer.drop (n + 1)
      drawn := s.drawn + (n + 1) }

/-- ISR_HANDLER with a channel id outside the cache, the lookup's 0xFF among them, faults after its frame, whose
effects stay; the cache is unchanged and no response is returned (43_interrupt R170; 20_memory R66; 60 R261,
R262). That S.busy stays isr in the faulted state is the model's (log 7, DEDUCED). -/
def Obligations.IsrOutsideTheCacheFaults : Prop :=
  ∀ (s : State) (sh : Shadow), s.Ready sh →
    let n := sampleWidth sh.fmtCode
    let bytes := s.answers 1 n
    let w := assembleBytes bytes
    s.Quiet (n + 2) → s.params.cacheSize ≤ (s.decodeChannel sh.fmtCode w sh.imgMux).toNat →
    exec .isrHandler s = .next { s with
      status := some (s.answer 0)
      sample := some w
      payload := bytes
      cs := .driven .high
      seqStep := n + 3
      busy := .isr
      fault := some ⟨.cacheIndexOutOfRange, 0x0300000000#40⟩
      bus := s.bus ++ s.frameAt 0 (s.params.cmdByte .read s.params.addr.adcdata) (List.replicate n 0#8)
      irqPlan := s.irqPlan.drop (n + 2)
      peer := s.peer.drop (n + 1)
      drawn := s.drawn + (n + 1) }

/-! ### Setters -/

/-- SET_DATA_FORMAT with a recognized code: code and fmt_bits, one CONFIG3 write of the whole image, the resolution of
the format from the fixed baseline (44_setters R181, R183). -/
def Obligations.SetRecognizedFormat : Prop :=
  ∀ (f : BitVec 8) (s : State) (sh : Shadow), s.Ready sh → s.Quiet 3 → f.toNat ≤ 3 →
    let img := setView2 sh.imgCfg3 s.params.layout.dataFormat (f.setWidth 2)
    exec (.setDataFormat f) s = .next { s with
      shadow := some { sh with imgCfg3 := img, fmtCode := f }
      resolution := if s.params.signConsumes (f.setWidth 2) then s.resolutionMax - 1#8 else s.resolutionMax
      status := some (s.answer 0)
      cs := .driven .high
      seqStep := 0
      bus := s.bus ++ s.frameAt 0 (s.params.cmdByte .write s.params.addr.config3) [img]
      responses := s.responses ++ [{ status := some (s.answer 0) }]
      irqPlan := s.irqPlan.drop 3
      peer := s.peer.drop 2
      drawn := s.drawn + 2 }

/-- SET_DATA_FORMAT with an unrecognized code: the code is kept, the two wire bits are a draw (whatever it is), and
the resolution is -1 (44_setters R181 to R183). -/
def Obligations.SetUnrecognizedFormat : Prop :=
  ∀ (f : BitVec 8) (s : State) (sh : Shadow), s.Ready sh → s.Quiet 3 → 4 ≤ f.toNat →
    let img := setView2 sh.imgCfg3 s.params.layout.dataFormat s.fmtAnswer
    exec (.setDataFormat f) s = .next { s with
      shadow := some { sh with imgCfg3 := img, fmtCode := f }
      resolution := BitVec.ofInt 8 (-1)
      status := some (s.answer 0)
      cs := .driven .high
      seqStep := 0
      bus := s.bus ++ s.frameAt 0 (s.params.cmdByte .write s.params.addr.config3) [img]
      responses := s.responses ++ [{ status := some (s.answer 0) }]
      irqPlan := s.irqPlan.drop 3
      peer := s.peer.drop 2
      drawn := s.drawn + 2
      fmtDraws := s.fmtDraws.tail
      fmtDrawn := s.fmtDrawn + 1 }

/-- The effective resolution of a format code: -1 for an unrecognized one, else one below resolution_max where the
format consumes a sign bit (always for `sgn_data`), else resolution_max (44_setters R183). -/
def Obligations.ResolutionByFormat : Prop :=
  ∀ (s : State) (f : Byte), s.resolutionMax = s.v.resolutionMax →
    (4 ≤ f.toNat → (s.newResolution f).toInt = -1) ∧
    (f = 0#8 → (s.newResolution f).toInt = s.resolutionMax.toInt - 1) ∧
    (f.toNat ≤ 3 → (s.newResolution f).toInt =
      if s.params.signConsumes (f.setWidth 2) then s.resolutionMax.toInt - 1 else s.resolutionMax.toInt)

/-- SET_CONV_MODE: the conv_mode view and one CONFIG3 write of the whole image; the format code, the flags and every
other field stay (44_setters R180, R185). -/
def Obligations.SetConvModeWritesThrough : Prop :=
  ∀ (m : BitVec 2) (s : State) (sh : Shadow), s.Ready sh → s.Quiet 3 →
    let img := setView2 sh.imgCfg3 s.params.layout.convMode m
    exec (.setConvMode m) s = .next { s with
      shadow := some { sh with imgCfg3 := img }
      status := some (s.answer 0)
      cs := .driven .high
      seqStep := 0
      bus := s.bus ++ s.frameAt 0 (s.params.cmdByte .write s.params.addr.config3) [img]
      responses := s.responses ++ [{ status := some (s.answer 0) }]
      irqPlan := s.irqPlan.drop 3
      peer := s.peer.drop 2
      drawn := s.drawn + 2 }

/-- SET_ADC_MODE: the adc_mode view and one CONFIG0 write of the whole image (44_setters R180, R187). -/
def Obligations.SetAdcModeWritesThrough : Prop :=
  ∀ (m : BitVec 2) (s : State) (sh : Shadow), s.Ready sh → s.Quiet 3 →
    let img := setView2 sh.imgCfg0 s.params.layout.adcMode m
    exec (.setAdcMode m) s = .next { s with
      shadow := some { sh with imgCfg0 := img }
      status := some (s.answer 0)
      cs := .driven .high
      seqStep := 0
      bus := s.bus ++ s.frameAt 0 (s.params.cmdByte .write s.params.addr.config0) [img]
      responses := s.responses ++ [{ status := some (s.answer 0) }]
      irqPlan := s.irqPlan.drop 3
      peer := s.peer.drop 2
      drawn := s.drawn + 2 }

/-- SET_CLOCK_SELECTION: the clk_sel view and one CONFIG0 write of the whole image (44_setters R180, R189). -/
def Obligations.SetClockWritesThrough : Prop :=
  ∀ (c : BitVec 2) (s : State) (sh : Shadow), s.Ready sh → s.Quiet 3 →
    let img := setView2 sh.imgCfg0 s.params.layout.clkSel c
    exec (.setClockSelection c) s = .next { s with
      shadow := some { sh with imgCfg0 := img }
      status := some (s.answer 0)
      cs := .driven .high
      seqStep := 0
      bus := s.bus ++ s.frameAt 0 (s.params.cmdByte .write s.params.addr.config0) [img]
      responses := s.responses ++ [{ status := some (s.answer 0) }]
      irqPlan := s.irqPlan.drop 3
      peer := s.peer.drop 2
      drawn := s.drawn + 2 }

/-- LOCK writes its key byte to the lock register, and UNLOCK the fixed default key (44_setters R197, R198). -/
def Obligations.LockAndUnlockWriteTheKey : Prop :=
  ∀ (k : BitVec 8) (s : State) (sh : Shadow), s.Ready sh → s.Quiet 3 →
    let after := fun key : Byte => { s with
      shadow := some { sh with imgLock := key }
      status := some (s.answer 0)
      cs := .driven .high
      seqStep := 0
      bus := s.bus ++ s.frameAt 0 (s.params.cmdByte .write s.params.addr.lock) [key]
      responses := s.responses ++ [{ status := some (s.answer 0) }]
      irqPlan := s.irqPlan.drop 3
      peer := s.peer.drop 2
      drawn := s.drawn + 2 }
    exec (.lock k) s = .next (after k) ∧ exec .unlock s = .next (after s.params.unlockKey)

/-- SET_SCAN_CHANNEL and UNSET_SCAN_CHANNEL with a selector in the table: the mask bit of its index is written and the
whole SCAN image is sent, most significant byte first (44_setters R191 to R193; 41 R124, R125). -/
def Obligations.ScanChannelWritesItsBit : Prop :=
  ∀ (sel : BitVec 8) (s : State) (sh : Shadow), s.Ready sh → s.Quiet (sh.imgScan.length + 2) →
    s.lookup sel ≠ 0xFF#8 →
    let after := fun x : Bool =>
      let img := setImageBit sh.imgScan (s.params.layout.scanLo + (s.lookup sel).toNat) x
      { s with
        shadow := some { sh with imgScan := img }
        status := some (s.answer 0)
        cs := .driven .high
        seqStep := 0
        bus := s.bus ++ s.frameAt 0 (s.params.cmdByte .write s.params.addr.scan) img
        responses := s.responses ++ [{ status := some (s.answer 0) }]
        irqPlan := s.irqPlan.drop (sh.imgScan.length + 2)
        peer := s.peer.drop (sh.imgScan.length + 1)
        drawn := s.drawn + (sh.imgScan.length + 1) }
    exec (.setScanChannel sel) s = .next (after true) ∧ exec (.unsetScanChannel sel) s = .next (after false)

/-- A scan setter whose selector is not in the table faults with ChannelNotFound before any frame and before any
other state change; S.fault holds the command's own word (44_setters R191, R192; 60 R261, R262). That S.busy stays fg
of the command in the faulted state is the model's (log 7, DEDUCED). -/
def Obligations.UnknownScanChannelFaults : Prop :=
  ∀ (sel : BitVec 8) (s : State) (sh : Shadow), s.Ready sh → s.lookup sel = 0xFF#8 →
    exec (.setScanChannel sel) s = .next { s with
      busy := .fg (.setScanChannel sel), seqStep := 0
      fault := some ⟨.channelNotFound, 0x14#8 ++ (0#24 ++ sel)⟩ } ∧
    exec (.unsetScanChannel sel) s = .next { s with
      busy := .fg (.unsetScanChannel sel), seqStep := 0
      fault := some ⟨.channelNotFound, 0x15#8 ++ (0#24 ++ sel)⟩ }

/-- Writing a 2-bit or 1-bit view of an image changes its bits only: they read as written, and the image's other bits
keep their values (10_state R27). -/
def Obligations.ViewWriteKeepsOtherBits : Prop :=
  (∀ (img : Byte) (lo : Nat) (x : BitVec 2), lo + 2 ≤ 8 →
    view2 (setView2 img lo x) lo = x ∧
    ∀ k < 8, (k < lo ∨ lo + 2 ≤ k) → (setView2 img lo x).getLsbD k = img.getLsbD k) ∧
  (∀ (img : Byte) (n : Nat) (x : Bool), n < 8 →
    viewBit (setViewBit img n x) n = x ∧ ∀ k < 8, k ≠ n → (setViewBit img n x).getLsbD k = img.getLsbD k)

/-- Writing bit `i` of the scan mask: the bit reads as written, every other bit of the image keeps its value, and the
image keeps its width (10_state R27; 44_setters R193). -/
def Obligations.ScanMaskWriteKeepsOtherBits : Prop :=
  ∀ (sh : Shadow) (l : Layout) (i : Nat) (x : Bool), l.scanLo + i < 8 * sh.imgScan.length →
    (sh.setScanMask l i x).scanMask l i = x ∧
    (∀ k : Nat, k ≠ l.scanLo + i → imageBit (sh.setScanMask l i x).imgScan k = imageBit sh.imgScan k) ∧
    (sh.setScanMask l i x).imgScan.length = sh.imgScan.length

/-- SET_REFERENCE 0: the internal reference of 2400 mV, the reference-selected bit, one CONFIG0 write
(44_setters R194, R195). -/
def Obligations.SetReferenceZeroSelectsInternal : Prop :=
  ∀ (s : State) (sh : Shadow), s.Ready sh → s.Quiet 3 →
    let img := setViewBit sh.imgCfg0 s.params.layout.vrefSel true
    exec (.setReference 0#32) s = .next { s with
      reference := 2400#32
      shadow := some { sh with imgCfg0 := img }
      status := some (s.answer 0)
      cs := .driven .high
      seqStep := 0
      bus := s.bus ++ s.frameAt 0 (s.params.cmdByte .write s.params.addr.config0) [img]
      responses := s.responses ++ [{ status := some (s.answer 0) }]
      irqPlan := s.irqPlan.drop 3
      peer := s.peer.drop 2
      drawn := s.drawn + 2 }

/-- SET_REFERENCE with a nonzero value: purely host-side, before or after BEGIN, no frame, and the response carries
the last status if there is one (44_setters R194). -/
def Obligations.SetReferenceNonzeroIsHostSide : Prop :=
  ∀ (r : BitVec 32) (s : State), s.Idle → r ≠ 0#32 →
    exec (.setReference r) s = .next { s with
      reference := r, seqStep := 0, responses := s.responses ++ [{ status := s.status }] }

/-! ### Conversion triggers -/

/-- ANALOG_READ: the multiplexer write, CONV_START, the read with no poll between them, the cache store; the response
holds the value only (45_conversion R210 to R212). -/
def Obligations.AnalogReadConvertsAndStores : Prop :=
  ∀ (sel : BitVec 8) (s : State) (sh : Shadow), s.Ready sh →
    let n := sampleWidth sh.fmtCode
    let bytes := s.answers 4 n
    let w := assembleBytes bytes
    let ch := s.decodeChannel sh.fmtCode w sel
    s.Quiet (n + 9) → ch.toNat < s.params.cacheSize →
    exec (.analogRead sel) s = .next { s with
      shadow := some { sh with imgMux := sel }
      status := some (s.answer 3)
      sample := some w
      payload := bytes
      cache := s.cache.set ch.toNat (some (decodeValue sh.fmtCode w))
      cs := .driven .high
      seqStep := 0
      bus := s.bus ++ (s.frameAt 0 (s.params.cmdByte .write s.params.addr.mux) [sel] ++
        (s.frameAt 2 s.params.fastConvStart [] ++
          s.frameAt 3 (s.params.cmdByte .read s.params.addr.adcdata) (List.replicate n 0#8)))
      responses := s.responses ++ [{ value := some (decodeValue sh.fmtCode w) }]
      irqPlan := s.irqPlan.drop (n + 9)
      peer := s.peer.drop (n + 4)
      drawn := s.drawn + (n + 4) }

/-- ANALOG_READ_DIFF: the same sequence with the packed pair, positive pin in bits 7:4, as the multiplexer byte; no
host flag changes (45_conversion R213, R214). -/
def Obligations.AnalogReadDiffConvertsThePair : Prop :=
  ∀ (pos neg : BitVec 4) (s : State) (sh : Shadow), s.Ready sh →
    let sel : Byte := BitVec.ofNat 8 (16 * pos.toNat + neg.toNat)
    let n := sampleWidth sh.fmtCode
    let bytes := s.answers 4 n
    let w := assembleBytes bytes
    let ch := s.decodeChannel sh.fmtCode w sel
    s.Quiet (n + 9) → ch.toNat < s.params.cacheSize →
    exec (.analogReadDiff pos neg) s = .next { s with
      shadow := some { sh with imgMux := sel }
      status := some (s.answer 3)
      sample := some w
      payload := bytes
      cache := s.cache.set ch.toNat (some (decodeValue sh.fmtCode w))
      cs := .driven .high
      seqStep := 0
      bus := s.bus ++ (s.frameAt 0 (s.params.cmdByte .write s.params.addr.mux) [sel] ++
        (s.frameAt 2 s.params.fastConvStart [] ++
          s.frameAt 3 (s.params.cmdByte .read s.params.addr.adcdata) (List.replicate n 0#8)))
      responses := s.responses ++ [{ value := some (decodeValue sh.fmtCode w) }]
      irqPlan := s.irqPlan.drop (n + 9)
      peer := s.peer.drop (n + 4)
      drawn := s.drawn + (n + 4) }

/-- A conversion, ANALOG_READ or ANALOG_READ_DIFF, whose channel id is outside the cache faults after all three frames:
the multiplexer image stays changed, the cache is unchanged and no response is returned; S.fault holds the command's
own word (45_conversion R210, R214; 20_memory R66; 60 R261, R262). That S.busy stays fg of the command in the faulted
state is the model's (log 7, DEDUCED). -/
def Obligations.AnalogReadOutsideTheCacheFaults : Prop :=
  (∀ (sel : BitVec 8) (s : State) (sh : Shadow), s.Ready sh →
      let n := sampleWidth sh.fmtCode
      let bytes := s.answers 4 n
      let w := assembleBytes bytes
      s.Quiet (n + 9) → s.params.cacheSize ≤ (s.decodeChannel sh.fmtCode w sel).toNat →
      exec (.analogRead sel) s = .next { s with
        shadow := some { sh with imgMux := sel }
        status := some (s.answer 3)
        sample := some w
        payload := bytes
        cs := .driven .high
        seqStep := n + 10
        busy := .fg (.analogRead sel)
        fault := some ⟨.cacheIndexOutOfRange, 0x20#8 ++ (0#24 ++ sel)⟩
        bus := s.bus ++ (s.frameAt 0 (s.params.cmdByte .write s.params.addr.mux) [sel] ++
          (s.frameAt 2 s.params.fastConvStart [] ++
            s.frameAt 3 (s.params.cmdByte .read s.params.addr.adcdata) (List.replicate n 0#8)))
        irqPlan := s.irqPlan.drop (n + 9)
        peer := s.peer.drop (n + 4)
        drawn := s.drawn + (n + 4) }) ∧
  ∀ (pos neg : BitVec 4) (s : State) (sh : Shadow), s.Ready sh →
    let sel : Byte := BitVec.ofNat 8 (16 * pos.toNat + neg.toNat)
    let n := sampleWidth sh.fmtCode
    let bytes := s.answers 4 n
    let w := assembleBytes bytes
    s.Quiet (n + 9) → s.params.cacheSize ≤ (s.decodeChannel sh.fmtCode w sel).toNat →
    exec (.analogReadDiff pos neg) s = .next { s with
      shadow := some { sh with imgMux := sel }
      status := some (s.answer 3)
      sample := some w
      payload := bytes
      cs := .driven .high
      seqStep := n + 10
      busy := .fg (.analogReadDiff pos neg)
      fault := some ⟨.cacheIndexOutOfRange, 0x21#8 ++ (0#24 ++ (pos ++ neg))⟩
      bus := s.bus ++ (s.frameAt 0 (s.params.cmdByte .write s.params.addr.mux) [sel] ++
        (s.frameAt 2 s.params.fastConvStart [] ++
          s.frameAt 3 (s.params.cmdByte .read s.params.addr.adcdata) (List.replicate n 0#8)))
      irqPlan := s.irqPlan.drop (n + 9)
      peer := s.peer.drop (n + 4)
      drawn := s.drawn + (n + 4) }

/-! ### BEGIN -/

/-- BEGIN in polled mode with no reference held: the frames RESET, CONFIG0 (clock), CONFIG3 (format), CONFIG0
(internal reference), STANDBY, over the power-on defaults; `sgn_data`, one bit below resolution_max, 2400 mV; the
result is true whatever the peer answers (40_begin R100 to R106). -/
def Obligations.BeginPolledSelectsInternalReference : Prop :=
  ∀ s : State, s.Idle → s.hasIrq = false → s.reference = 0#32 → s.Quiet 18 →
    let p := s.params
    let clk := setView2 p.defaults.cfg0 p.layout.clkSel p.clkInternal
    let ref := setViewBit clk p.layout.vrefSel true
    let fmt := setView2 p.defaults.cfg3 p.layout.dataFormat 0#2
    exec .begin s = .next { s with
      shadow := some {
        imgCfg0 := ref, imgCfg3 := fmt, imgMux := p.defaults.mux, imgScan := p.defaults.scan
        imgLock := p.defaults.lock, fmtCode := 0#8 }
      begun := true
      resolution := s.resolutionMax - 1#8
      reference := 2400#32
      status := some (s.answer 7)
      cs := .driven .high
      session := false
      seqStep := 0
      bus := s.bus ++ (.cs .high :: (s.frameAt 0 p.fastReset [] ++
        (s.frameAt 1 (p.cmdByte .write p.addr.config0) [clk] ++
          (s.frameAt 3 (p.cmdByte .write p.addr.config3) [fmt] ++
            (s.frameAt 5 (p.cmdByte .write p.addr.config0) [ref] ++ s.frameAt 7 p.fastStandby [])))))
      responses := s.responses ++ [{ ok := some true, status := some (s.answer 7) }]
      irqPlan := s.irqPlan.drop 18
      peer := s.peer.drop 8
      drawn := s.drawn + 8 }

/-- BEGIN in polled mode with a nonzero reference held: no reference frame, and the reference and its selection bit
stay (40_begin R100, R105, R106). -/
def Obligations.BeginPolledKeepsHeldReference : Prop :=
  ∀ s : State, s.Idle → s.hasIrq = false → s.reference ≠ 0#32 → s.Quiet 14 →
    let p := s.params
    let clk := setView2 p.defaults.cfg0 p.layout.clkSel p.clkInternal
    let fmt := setView2 p.defaults.cfg3 p.layout.dataFormat 0#2
    exec .begin s = .next { s with
      shadow := some {
        imgCfg0 := clk, imgCfg3 := fmt, imgMux := p.defaults.mux, imgScan := p.defaults.scan
        imgLock := p.defaults.lock, fmtCode := 0#8 }
      begun := true
      resolution := s.resolutionMax - 1#8
      status := some (s.answer 5)
      cs := .driven .high
      session := false
      seqStep := 0
      bus := s.bus ++ (.cs .high :: (s.frameAt 0 p.fastReset [] ++
        (s.frameAt 1 (p.cmdByte .write p.addr.config0) [clk] ++
          (s.frameAt 3 (p.cmdByte .write p.addr.config3) [fmt] ++ s.frameAt 5 p.fastStandby []))))
      responses := s.responses ++ [{ ok := some true, status := some (s.answer 5) }]
      irqPlan := s.irqPlan.drop 14
      peer := s.peer.drop 6
      drawn := s.drawn + 6 }

/-- BEGIN in interrupt mode: the frames RESET, CONFIG0 (clock), CONFIG3 (format), CONFIG3 (continuous conversion),
CONV_START; `id_sgnext_data`; the reference stays (40_begin R100, R104, R105). -/
def Obligations.BeginInterruptStartsConversion : Prop :=
  ∀ s : State, s.Idle → s.hasIrq = true → s.Quiet 18 →
    let p := s.params
    let clk := setView2 p.defaults.cfg0 p.layout.clkSel p.clkInternal
    let fmt := setView2 p.defaults.cfg3 p.layout.dataFormat 3#2
    let cont := setView2 fmt p.layout.convMode p.convContinuous
    exec .begin s = .next { s with
      shadow := some {
        imgCfg0 := clk, imgCfg3 := cont, imgMux := p.defaults.mux, imgScan := p.defaults.scan
        imgLock := p.defaults.lock, fmtCode := 3#8 }
      begun := true
      resolution := if p.signConsuming.idSgnextData then s.resolutionMax - 1#8 else s.resolutionMax
      status := some (s.answer 7)
      cs := .driven .high
      session := false
      seqStep := 0
      bus := s.bus ++ (.cs .high :: (s.frameAt 0 p.fastReset [] ++
        (s.frameAt 1 (p.cmdByte .write p.addr.config0) [clk] ++
          (s.frameAt 3 (p.cmdByte .write p.addr.config3) [fmt] ++
            (s.frameAt 5 (p.cmdByte .write p.addr.config3) [cont] ++ s.frameAt 7 p.fastConvStart [])))))
      responses := s.responses ++ [{ ok := some true, status := some (s.answer 7) }]
      irqPlan := s.irqPlan.drop 18
      peer := s.peer.drop 8
      drawn := s.drawn + 8 }

/-! ### Modes, resolution and queries -/

/-- SINGLE_ENDED_MODE and DIFFERENTIAL_MODE write the differential flag, nothing else of the block, and return the
empty record; their words (46_modes_queries R230, R231). -/
def Obligations.ModeTogglesWriteTheFlag : Prop :=
  commandWord .singleEndedMode = some 0x3000000000#40 ∧ commandWord .differentialMode = some 0x3100000000#40 ∧
  ∀ s : State, s.Idle →
    exec .singleEndedMode s = .next { s with
      differential := false, seqStep := 0, responses := s.responses ++ [{ }] } ∧
    exec .differentialMode s = .next { s with
      differential := true, seqStep := 0, responses := s.responses ++ [{ }] }

/-- START_CONTINUOUS_DIFFERENTIAL and START_SINGLE_DIFFERENTIAL write both host-side flags and return the empty record,
with no register write (46_modes_queries R232, R233). -/
def Obligations.StartTogglesWriteBothFlags : Prop :=
  ∀ s : State, s.Idle →
    exec .startContinuousDifferential s = .next { s with
      continuous := true, differential := true, seqStep := 0, responses := s.responses ++ [{ }] } ∧
    exec .startSingleDifferential s = .next { s with
      continuous := false, differential := true, seqStep := 0, responses := s.responses ++ [{ }] }

/-- SET_RESOLUTION takes effect exactly when the signed request is below resolution_max (46_modes_queries R234). -/
def Obligations.SetResolutionBelowTheMaximum : Prop :=
  ∀ (b : BitVec 8) (s : State), s.Idle →
    exec (.setResolution b) s = .next { s with
      resolution := if b.toInt < s.resolutionMax.toInt then b else s.resolution
      seqStep := 0
      responses := s.responses ++ [{ }] }

/-- IS_COMPLETE returns the raw data-ready bit of the status byte, and faults with UnwrittenStatus while the status
byte holds no value; S.fault then holds the code and the command's word, and every other field but S.busy and the
sequencer step stays (46_modes_queries R235; 60_exceptions R261 to R263). That S.busy stays fg(IS_COMPLETE) in the
faulted state is the model's (log 7, DEDUCED). -/
def Obligations.IsCompleteReturnsTheRawBit : Prop :=
  ∀ s : State, s.Idle →
    (∀ st : Byte, s.status = some st → exec .isComplete s = .next { s with
      seqStep := 0
      responses := s.responses ++ [{ flag := some (st.getLsbD s.params.drBit.val) }] }) ∧
    (s.status = none → exec .isComplete s = .next { s with
      busy := .fg .isComplete, seqStep := 0, fault := some ⟨.unwrittenStatus, 0x4000000000#40⟩ })

/-- GET_MAX_VALUE returns 2^resolution for a resolution of 0 to 31 (a run reaches at most 24), and faults with
NegativeResolution for a negative one; S.fault then holds the code and the command's word, and every other field but
S.busy and the sequencer step stays (46_modes_queries R236; 60_exceptions R261 to R263). That S.busy stays
fg(GET_MAX_VALUE) in the faulted state is the model's (log 7, DEDUCED). A resolution of 32 to 127 is left out: no run
reaches it (StepKeepsTheInvariant), and its result is a free value (log 17). -/
def Obligations.GetMaxValueIsAPowerOfTwo : Prop :=
  ∀ s : State, s.Idle →
    (∀ n : Nat, n ≤ 31 → s.resolution.toInt = n → ∃ x : Word32, x.toNat = 2 ^ n ∧
      exec .getMaxValue s = .next { s with seqStep := 0, responses := s.responses ++ [{ max := some x }] }) ∧
    (s.resolution.toInt < 0 → exec .getMaxValue s = .next { s with
      busy := .fg .getMaxValue, seqStep := 0, fault := some ⟨.negativeResolution, 0x4100000000#40⟩ })

/-- IS_DIFFERENTIAL, IS_CONTINUOUS and GET_REFERENCE return what is held and change nothing else of the block; their
words, and the values held at instantiation (46_modes_queries R238 to R240). -/
def Obligations.HostQueriesReturnWhatIsHeld : Prop :=
  commandWord .isDifferential = some 0x4200000000#40 ∧ commandWord .isContinuous = some 0x4300000000#40 ∧
  commandWord .getReference = some 0x4400000000#40 ∧
  (∀ s : State, s.Idle →
    exec .isDifferential s = .next { s with
      seqStep := 0, responses := s.responses ++ [{ flag := some s.differential }] } ∧
    exec .isContinuous s = .next { s with
      seqStep := 0, responses := s.responses ++ [{ flag := some s.continuous }] } ∧
    exec .getReference s = .next { s with seqStep := 0, responses := s.responses ++ [{ ref := some s.reference }] }) ∧
  ∀ (p : Params) (v : Variant) (irq : Bool),
    (State.instantiate p v irq).differential = false ∧ (State.instantiate p v irq).continuous = false ∧
    (State.instantiate p v irq).reference = 0#32

/-- READ_CACHE returns the last value stored for a channel id; it faults with UnwrittenCache for an entry never
written and with CacheIndexOutOfRange for an id outside the cache; S.fault then holds the code and the command's word,
and every other field but S.busy and the sequencer step stays (46_modes_queries R242; 20_memory R67; 60_exceptions
R261 to R263). That S.busy stays fg(READ_CACHE) in the faulted state is the model's (log 7, DEDUCED). -/
def Obligations.ReadCacheReturnsTheLastStored : Prop :=
  ∀ (i : BitVec 8) (s : State), s.Idle →
    (∀ x : Word32, i.toNat < s.params.cacheSize → s.cache[i.toNat]? = some (some x) →
      exec (.readCache i) s = .next { s with seqStep := 0, responses := s.responses ++ [{ value := some x }] }) ∧
    (i.toNat < s.params.cacheSize → s.cache[i.toNat]? = some none → exec (.readCache i) s = .next { s with
      busy := .fg (.readCache i), seqStep := 0, fault := some ⟨.unwrittenCache, 0x45#8 ++ (0#24 ++ i)⟩ }) ∧
    (s.params.cacheSize ≤ i.toNat → exec (.readCache i) s = .next { s with
      busy := .fg (.readCache i), seqStep := 0, fault := some ⟨.cacheIndexOutOfRange, 0x45#8 ++ (0#24 ++ i)⟩ })

/-! ### Frames -/

/-- The three bus transactions by themselves: chip-select asserted, the command byte with the captured status, the
payload, chip-select released; a read returns its bytes in the order received (41_bus_frames R120 to R126). That a
frame can be presented by itself is the model's (log 14). -/
def Obligations.FramesRunAsOneTransaction : Prop :=
  ∀ s : State, s.Idle →
    (∀ a n : Nat, s.Quiet (n + 2) → exec (.frameRreg a n) s = .next { s with
      status := some (s.answer 0), payload := s.answers 1 n, cs := .driven .high, seqStep := 0
      bus := s.bus ++ s.frameAt 0 (s.params.cmdByte .read a) (List.replicate n 0#8)
      irqPlan := s.irqPlan.drop (n + 2), peer := s.peer.drop (n + 1), drawn := s.drawn + (n + 1) }) ∧
    (∀ (a : Nat) (x : List Byte), s.Quiet (x.length + 2) → exec (.frameWreg a x) s = .next { s with
      status := some (s.answer 0), cs := .driven .high, seqStep := 0
      bus := s.bus ++ s.frameAt 0 (s.params.cmdByte .write a) x
      irqPlan := s.irqPlan.drop (x.length + 2), peer := s.peer.drop (x.length + 1)
      drawn := s.drawn + (x.length + 1) }) ∧
    (∀ f : FastCmd, s.Quiet 2 → exec (.frameFast f) s = .next { s with
      status := some (s.answer 0), cs := .driven .high, seqStep := 0
      bus := s.bus ++ [.cs .low, .xfer (s.params.fastByte f) (s.answer 0), .cs .high]
      irqPlan := s.irqPlan.drop 2, peer := s.peer.drop 1, drawn := s.drawn + 1 })

/-! ### Faults, interrupts and whole-machine rules -/

/-- Before the first BEGIN every operation that needs the shadow or the bus faults with NotBegun: no frame, no
response, S.fault holds the code and the operation's word (10_state R31; 60_exceptions R261 to R263). That S.busy stays
set to the operation in the faulted state is the model's (log 7, DEDUCED). -/
def Obligations.NotBegunBeforeBegin : Prop :=
  ∀ (i : Instr) (s : State) (w : CmdWord), s.Idle → s.begun = false → i.needsBegin = true → commandWord i = some w →
    exec i s = .next { s with busy := i.running, seqStep := 0, fault := some ⟨.notBegun, w⟩ }

/-- ISR_HANDLER presented while an operation is running raises ConcurrentEntry with its own word and changes nothing
else (60_exceptions R263 step 2, R268). -/
def Obligations.IsrWhileBusyFaults : Prop :=
  ∀ s : State, s.fault = none → s.busy ≠ .none →
    exec .isrHandler s = .next { s with fault := some ⟨.concurrentEntry, 0x0300000000#40⟩ }

/-- ISR_HANDLER presented at a boundary between two bus events of any operation stops it there with ConcurrentEntry:
the bus events before the boundary are those of the undisturbed run, and no later one happens (60_exceptions R262,
R268). `k` boundaries pass first; the undisturbed run `t` has more than `k + 1` events. That the environment's
choices are a list, and that no boundary lies before an operation's first event, are the model's (log 3, DESIGN CHOICE
and DEDUCED), and so is that a frame by itself is stopped in the same way (log 14, DESIGN CHOICE). -/
def Obligations.IsrAtABoundaryStopsTheOperation : Prop :=
  ∀ (i : Instr) (s t : State) (k : Nat) (later : List Bool), s.Idle →
    exec i { s with irqPlan := [] } = .next t → s.irqPlan = List.replicate k false ++ true :: later →
    s.bus.length + (k + 1) < t.bus.length →
    ∃ u : State, exec i s = .next u ∧ u.fault = some ⟨.concurrentEntry, 0x0300000000#40⟩ ∧
      u.bus = t.bus.take (s.bus.length + (k + 1)) ∧ u.responses = s.responses

/-- What an instantiation fixes (the variant, its resolution_max of 16 or 24 and its channels_max of 2, 4 or 8 by the
table of R6, the interrupt capability) is never written afterwards (10_state R22). -/
def Obligations.InstanceFieldsNeverChange : Prop :=
  (∀ (p : Params) (v : Variant) (irq : Bool),
    let s := State.instantiate p v irq
    s.v = v ∧ s.v.index ≤ 5 ∧ s.hasIrq = irq ∧
    s.resolutionMax.toInt = [16, 16, 16, 24, 24, 24].getD v.index 0 ∧
    s.channelsMax = [2, 4, 8, 2, 4, 8].getD v.index 0) ∧
  ∀ s t : State, step s = .next t → s.SameInstance t

/-- Every step keeps the state invariant: the instantiation fields, the shadow held exactly after a BEGIN with its
widths and with fmt_bits equal to a recognized format's code, the cache's length, the resolution at most
resolution_max, and between operations nothing running, no session and chip-select not asserted (10_state R22, R26,
R28, R31, R35, R38, R39, R41). -/
def Obligations.StepKeepsTheInvariant : Prop :=
  ∀ s t : State, s.Inv → step s = .next t → t.Inv

/-- The invariant holds right after instantiation with admitted parameters, and at reset. That reset takes the test
parameters, MCP3562 and polled mode is the model's choice (log 8, log 9). -/
def Obligations.InvariantAtInstantiation : Prop :=
  (∀ (p : Params) (v : Variant) (irq : Bool), p.wf v = true → (State.instantiate p v irq).Inv) ∧ State.reset.Inv

/-- Only ISR_HANDLER and the conversion triggers write the result cache (10_state R35; 42_read_decode R156). -/
def Obligations.OnlyReadersWriteTheCache : Prop :=
  ∀ (i : Instr) (s t : State), exec i s = .next t →
    i ≠ .isrHandler → (∀ sel, i ≠ .analogRead sel) → (∀ pos neg, i ≠ .analogReadDiff pos neg) → t.cache = s.cache

/-- Only the mode toggles write the host-side flags: SET_CONV_MODE and BEGIN do not (10_state R36, R37). -/
def Obligations.OnlyTogglesWriteTheFlags : Prop :=
  ∀ (i : Instr) (s t : State), exec i s = .next t → i ≠ .singleEndedMode → i ≠ .differentialMode →
    i ≠ .startContinuousDifferential → i ≠ .startSingleDifferential →
    t.differential = s.differential ∧ t.continuous = s.continuous

/-- The mode toggles, SET_RESOLUTION and the queries have no bus interaction, faults included: no bus event, no draw,
no boundary, and the shadow, the status byte, the sample word, the cache and the pins stay (46_modes_queries). -/
def Obligations.HostSideOperationsSendNoFrame : Prop :=
  ∀ (i : Instr) (s t : State), i.isHostSide = true → exec i s = .next t →
    t.bus = s.bus ∧ t.peer = s.peer ∧ t.drawn = s.drawn ∧ t.irqPlan = s.irqPlan ∧ t.shadow = s.shadow ∧
    t.status = s.status ∧ t.sample = s.sample ∧ t.payload = s.payload ∧ t.cache = s.cache ∧ t.cs = s.cs ∧
    t.session = s.session ∧ t.begun = s.begun ∧ t.reference = s.reference

/-- A well-formed instruction, a command or a frame by itself, only adds bus events; each frame in them starts with one
of the command bytes of the uses table, and the status byte ends as the one captured in the last of them, or as it was
(30_encoding R87, R89; 10_state R32). The decoder gives only well-formed instructions (DecodedIsWellFormed). -/
def Obligations.FramesUseTheListedCommands : Prop :=
  ∀ (i : Instr) (s t : State), i.wf s.params = true → exec i s = .next t →
    ∃ new : List BusEvent, t.bus = s.bus ++ new ∧
      (∀ e ∈ commandExchanges new, e.1 ∈ s.params.usedCommands) ∧
      t.status = ((commandExchanges new).getLast?.map fun e => e.2).or s.status

/-- From a state that meets the invariant, every step only adds bus events, and every whole frame in them has a command
byte of the uses table and the number of payload bytes that follows from it: 3 or 4 for the read of the ADC data
register, the register's width for a write, none for a fast command (20_memory R60, R68; 30_encoding R87 to R89). That
a frame can be presented by itself is the model's (log 14). -/
def Obligations.StepSendsOnlyListedFrames : Prop :=
  ∀ s t : State, s.Inv → step s = .next t →
    ∃ new : List BusEvent, t.bus = s.bus ++ new ∧ ∀ e ∈ wholeFrames new, e.2 ∈ s.params.frameWidths e.1

/-- What the block sends does not depend on what the peer answers: two runs of an instruction that differ only in the
peer's answers drive the same levels and send the same bytes (20_memory R65; 40_begin R105; 41_bus_frames R120 to
R126; 42_read_decode R141; 44_setters R180; 45_conversion R210). The answers are the model's list (log 4). -/
def Obligations.SentBytesIgnoreTheAnswers : Prop :=
  ∀ (i : Instr) (s t u : State) (answers : List Byte) (k : Nat),
    exec i s = .next t → exec i { s with peer := answers, drawn := k } = .next u →
    t.bus.map BusEvent.sent = (u.bus.map BusEvent.sent)
end

