-- ==== Sys2Proof/Laws/State.lean ====
section
/-! SUPPORT. For each named update of the state one lemma per field, and one per function of the state that the
meanings read, each true by unfolding the update once, so that no later proof unfolds a record update. -/

namespace Sys2Proof.Machine

/-! ### `State.raise` changes `fault` and nothing else -/

@[simp] theorem State.raise_params (s : State) (c : FaultCode) (w : CmdWord) : (s.raise c w).params = s.params := rfl
@[simp] theorem State.raise_v (s : State) (c : FaultCode) (w : CmdWord) : (s.raise c w).v = s.v := rfl
@[simp] theorem State.raise_resolutionMax (s : State) (c : FaultCode) (w : CmdWord) : (s.raise c w).resolutionMax = s.resolutionMax := rfl
@[simp] theorem State.raise_channelsMax (s : State) (c : FaultCode) (w : CmdWord) : (s.raise c w).channelsMax = s.channelsMax := rfl
@[simp] theorem State.raise_hasIrq (s : State) (c : FaultCode) (w : CmdWord) : (s.raise c w).hasIrq = s.hasIrq := rfl
@[simp] theorem State.raise_chanValidMask (s : State) (c : FaultCode) (w : CmdWord) : (s.raise c w).chanValidMask = s.chanValidMask := rfl
@[simp] theorem State.raise_resolution (s : State) (c : FaultCode) (w : CmdWord) : (s.raise c w).resolution = s.resolution := rfl
@[simp] theorem State.raise_shadow (s : State) (c : FaultCode) (w : CmdWord) : (s.raise c w).shadow = s.shadow := rfl
@[simp] theorem State.raise_reference (s : State) (c : FaultCode) (w : CmdWord) : (s.raise c w).reference = s.reference := rfl
@[simp] theorem State.raise_status (s : State) (c : FaultCode) (w : CmdWord) : (s.raise c w).status = s.status := rfl
@[simp] theorem State.raise_sample (s : State) (c : FaultCode) (w : CmdWord) : (s.raise c w).sample = s.sample := rfl
@[simp] theorem State.raise_cache (s : State) (c : FaultCode) (w : CmdWord) : (s.raise c w).cache = s.cache := rfl
@[simp] theorem State.raise_differential (s : State) (c : FaultCode) (w : CmdWord) : (s.raise c w).differential = s.differential := rfl
@[simp] theorem State.raise_continuous (s : State) (c : FaultCode) (w : CmdWord) : (s.raise c w).continuous = s.continuous := rfl
@[simp] theorem State.raise_cs (s : State) (c : FaultCode) (w : CmdWord) : (s.raise c w).cs = s.cs := rfl
@[simp] theorem State.raise_session (s : State) (c : FaultCode) (w : CmdWord) : (s.raise c w).session = s.session := rfl
@[simp] theorem State.raise_begun (s : State) (c : FaultCode) (w : CmdWord) : (s.raise c w).begun = s.begun := rfl
@[simp] theorem State.raise_busy (s : State) (c : FaultCode) (w : CmdWord) : (s.raise c w).busy = s.busy := rfl
@[simp] theorem State.raise_fault (s : State) (c : FaultCode) (w : CmdWord) : (s.raise c w).fault = some ⟨c, w⟩ := rfl
@[simp] theorem State.raise_seqStep (s : State) (c : FaultCode) (w : CmdWord) : (s.raise c w).seqStep = s.seqStep := rfl
@[simp] theorem State.raise_payload (s : State) (c : FaultCode) (w : CmdWord) : (s.raise c w).payload = s.payload := rfl
@[simp] theorem State.raise_bus (s : State) (c : FaultCode) (w : CmdWord) : (s.raise c w).bus = s.bus := rfl
@[simp] theorem State.raise_responses (s : State) (c : FaultCode) (w : CmdWord) : (s.raise c w).responses = s.responses := rfl
@[simp] theorem State.raise_port (s : State) (c : FaultCode) (w : CmdWord) : (s.raise c w).port = s.port := rfl
@[simp] theorem State.raise_irqPlan (s : State) (c : FaultCode) (w : CmdWord) : (s.raise c w).irqPlan = s.irqPlan := rfl
@[simp] theorem State.raise_peer (s : State) (c : FaultCode) (w : CmdWord) : (s.raise c w).peer = s.peer := rfl
@[simp] theorem State.raise_drawn (s : State) (c : FaultCode) (w : CmdWord) : (s.raise c w).drawn = s.drawn := rfl
@[simp] theorem State.raise_fmtDraws (s : State) (c : FaultCode) (w : CmdWord) : (s.raise c w).fmtDraws = s.fmtDraws := rfl
@[simp] theorem State.raise_fmtDrawn (s : State) (c : FaultCode) (w : CmdWord) : (s.raise c w).fmtDrawn = s.fmtDrawn := rfl
@[simp] theorem State.raise_answer (s : State) (c : FaultCode) (w : CmdWord) (k : Nat) : (s.raise c w).answer k = s.answer k := rfl
@[simp] theorem State.raise_answers (s : State) (c : FaultCode) (w : CmdWord) (k n : Nat) : (s.raise c w).answers k n = s.answers k n := rfl
@[simp] theorem State.raise_frameAt (s : State) (c : FaultCode) (w : CmdWord) (k : Nat) (cmd : Byte) (out : List Byte) :
    (s.raise c w).frameAt k cmd out = s.frameAt k cmd out := rfl
@[simp] theorem State.raise_fmtAnswer (s : State) (c : FaultCode) (w : CmdWord) : (s.raise c w).fmtAnswer = s.fmtAnswer := rfl
@[simp] theorem State.raise_lookup (s : State) (c : FaultCode) (w : CmdWord) (m : Byte) : (s.raise c w).lookup m = s.lookup m := rfl
@[simp] theorem State.raise_decodeChannel (s : State) (c : FaultCode) (w : CmdWord) (f : Byte) (x : Word32) (m : Byte) :
    (s.raise c w).decodeChannel f x m = s.decodeChannel f x m := rfl
@[simp] theorem State.raise_newResolution (s : State) (c : FaultCode) (w : CmdWord) (f : Byte) :
    (s.raise c w).newResolution f = s.newResolution f := rfl

/-! ### `State.setShadow` changes `shadow` and nothing else -/

@[simp] theorem State.setShadow_params (s : State) (x : Shadow) : (s.setShadow x).params = s.params := rfl
@[simp] theorem State.setShadow_v (s : State) (x : Shadow) : (s.setShadow x).v = s.v := rfl
@[simp] theorem State.setShadow_resolutionMax (s : State) (x : Shadow) : (s.setShadow x).resolutionMax = s.resolutionMax := rfl
@[simp] theorem State.setShadow_channelsMax (s : State) (x : Shadow) : (s.setShadow x).channelsMax = s.channelsMax := rfl
@[simp] theorem State.setShadow_hasIrq (s : State) (x : Shadow) : (s.setShadow x).hasIrq = s.hasIrq := rfl
@[simp] theorem State.setShadow_chanValidMask (s : State) (x : Shadow) : (s.setShadow x).chanValidMask = s.chanValidMask := rfl
@[simp] theorem State.setShadow_resolution (s : State) (x : Shadow) : (s.setShadow x).resolution = s.resolution := rfl
@[simp] theorem State.setShadow_shadow (s : State) (x : Shadow) : (s.setShadow x).shadow = some x := rfl
@[simp] theorem State.setShadow_reference (s : State) (x : Shadow) : (s.setShadow x).reference = s.reference := rfl
@[simp] theorem State.setShadow_status (s : State) (x : Shadow) : (s.setShadow x).status = s.status := rfl
@[simp] theorem State.setShadow_sample (s : State) (x : Shadow) : (s.setShadow x).sample = s.sample := rfl
@[simp] theorem State.setShadow_cache (s : State) (x : Shadow) : (s.setShadow x).cache = s.cache := rfl
@[simp] theorem State.setShadow_differential (s : State) (x : Shadow) : (s.setShadow x).differential = s.differential := rfl
@[simp] theorem State.setShadow_continuous (s : State) (x : Shadow) : (s.setShadow x).continuous = s.continuous := rfl
@[simp] theorem State.setShadow_cs (s : State) (x : Shadow) : (s.setShadow x).cs = s.cs := rfl
@[simp] theorem State.setShadow_session (s : State) (x : Shadow) : (s.setShadow x).session = s.session := rfl
@[simp] theorem State.setShadow_begun (s : State) (x : Shadow) : (s.setShadow x).begun = s.begun := rfl
@[simp] theorem State.setShadow_busy (s : State) (x : Shadow) : (s.setShadow x).busy = s.busy := rfl
@[simp] theorem State.setShadow_fault (s : State) (x : Shadow) : (s.setShadow x).fault = s.fault := rfl
@[simp] theorem State.setShadow_seqStep (s : State) (x : Shadow) : (s.setShadow x).seqStep = s.seqStep := rfl
@[simp] theorem State.setShadow_payload (s : State) (x : Shadow) : (s.setShadow x).payload = s.payload := rfl
@[simp] theorem State.setShadow_bus (s : State) (x : Shadow) : (s.setShadow x).bus = s.bus := rfl
@[simp] theorem State.setShadow_responses (s : State) (x : Shadow) : (s.setShadow x).responses = s.responses := rfl
@[simp] theorem State.setShadow_port (s : State) (x : Shadow) : (s.setShadow x).port = s.port := rfl
@[simp] theorem State.setShadow_irqPlan (s : State) (x : Shadow) : (s.setShadow x).irqPlan = s.irqPlan := rfl
@[simp] theorem State.setShadow_peer (s : State) (x : Shadow) : (s.setShadow x).peer = s.peer := rfl
@[simp] theorem State.setShadow_drawn (s : State) (x : Shadow) : (s.setShadow x).drawn = s.drawn := rfl
@[simp] theorem State.setShadow_fmtDraws (s : State) (x : Shadow) : (s.setShadow x).fmtDraws = s.fmtDraws := rfl
@[simp] theorem State.setShadow_fmtDrawn (s : State) (x : Shadow) : (s.setShadow x).fmtDrawn = s.fmtDrawn := rfl
@[simp] theorem State.setShadow_answer (s : State) (x : Shadow) (k : Nat) : (s.setShadow x).answer k = s.answer k := rfl
@[simp] theorem State.setShadow_answers (s : State) (x : Shadow) (k n : Nat) : (s.setShadow x).answers k n = s.answers k n := rfl
@[simp] theorem State.setShadow_frameAt (s : State) (x : Shadow) (k : Nat) (cmd : Byte) (out : List Byte) :
    (s.setShadow x).frameAt k cmd out = s.frameAt k cmd out := rfl
@[simp] theorem State.setShadow_fmtAnswer (s : State) (x : Shadow) : (s.setShadow x).fmtAnswer = s.fmtAnswer := rfl
@[simp] theorem State.setShadow_lookup (s : State) (x : Shadow) (m : Byte) : (s.setShadow x).lookup m = s.lookup m := rfl
@[simp] theorem State.setShadow_decodeChannel (s : State) (x : Shadow) (f : Byte) (w : Word32) (m : Byte) :
    (s.setShadow x).decodeChannel f w m = s.decodeChannel f w m := rfl
@[simp] theorem State.setShadow_newResolution (s : State) (x : Shadow) (f : Byte) :
    (s.setShadow x).newResolution f = s.newResolution f := rfl

/-! ### `State.setReference` changes `reference` and nothing else -/

@[simp] theorem State.setReference_params (s : State) (x : Word32) : (s.setReference x).params = s.params := rfl
@[simp] theorem State.setReference_v (s : State) (x : Word32) : (s.setReference x).v = s.v := rfl
@[simp] theorem State.setReference_resolutionMax (s : State) (x : Word32) : (s.setReference x).resolutionMax = s.resolutionMax := rfl
@[simp] theorem State.setReference_channelsMax (s : State) (x : Word32) : (s.setReference x).channelsMax = s.channelsMax := rfl
@[simp] theorem State.setReference_hasIrq (s : State) (x : Word32) : (s.setReference x).hasIrq = s.hasIrq := rfl
@[simp] theorem State.setReference_chanValidMask (s : State) (x : Word32) : (s.setReference x).chanValidMask = s.chanValidMask := rfl
@[simp] theorem State.setReference_resolution (s : State) (x : Word32) : (s.setReference x).resolution = s.resolution := rfl
@[simp] theorem State.setReference_shadow (s : State) (x : Word32) : (s.setReference x).shadow = s.shadow := rfl
@[simp] theorem State.setReference_reference (s : State) (x : Word32) : (s.setReference x).reference = x := rfl
@[simp] theorem State.setReference_status (s : State) (x : Word32) : (s.setReference x).status = s.status := rfl
@[simp] theorem State.setReference_sample (s : State) (x : Word32) : (s.setReference x).sample = s.sample := rfl
@[simp] theorem State.setReference_cache (s : State) (x : Word32) : (s.setReference x).cache = s.cache := rfl
@[simp] theorem State.setReference_differential (s : State) (x : Word32) : (s.setReference x).differential = s.differential := rfl
@[simp] theorem State.setReference_continuous (s : State) (x : Word32) : (s.setReference x).continuous = s.continuous := rfl
@[simp] theorem State.setReference_cs (s : State) (x : Word32) : (s.setReference x).cs = s.cs := rfl
@[simp] theorem State.setReference_session (s : State) (x : Word32) : (s.setReference x).session = s.session := rfl
@[simp] theorem State.setReference_begun (s : State) (x : Word32) : (s.setReference x).begun = s.begun := rfl
@[simp] theorem State.setReference_busy (s : State) (x : Word32) : (s.setReference x).busy = s.busy := rfl
@[simp] theorem State.setReference_fault (s : State) (x : Word32) : (s.setReference x).fault = s.fault := rfl
@[simp] theorem State.setReference_seqStep (s : State) (x : Word32) : (s.setReference x).seqStep = s.seqStep := rfl
@[simp] theorem State.setReference_payload (s : State) (x : Word32) : (s.setReference x).payload = s.payload := rfl
@[simp] theorem State.setReference_bus (s : State) (x : Word32) : (s.setReference x).bus = s.bus := rfl
@[simp] theorem State.setReference_responses (s : State) (x : Word32) : (s.setReference x).responses = s.responses := rfl
@[simp] theorem State.setReference_port (s : State) (x : Word32) : (s.setReference x).port = s.port := rfl
@[simp] theorem State.setReference_irqPlan (s : State) (x : Word32) : (s.setReference x).irqPlan = s.irqPlan := rfl
@[simp] theorem State.setReference_peer (s : State) (x : Word32) : (s.setReference x).peer = s.peer := rfl
@[simp] theorem State.setReference_drawn (s : State) (x : Word32) : (s.setReference x).drawn = s.drawn := rfl
@[simp] theorem State.setReference_fmtDraws (s : State) (x : Word32) : (s.setReference x).fmtDraws = s.fmtDraws := rfl
@[simp] theorem State.setReference_fmtDrawn (s : State) (x : Word32) : (s.setReference x).fmtDrawn = s.fmtDrawn := rfl
@[simp] theorem State.setReference_answer (s : State) (x : Word32) (k : Nat) : (s.setReference x).answer k = s.answer k := rfl
@[simp] theorem State.setReference_answers (s : State) (x : Word32) (k n : Nat) : (s.setReference x).answers k n = s.answers k n := rfl
@[simp] theorem State.setReference_frameAt (s : State) (x : Word32) (k : Nat) (cmd : Byte) (out : List Byte) :
    (s.setReference x).frameAt k cmd out = s.frameAt k cmd out := rfl
@[simp] theorem State.setReference_fmtAnswer (s : State) (x : Word32) : (s.setReference x).fmtAnswer = s.fmtAnswer := rfl
@[simp] theorem State.setReference_lookup (s : State) (x : Word32) (m : Byte) : (s.setReference x).lookup m = s.lookup m := rfl
@[simp] theorem State.setReference_decodeChannel (s : State) (x : Word32) (f : Byte) (w : Word32) (m : Byte) :
    (s.setReference x).decodeChannel f w m = s.decodeChannel f w m := rfl
@[simp] theorem State.setReference_newResolution (s : State) (x : Word32) (f : Byte) :
    (s.setReference x).newResolution f = s.newResolution f := rfl

/-! ### `State.setResolution` changes `resolution` and nothing else -/

@[simp] theorem State.setResolution_params (s : State) (x : BitVec 8) : (s.setResolution x).params = s.params := rfl
@[simp] theorem State.setResolution_v (s : State) (x : BitVec 8) : (s.setResolution x).v = s.v := rfl
@[simp] theorem State.setResolution_resolutionMax (s : State) (x : BitVec 8) : (s.setResolution x).resolutionMax = s.resolutionMax := rfl
@[simp] theorem State.setResolution_channelsMax (s : State) (x : BitVec 8) : (s.setResolution x).channelsMax = s.channelsMax := rfl
@[simp] theorem State.setResolution_hasIrq (s : State) (x : BitVec 8) : (s.setResolution x).hasIrq = s.hasIrq := rfl
@[simp] theorem State.setResolution_chanValidMask (s : State) (x : BitVec 8) : (s.setResolution x).chanValidMask = s.chanValidMask := rfl
@[simp] theorem State.setResolution_resolution (s : State) (x : BitVec 8) : (s.setResolution x).resolution = x := rfl
@[simp] theorem State.setResolution_shadow (s : State) (x : BitVec 8) : (s.setResolution x).shadow = s.shadow := rfl
@[simp] theorem State.setResolution_reference (s : State) (x : BitVec 8) : (s.setResolution x).reference = s.reference := rfl
@[simp] theorem State.setResolution_status (s : State) (x : BitVec 8) : (s.setResolution x).status = s.status := rfl
@[simp] theorem State.setResolution_sample (s : State) (x : BitVec 8) : (s.setResolution x).sample = s.sample := rfl
@[simp] theorem State.setResolution_cache (s : State) (x : BitVec 8) : (s.setResolution x).cache = s.cache := rfl
@[simp] theorem State.setResolution_differential (s : State) (x : BitVec 8) : (s.setResolution x).differential = s.differential := rfl
@[simp] theorem State.setResolution_continuous (s : State) (x : BitVec 8) : (s.setResolution x).continuous = s.continuous := rfl
@[simp] theorem State.setResolution_cs (s : State) (x : BitVec 8) : (s.setResolution x).cs = s.cs := rfl
@[simp] theorem State.setResolution_session (s : State) (x : BitVec 8) : (s.setResolution x).session = s.session := rfl
@[simp] theorem State.setResolution_begun (s : State) (x : BitVec 8) : (s.setResolution x).begun = s.begun := rfl
@[simp] theorem State.setResolution_busy (s : State) (x : BitVec 8) : (s.setResolution x).busy = s.busy := rfl
@[simp] theorem State.setResolution_fault (s : State) (x : BitVec 8) : (s.setResolution x).fault = s.fault := rfl
@[simp] theorem State.setResolution_seqStep (s : State) (x : BitVec 8) : (s.setResolution x).seqStep = s.seqStep := rfl
@[simp] theorem State.setResolution_payload (s : State) (x : BitVec 8) : (s.setResolution x).payload = s.payload := rfl
@[simp] theorem State.setResolution_bus (s : State) (x : BitVec 8) : (s.setResolution x).bus = s.bus := rfl
@[simp] theorem State.setResolution_responses (s : State) (x : BitVec 8) : (s.setResolution x).responses = s.responses := rfl
@[simp] theorem State.setResolution_port (s : State) (x : BitVec 8) : (s.setResolution x).port = s.port := rfl
@[simp] theorem State.setResolution_irqPlan (s : State) (x : BitVec 8) : (s.setResolution x).irqPlan = s.irqPlan := rfl
@[simp] theorem State.setResolution_peer (s : State) (x : BitVec 8) : (s.setResolution x).peer = s.peer := rfl
@[simp] theorem State.setResolution_drawn (s : State) (x : BitVec 8) : (s.setResolution x).drawn = s.drawn := rfl
@[simp] theorem State.setResolution_fmtDraws (s : State) (x : BitVec 8) : (s.setResolution x).fmtDraws = s.fmtDraws := rfl
@[simp] theorem State.setResolution_fmtDrawn (s : State) (x : BitVec 8) : (s.setResolution x).fmtDrawn = s.fmtDrawn := rfl
@[simp] theorem State.setResolution_answer (s : State) (x : BitVec 8) (k : Nat) : (s.setResolution x).answer k = s.answer k := rfl
@[simp] theorem State.setResolution_answers (s : State) (x : BitVec 8) (k n : Nat) : (s.setResolution x).answers k n = s.answers k n := rfl
@[simp] theorem State.setResolution_frameAt (s : State) (x : BitVec 8) (k : Nat) (cmd : Byte) (out : List Byte) :
    (s.setResolution x).frameAt k cmd out = s.frameAt k cmd out := rfl
@[simp] theorem State.setResolution_fmtAnswer (s : State) (x : BitVec 8) : (s.setResolution x).fmtAnswer = s.fmtAnswer := rfl
@[simp] theorem State.setResolution_lookup (s : State) (x : BitVec 8) (m : Byte) : (s.setResolution x).lookup m = s.lookup m := rfl
@[simp] theorem State.setResolution_decodeChannel (s : State) (x : BitVec 8) (f : Byte) (w : Word32) (m : Byte) :
    (s.setResolution x).decodeChannel f w m = s.decodeChannel f w m := rfl
@[simp] theorem State.setResolution_newResolution (s : State) (x : BitVec 8) (f : Byte) :
    (s.setResolution x).newResolution f = s.newResolution f := rfl

/-! ### `State.setStatus` changes `status` and nothing else -/

@[simp] theorem State.setStatus_params (s : State) (x : Byte) : (s.setStatus x).params = s.params := rfl
@[simp] theorem State.setStatus_v (s : State) (x : Byte) : (s.setStatus x).v = s.v := rfl
@[simp] theorem State.setStatus_resolutionMax (s : State) (x : Byte) : (s.setStatus x).resolutionMax = s.resolutionMax := rfl
@[simp] theorem State.setStatus_channelsMax (s : State) (x : Byte) : (s.setStatus x).channelsMax = s.channelsMax := rfl
@[simp] theorem State.setStatus_hasIrq (s : State) (x : Byte) : (s.setStatus x).hasIrq = s.hasIrq := rfl
@[simp] theorem State.setStatus_chanValidMask (s : State) (x : Byte) : (s.setStatus x).chanValidMask = s.chanValidMask := rfl
@[simp] theorem State.setStatus_resolution (s : State) (x : Byte) : (s.setStatus x).resolution = s.resolution := rfl
@[simp] theorem State.setStatus_shadow (s : State) (x : Byte) : (s.setStatus x).shadow = s.shadow := rfl
@[simp] theorem State.setStatus_reference (s : State) (x : Byte) : (s.setStatus x).reference = s.reference := rfl
@[simp] theorem State.setStatus_status (s : State) (x : Byte) : (s.setStatus x).status = some x := rfl
@[simp] theorem State.setStatus_sample (s : State) (x : Byte) : (s.setStatus x).sample = s.sample := rfl
@[simp] theorem State.setStatus_cache (s : State) (x : Byte) : (s.setStatus x).cache = s.cache := rfl
@[simp] theorem State.setStatus_differential (s : State) (x : Byte) : (s.setStatus x).differential = s.differential := rfl
@[simp] theorem State.setStatus_continuous (s : State) (x : Byte) : (s.setStatus x).continuous = s.continuous := rfl
@[simp] theorem State.setStatus_cs (s : State) (x : Byte) : (s.setStatus x).cs = s.cs := rfl
@[simp] theorem State.setStatus_session (s : State) (x : Byte) : (s.setStatus x).session = s.session := rfl
@[simp] theorem State.setStatus_begun (s : State) (x : Byte) : (s.setStatus x).begun = s.begun := rfl
@[simp] theorem State.setStatus_busy (s : State) (x : Byte) : (s.setStatus x).busy = s.busy := rfl
@[simp] theorem State.setStatus_fault (s : State) (x : Byte) : (s.setStatus x).fault = s.fault := rfl
@[simp] theorem State.setStatus_seqStep (s : State) (x : Byte) : (s.setStatus x).seqStep = s.seqStep := rfl
@[simp] theorem State.setStatus_payload (s : State) (x : Byte) : (s.setStatus x).payload = s.payload := rfl
@[simp] theorem State.setStatus_bus (s : State) (x : Byte) : (s.setStatus x).bus = s.bus := rfl
@[simp] theorem State.setStatus_responses (s : State) (x : Byte) : (s.setStatus x).responses = s.responses := rfl
@[simp] theorem State.setStatus_port (s : State) (x : Byte) : (s.setStatus x).port = s.port := rfl
@[simp] theorem State.setStatus_irqPlan (s : State) (x : Byte) : (s.setStatus x).irqPlan = s.irqPlan := rfl
@[simp] theorem State.setStatus_peer (s : State) (x : Byte) : (s.setStatus x).peer = s.peer := rfl
@[simp] theorem State.setStatus_drawn (s : State) (x : Byte) : (s.setStatus x).drawn = s.drawn := rfl
@[simp] theorem State.setStatus_fmtDraws (s : State) (x : Byte) : (s.setStatus x).fmtDraws = s.fmtDraws := rfl
@[simp] theorem State.setStatus_fmtDrawn (s : State) (x : Byte) : (s.setStatus x).fmtDrawn = s.fmtDrawn := rfl
@[simp] theorem State.setStatus_answer (s : State) (x : Byte) (k : Nat) : (s.setStatus x).answer k = s.answer k := rfl
@[simp] theorem State.setStatus_answers (s : State) (x : Byte) (k n : Nat) : (s.setStatus x).answers k n = s.answers k n := rfl
@[simp] theorem State.setStatus_frameAt (s : State) (x : Byte) (k : Nat) (cmd : Byte) (out : List Byte) :
    (s.setStatus x).frameAt k cmd out = s.frameAt k cmd out := rfl
@[simp] theorem State.setStatus_fmtAnswer (s : State) (x : Byte) : (s.setStatus x).fmtAnswer = s.fmtAnswer := rfl
@[simp] theorem State.setStatus_lookup (s : State) (x : Byte) (m : Byte) : (s.setStatus x).lookup m = s.lookup m := rfl
@[simp] theorem State.setStatus_decodeChannel (s : State) (x : Byte) (f : Byte) (w : Word32) (m : Byte) :
    (s.setStatus x).decodeChannel f w m = s.decodeChannel f w m := rfl
@[simp] theorem State.setStatus_newResolution (s : State) (x : Byte) (f : Byte) :
    (s.setStatus x).newResolution f = s.newResolution f := rfl

/-! ### `State.setSample` changes `sample` and nothing else -/

@[simp] theorem State.setSample_params (s : State) (x : Word32) : (s.setSample x).params = s.params := rfl
@[simp] theorem State.setSample_v (s : State) (x : Word32) : (s.setSample x).v = s.v := rfl
@[simp] theorem State.setSample_resolutionMax (s : State) (x : Word32) : (s.setSample x).resolutionMax = s.resolutionMax := rfl
@[simp] theorem State.setSample_channelsMax (s : State) (x : Word32) : (s.setSample x).channelsMax = s.channelsMax := rfl
@[simp] theorem State.setSample_hasIrq (s : State) (x : Word32) : (s.setSample x).hasIrq = s.hasIrq := rfl
@[simp] theorem State.setSample_chanValidMask (s : State) (x : Word32) : (s.setSample x).chanValidMask = s.chanValidMask := rfl
@[simp] theorem State.setSample_resolution (s : State) (x : Word32) : (s.setSample x).resolution = s.resolution := rfl
@[simp] theorem State.setSample_shadow (s : State) (x : Word32) : (s.setSample x).shadow = s.shadow := rfl
@[simp] theorem State.setSample_reference (s : State) (x : Word32) : (s.setSample x).reference = s.reference := rfl
@[simp] theorem State.setSample_status (s : State) (x : Word32) : (s.setSample x).status = s.status := rfl
@[simp] theorem State.setSample_sample (s : State) (x : Word32) : (s.setSample x).sample = some x := rfl
@[simp] theorem State.setSample_cache (s : State) (x : Word32) : (s.setSample x).cache = s.cache := rfl
@[simp] theorem State.setSample_differential (s : State) (x : Word32) : (s.setSample x).differential = s.differential := rfl
@[simp] theorem State.setSample_continuous (s : State) (x : Word32) : (s.setSample x).continuous = s.continuous := rfl
@[simp] theorem State.setSample_cs (s : State) (x : Word32) : (s.setSample x).cs = s.cs := rfl
@[simp] theorem State.setSample_session (s : State) (x : Word32) : (s.setSample x).session = s.session := rfl
@[simp] theorem State.setSample_begun (s : State) (x : Word32) : (s.setSample x).begun = s.begun := rfl
@[simp] theorem State.setSample_busy (s : State) (x : Word32) : (s.setSample x).busy = s.busy := rfl
@[simp] theorem State.setSample_fault (s : State) (x : Word32) : (s.setSample x).fault = s.fault := rfl
@[simp] theorem State.setSample_seqStep (s : State) (x : Word32) : (s.setSample x).seqStep = s.seqStep := rfl
@[simp] theorem State.setSample_payload (s : State) (x : Word32) : (s.setSample x).payload = s.payload := rfl
@[simp] theorem State.setSample_bus (s : State) (x : Word32) : (s.setSample x).bus = s.bus := rfl
@[simp] theorem State.setSample_responses (s : State) (x : Word32) : (s.setSample x).responses = s.responses := rfl
@[simp] theorem State.setSample_port (s : State) (x : Word32) : (s.setSample x).port = s.port := rfl
@[simp] theorem State.setSample_irqPlan (s : State) (x : Word32) : (s.setSample x).irqPlan = s.irqPlan := rfl
@[simp] theorem State.setSample_peer (s : State) (x : Word32) : (s.setSample x).peer = s.peer := rfl
@[simp] theorem State.setSample_drawn (s : State) (x : Word32) : (s.setSample x).drawn = s.drawn := rfl
@[simp] theorem State.setSample_fmtDraws (s : State) (x : Word32) : (s.setSample x).fmtDraws = s.fmtDraws := rfl
@[simp] theorem State.setSample_fmtDrawn (s : State) (x : Word32) : (s.setSample x).fmtDrawn = s.fmtDrawn := rfl
@[simp] theorem State.setSample_answer (s : State) (x : Word32) (k : Nat) : (s.setSample x).answer k = s.answer k := rfl
@[simp] theorem State.setSample_answers (s : State) (x : Word32) (k n : Nat) : (s.setSample x).answers k n = s.answers k n := rfl
@[simp] theorem State.setSample_frameAt (s : State) (x : Word32) (k : Nat) (cmd : Byte) (out : List Byte) :
    (s.setSample x).frameAt k cmd out = s.frameAt k cmd out := rfl
@[simp] theorem State.setSample_fmtAnswer (s : State) (x : Word32) : (s.setSample x).fmtAnswer = s.fmtAnswer := rfl
@[simp] theorem State.setSample_lookup (s : State) (x : Word32) (m : Byte) : (s.setSample x).lookup m = s.lookup m := rfl
@[simp] theorem State.setSample_decodeChannel (s : State) (x : Word32) (f : Byte) (w : Word32) (m : Byte) :
    (s.setSample x).decodeChannel f w m = s.decodeChannel f w m := rfl
@[simp] theorem State.setSample_newResolution (s : State) (x : Word32) (f : Byte) :
    (s.setSample x).newResolution f = s.newResolution f := rfl

/-! ### `State.setCache` changes `cache` and nothing else -/

@[simp] theorem State.setCache_params (s : State) (i : Nat) (x : Word32) : (s.setCache i x).params = s.params := rfl
@[simp] theorem State.setCache_v (s : State) (i : Nat) (x : Word32) : (s.setCache i x).v = s.v := rfl
@[simp] theorem State.setCache_resolutionMax (s : State) (i : Nat) (x : Word32) : (s.setCache i x).resolutionMax = s.resolutionMax := rfl
@[simp] theorem State.setCache_channelsMax (s : State) (i : Nat) (x : Word32) : (s.setCache i x).channelsMax = s.channelsMax := rfl
@[simp] theorem State.setCache_hasIrq (s : State) (i : Nat) (x : Word32) : (s.setCache i x).hasIrq = s.hasIrq := rfl
@[simp] theorem State.setCache_chanValidMask (s : State) (i : Nat) (x : Word32) : (s.setCache i x).chanValidMask = s.chanValidMask := rfl
@[simp] theorem State.setCache_resolution (s : State) (i : Nat) (x : Word32) : (s.setCache i x).resolution = s.resolution := rfl
@[simp] theorem State.setCache_shadow (s : State) (i : Nat) (x : Word32) : (s.setCache i x).shadow = s.shadow := rfl
@[simp] theorem State.setCache_reference (s : State) (i : Nat) (x : Word32) : (s.setCache i x).reference = s.reference := rfl
@[simp] theorem State.setCache_status (s : State) (i : Nat) (x : Word32) : (s.setCache i x).status = s.status := rfl
@[simp] theorem State.setCache_sample (s : State) (i : Nat) (x : Word32) : (s.setCache i x).sample = s.sample := rfl
@[simp] theorem State.setCache_cache (s : State) (i : Nat) (x : Word32) : (s.setCache i x).cache = s.cache.set i (some x) := rfl
@[simp] theorem State.setCache_differential (s : State) (i : Nat) (x : Word32) : (s.setCache i x).differential = s.differential := rfl
@[simp] theorem State.setCache_continuous (s : State) (i : Nat) (x : Word32) : (s.setCache i x).continuous = s.continuous := rfl
@[simp] theorem State.setCache_cs (s : State) (i : Nat) (x : Word32) : (s.setCache i x).cs = s.cs := rfl
@[simp] theorem State.setCache_session (s : State) (i : Nat) (x : Word32) : (s.setCache i x).session = s.session := rfl
@[simp] theorem State.setCache_begun (s : State) (i : Nat) (x : Word32) : (s.setCache i x).begun = s.begun := rfl
@[simp] theorem State.setCache_busy (s : State) (i : Nat) (x : Word32) : (s.setCache i x).busy = s.busy := rfl
@[simp] theorem State.setCache_fault (s : State) (i : Nat) (x : Word32) : (s.setCache i x).fault = s.fault := rfl
@[simp] theorem State.setCache_seqStep (s : State) (i : Nat) (x : Word32) : (s.setCache i x).seqStep = s.seqStep := rfl
@[simp] theorem State.setCache_payload (s : State) (i : Nat) (x : Word32) : (s.setCache i x).payload = s.payload := rfl
@[simp] theorem State.setCache_bus (s : State) (i : Nat) (x : Word32) : (s.setCache i x).bus = s.bus := rfl
@[simp] theorem State.setCache_responses (s : State) (i : Nat) (x : Word32) : (s.setCache i x).responses = s.responses := rfl
@[simp] theorem State.setCache_port (s : State) (i : Nat) (x : Word32) : (s.setCache i x).port = s.port := rfl
@[simp] theorem State.setCache_irqPlan (s : State) (i : Nat) (x : Word32) : (s.setCache i x).irqPlan = s.irqPlan := rfl
@[simp] theorem State.setCache_peer (s : State) (i : Nat) (x : Word32) : (s.setCache i x).peer = s.peer := rfl
@[simp] theorem State.setCache_drawn (s : State) (i : Nat) (x : Word32) : (s.setCache i x).drawn = s.drawn := rfl
@[simp] theorem State.setCache_fmtDraws (s : State) (i : Nat) (x : Word32) : (s.setCache i x).fmtDraws = s.fmtDraws := rfl
@[simp] theorem State.setCache_fmtDrawn (s : State) (i : Nat) (x : Word32) : (s.setCache i x).fmtDrawn = s.fmtDrawn := rfl
@[simp] theorem State.setCache_answer (s : State) (i : Nat) (x : Word32) (k : Nat) : (s.setCache i x).answer k = s.answer k := rfl
@[simp] theorem State.setCache_answers (s : State) (i : Nat) (x : Word32) (k n : Nat) : (s.setCache i x).answers k n = s.answers k n := rfl
@[simp] theorem State.setCache_frameAt (s : State) (i : Nat) (x : Word32) (k : Nat) (cmd : Byte) (out : List Byte) :
    (s.setCache i x).frameAt k cmd out = s.frameAt k cmd out := rfl
@[simp] theorem State.setCache_fmtAnswer (s : State) (i : Nat) (x : Word32) : (s.setCache i x).fmtAnswer = s.fmtAnswer := rfl
@[simp] theorem State.setCache_lookup (s : State) (i : Nat) (x : Word32) (m : Byte) : (s.setCache i x).lookup m = s.lookup m := rfl
@[simp] theorem State.setCache_decodeChannel (s : State) (i : Nat) (x : Word32) (f : Byte) (w : Word32) (m : Byte) :
    (s.setCache i x).decodeChannel f w m = s.decodeChannel f w m := rfl
@[simp] theorem State.setCache_newResolution (s : State) (i : Nat) (x : Word32) (f : Byte) :
    (s.setCache i x).newResolution f = s.newResolution f := rfl

/-! ### `State.setDifferential` changes `differential` and nothing else -/

@[simp] theorem State.setDifferential_params (s : State) (x : Bool) : (s.setDifferential x).params = s.params := rfl
@[simp] theorem State.setDifferential_v (s : State) (x : Bool) : (s.setDifferential x).v = s.v := rfl
@[simp] theorem State.setDifferential_resolutionMax (s : State) (x : Bool) : (s.setDifferential x).resolutionMax = s.resolutionMax := rfl
@[simp] theorem State.setDifferential_channelsMax (s : State) (x : Bool) : (s.setDifferential x).channelsMax = s.channelsMax := rfl
@[simp] theorem State.setDifferential_hasIrq (s : State) (x : Bool) : (s.setDifferential x).hasIrq = s.hasIrq := rfl
@[simp] theorem State.setDifferential_chanValidMask (s : State) (x : Bool) : (s.setDifferential x).chanValidMask = s.chanValidMask := rfl
@[simp] theorem State.setDifferential_resolution (s : State) (x : Bool) : (s.setDifferential x).resolution = s.resolution := rfl
@[simp] theorem State.setDifferential_shadow (s : State) (x : Bool) : (s.setDifferential x).shadow = s.shadow := rfl
@[simp] theorem State.setDifferential_reference (s : State) (x : Bool) : (s.setDifferential x).reference = s.reference := rfl
@[simp] theorem State.setDifferential_status (s : State) (x : Bool) : (s.setDifferential x).status = s.status := rfl
@[simp] theorem State.setDifferential_sample (s : State) (x : Bool) : (s.setDifferential x).sample = s.sample := rfl
@[simp] theorem State.setDifferential_cache (s : State) (x : Bool) : (s.setDifferential x).cache = s.cache := rfl
@[simp] theorem State.setDifferential_differential (s : State) (x : Bool) : (s.setDifferential x).differential = x := rfl
@[simp] theorem State.setDifferential_continuous (s : State) (x : Bool) : (s.setDifferential x).continuous = s.continuous := rfl
@[simp] theorem State.setDifferential_cs (s : State) (x : Bool) : (s.setDifferential x).cs = s.cs := rfl
@[simp] theorem State.setDifferential_session (s : State) (x : Bool) : (s.setDifferential x).session = s.session := rfl
@[simp] theorem State.setDifferential_begun (s : State) (x : Bool) : (s.setDifferential x).begun = s.begun := rfl
@[simp] theorem State.setDifferential_busy (s : State) (x : Bool) : (s.setDifferential x).busy = s.busy := rfl
@[simp] theorem State.setDifferential_fault (s : State) (x : Bool) : (s.setDifferential x).fault = s.fault := rfl
@[simp] theorem State.setDifferential_seqStep (s : State) (x : Bool) : (s.setDifferential x).seqStep = s.seqStep := rfl
@[simp] theorem State.setDifferential_payload (s : State) (x : Bool) : (s.setDifferential x).payload = s.payload := rfl
@[simp] theorem State.setDifferential_bus (s : State) (x : Bool) : (s.setDifferential x).bus = s.bus := rfl
@[simp] theorem State.setDifferential_responses (s : State) (x : Bool) : (s.setDifferential x).responses = s.responses := rfl
@[simp] theorem State.setDifferential_port (s : State) (x : Bool) : (s.setDifferential x).port = s.port := rfl
@[simp] theorem State.setDifferential_irqPlan (s : State) (x : Bool) : (s.setDifferential x).irqPlan = s.irqPlan := rfl
@[simp] theorem State.setDifferential_peer (s : State) (x : Bool) : (s.setDifferential x).peer = s.peer := rfl
@[simp] theorem State.setDifferential_drawn (s : State) (x : Bool) : (s.setDifferential x).drawn = s.drawn := rfl
@[simp] theorem State.setDifferential_fmtDraws (s : State) (x : Bool) : (s.setDifferential x).fmtDraws = s.fmtDraws := rfl
@[simp] theorem State.setDifferential_fmtDrawn (s : State) (x : Bool) : (s.setDifferential x).fmtDrawn = s.fmtDrawn := rfl
@[simp] theorem State.setDifferential_answer (s : State) (x : Bool) (k : Nat) : (s.setDifferential x).answer k = s.answer k := rfl
@[simp] theorem State.setDifferential_answers (s : State) (x : Bool) (k n : Nat) : (s.setDifferential x).answers k n = s.answers k n := rfl
@[simp] theorem State.setDifferential_frameAt (s : State) (x : Bool) (k : Nat) (cmd : Byte) (out : List Byte) :
    (s.setDifferential x).frameAt k cmd out = s.frameAt k cmd out := rfl
@[simp] theorem State.setDifferential_fmtAnswer (s : State) (x : Bool) : (s.setDifferential x).fmtAnswer = s.fmtAnswer := rfl
@[simp] theorem State.setDifferential_lookup (s : State) (x : Bool) (m : Byte) : (s.setDifferential x).lookup m = s.lookup m := rfl
@[simp] theorem State.setDifferential_decodeChannel (s : State) (x : Bool) (f : Byte) (w : Word32) (m : Byte) :
    (s.setDifferential x).decodeChannel f w m = s.decodeChannel f w m := rfl
@[simp] theorem State.setDifferential_newResolution (s : State) (x : Bool) (f : Byte) :
    (s.setDifferential x).newResolution f = s.newResolution f := rfl

/-! ### `State.setContinuous` changes `continuous` and nothing else -/

@[simp] theorem State.setContinuous_params (s : State) (x : Bool) : (s.setContinuous x).params = s.params := rfl
@[simp] theorem State.setContinuous_v (s : State) (x : Bool) : (s.setContinuous x).v = s.v := rfl
@[simp] theorem State.setContinuous_resolutionMax (s : State) (x : Bool) : (s.setContinuous x).resolutionMax = s.resolutionMax := rfl
@[simp] theorem State.setContinuous_channelsMax (s : State) (x : Bool) : (s.setContinuous x).channelsMax = s.channelsMax := rfl
@[simp] theorem State.setContinuous_hasIrq (s : State) (x : Bool) : (s.setContinuous x).hasIrq = s.hasIrq := rfl
@[simp] theorem State.setContinuous_chanValidMask (s : State) (x : Bool) : (s.setContinuous x).chanValidMask = s.chanValidMask := rfl
@[simp] theorem State.setContinuous_resolution (s : State) (x : Bool) : (s.setContinuous x).resolution = s.resolution := rfl
@[simp] theorem State.setContinuous_shadow (s : State) (x : Bool) : (s.setContinuous x).shadow = s.shadow := rfl
@[simp] theorem State.setContinuous_reference (s : State) (x : Bool) : (s.setContinuous x).reference = s.reference := rfl
@[simp] theorem State.setContinuous_status (s : State) (x : Bool) : (s.setContinuous x).status = s.status := rfl
@[simp] theorem State.setContinuous_sample (s : State) (x : Bool) : (s.setContinuous x).sample = s.sample := rfl
@[simp] theorem State.setContinuous_cache (s : State) (x : Bool) : (s.setContinuous x).cache = s.cache := rfl
@[simp] theorem State.setContinuous_differential (s : State) (x : Bool) : (s.setContinuous x).differential = s.differential := rfl
@[simp] theorem State.setContinuous_continuous (s : State) (x : Bool) : (s.setContinuous x).continuous = x := rfl
@[simp] theorem State.setContinuous_cs (s : State) (x : Bool) : (s.setContinuous x).cs = s.cs := rfl
@[simp] theorem State.setContinuous_session (s : State) (x : Bool) : (s.setContinuous x).session = s.session := rfl
@[simp] theorem State.setContinuous_begun (s : State) (x : Bool) : (s.setContinuous x).begun = s.begun := rfl
@[simp] theorem State.setContinuous_busy (s : State) (x : Bool) : (s.setContinuous x).busy = s.busy := rfl
@[simp] theorem State.setContinuous_fault (s : State) (x : Bool) : (s.setContinuous x).fault = s.fault := rfl
@[simp] theorem State.setContinuous_seqStep (s : State) (x : Bool) : (s.setContinuous x).seqStep = s.seqStep := rfl
@[simp] theorem State.setContinuous_payload (s : State) (x : Bool) : (s.setContinuous x).payload = s.payload := rfl
@[simp] theorem State.setContinuous_bus (s : State) (x : Bool) : (s.setContinuous x).bus = s.bus := rfl
@[simp] theorem State.setContinuous_responses (s : State) (x : Bool) : (s.setContinuous x).responses = s.responses := rfl
@[simp] theorem State.setContinuous_port (s : State) (x : Bool) : (s.setContinuous x).port = s.port := rfl
@[simp] theorem State.setContinuous_irqPlan (s : State) (x : Bool) : (s.setContinuous x).irqPlan = s.irqPlan := rfl
@[simp] theorem State.setContinuous_peer (s : State) (x : Bool) : (s.setContinuous x).peer = s.peer := rfl
@[simp] theorem State.setContinuous_drawn (s : State) (x : Bool) : (s.setContinuous x).drawn = s.drawn := rfl
@[simp] theorem State.setContinuous_fmtDraws (s : State) (x : Bool) : (s.setContinuous x).fmtDraws = s.fmtDraws := rfl
@[simp] theorem State.setContinuous_fmtDrawn (s : State) (x : Bool) : (s.setContinuous x).fmtDrawn = s.fmtDrawn := rfl
@[simp] theorem State.setContinuous_answer (s : State) (x : Bool) (k : Nat) : (s.setContinuous x).answer k = s.answer k := rfl
@[simp] theorem State.setContinuous_answers (s : State) (x : Bool) (k n : Nat) : (s.setContinuous x).answers k n = s.answers k n := rfl
@[simp] theorem State.setContinuous_frameAt (s : State) (x : Bool) (k : Nat) (cmd : Byte) (out : List Byte) :
    (s.setContinuous x).frameAt k cmd out = s.frameAt k cmd out := rfl
@[simp] theorem State.setContinuous_fmtAnswer (s : State) (x : Bool) : (s.setContinuous x).fmtAnswer = s.fmtAnswer := rfl
@[simp] theorem State.setContinuous_lookup (s : State) (x : Bool) (m : Byte) : (s.setContinuous x).lookup m = s.lookup m := rfl
@[simp] theorem State.setContinuous_decodeChannel (s : State) (x : Bool) (f : Byte) (w : Word32) (m : Byte) :
    (s.setContinuous x).decodeChannel f w m = s.decodeChannel f w m := rfl
@[simp] theorem State.setContinuous_newResolution (s : State) (x : Bool) (f : Byte) :
    (s.setContinuous x).newResolution f = s.newResolution f := rfl

/-! ### `State.setCs` changes `cs` and nothing else -/

@[simp] theorem State.setCs_params (s : State) (l : Level) : (s.setCs l).params = s.params := rfl
@[simp] theorem State.setCs_v (s : State) (l : Level) : (s.setCs l).v = s.v := rfl
@[simp] theorem State.setCs_resolutionMax (s : State) (l : Level) : (s.setCs l).resolutionMax = s.resolutionMax := rfl
@[simp] theorem State.setCs_channelsMax (s : State) (l : Level) : (s.setCs l).channelsMax = s.channelsMax := rfl
@[simp] theorem State.setCs_hasIrq (s : State) (l : Level) : (s.setCs l).hasIrq = s.hasIrq := rfl
@[simp] theorem State.setCs_chanValidMask (s : State) (l : Level) : (s.setCs l).chanValidMask = s.chanValidMask := rfl
@[simp] theorem State.setCs_resolution (s : State) (l : Level) : (s.setCs l).resolution = s.resolution := rfl
@[simp] theorem State.setCs_shadow (s : State) (l : Level) : (s.setCs l).shadow = s.shadow := rfl
@[simp] theorem State.setCs_reference (s : State) (l : Level) : (s.setCs l).reference = s.reference := rfl
@[simp] theorem State.setCs_status (s : State) (l : Level) : (s.setCs l).status = s.status := rfl
@[simp] theorem State.setCs_sample (s : State) (l : Level) : (s.setCs l).sample = s.sample := rfl
@[simp] theorem State.setCs_cache (s : State) (l : Level) : (s.setCs l).cache = s.cache := rfl
@[simp] theorem State.setCs_differential (s : State) (l : Level) : (s.setCs l).differential = s.differential := rfl
@[simp] theorem State.setCs_continuous (s : State) (l : Level) : (s.setCs l).continuous = s.continuous := rfl
@[simp] theorem State.setCs_cs (s : State) (l : Level) : (s.setCs l).cs = .driven l := rfl
@[simp] theorem State.setCs_session (s : State) (l : Level) : (s.setCs l).session = s.session := rfl
@[simp] theorem State.setCs_begun (s : State) (l : Level) : (s.setCs l).begun = s.begun := rfl
@[simp] theorem State.setCs_busy (s : State) (l : Level) : (s.setCs l).busy = s.busy := rfl
@[simp] theorem State.setCs_fault (s : State) (l : Level) : (s.setCs l).fault = s.fault := rfl
@[simp] theorem State.setCs_seqStep (s : State) (l : Level) : (s.setCs l).seqStep = s.seqStep := rfl
@[simp] theorem State.setCs_payload (s : State) (l : Level) : (s.setCs l).payload = s.payload := rfl
@[simp] theorem State.setCs_bus (s : State) (l : Level) : (s.setCs l).bus = s.bus := rfl
@[simp] theorem State.setCs_responses (s : State) (l : Level) : (s.setCs l).responses = s.responses := rfl
@[simp] theorem State.setCs_port (s : State) (l : Level) : (s.setCs l).port = s.port := rfl
@[simp] theorem State.setCs_irqPlan (s : State) (l : Level) : (s.setCs l).irqPlan = s.irqPlan := rfl
@[simp] theorem State.setCs_peer (s : State) (l : Level) : (s.setCs l).peer = s.peer := rfl
@[simp] theorem State.setCs_drawn (s : State) (l : Level) : (s.setCs l).drawn = s.drawn := rfl
@[simp] theorem State.setCs_fmtDraws (s : State) (l : Level) : (s.setCs l).fmtDraws = s.fmtDraws := rfl
@[simp] theorem State.setCs_fmtDrawn (s : State) (l : Level) : (s.setCs l).fmtDrawn = s.fmtDrawn := rfl
@[simp] theorem State.setCs_answer (s : State) (l : Level) (k : Nat) : (s.setCs l).answer k = s.answer k := rfl
@[simp] theorem State.setCs_answers (s : State) (l : Level) (k n : Nat) : (s.setCs l).answers k n = s.answers k n := rfl
@[simp] theorem State.setCs_frameAt (s : State) (l : Level) (k : Nat) (cmd : Byte) (out : List Byte) :
    (s.setCs l).frameAt k cmd out = s.frameAt k cmd out := rfl
@[simp] theorem State.setCs_fmtAnswer (s : State) (l : Level) : (s.setCs l).fmtAnswer = s.fmtAnswer := rfl
@[simp] theorem State.setCs_lookup (s : State) (l : Level) (m : Byte) : (s.setCs l).lookup m = s.lookup m := rfl
@[simp] theorem State.setCs_decodeChannel (s : State) (l : Level) (f : Byte) (w : Word32) (m : Byte) :
    (s.setCs l).decodeChannel f w m = s.decodeChannel f w m := rfl
@[simp] theorem State.setCs_newResolution (s : State) (l : Level) (f : Byte) :
    (s.setCs l).newResolution f = s.newResolution f := rfl

/-! ### `State.setSession` changes `session` and nothing else -/

@[simp] theorem State.setSession_params (s : State) (x : Bool) : (s.setSession x).params = s.params := rfl
@[simp] theorem State.setSession_v (s : State) (x : Bool) : (s.setSession x).v = s.v := rfl
@[simp] theorem State.setSession_resolutionMax (s : State) (x : Bool) : (s.setSession x).resolutionMax = s.resolutionMax := rfl
@[simp] theorem State.setSession_channelsMax (s : State) (x : Bool) : (s.setSession x).channelsMax = s.channelsMax := rfl
@[simp] theorem State.setSession_hasIrq (s : State) (x : Bool) : (s.setSession x).hasIrq = s.hasIrq := rfl
@[simp] theorem State.setSession_chanValidMask (s : State) (x : Bool) : (s.setSession x).chanValidMask = s.chanValidMask := rfl
@[simp] theorem State.setSession_resolution (s : State) (x : Bool) : (s.setSession x).resolution = s.resolution := rfl
@[simp] theorem State.setSession_shadow (s : State) (x : Bool) : (s.setSession x).shadow = s.shadow := rfl
@[simp] theorem State.setSession_reference (s : State) (x : Bool) : (s.setSession x).reference = s.reference := rfl
@[simp] theorem State.setSession_status (s : State) (x : Bool) : (s.setSession x).status = s.status := rfl
@[simp] theorem State.setSession_sample (s : State) (x : Bool) : (s.setSession x).sample = s.sample := rfl
@[simp] theorem State.setSession_cache (s : State) (x : Bool) : (s.setSession x).cache = s.cache := rfl
@[simp] theorem State.setSession_differential (s : State) (x : Bool) : (s.setSession x).differential = s.differential := rfl
@[simp] theorem State.setSession_continuous (s : State) (x : Bool) : (s.setSession x).continuous = s.continuous := rfl
@[simp] theorem State.setSession_cs (s : State) (x : Bool) : (s.setSession x).cs = s.cs := rfl
@[simp] theorem State.setSession_session (s : State) (x : Bool) : (s.setSession x).session = x := rfl
@[simp] theorem State.setSession_begun (s : State) (x : Bool) : (s.setSession x).begun = s.begun := rfl
@[simp] theorem State.setSession_busy (s : State) (x : Bool) : (s.setSession x).busy = s.busy := rfl
@[simp] theorem State.setSession_fault (s : State) (x : Bool) : (s.setSession x).fault = s.fault := rfl
@[simp] theorem State.setSession_seqStep (s : State) (x : Bool) : (s.setSession x).seqStep = s.seqStep := rfl
@[simp] theorem State.setSession_payload (s : State) (x : Bool) : (s.setSession x).payload = s.payload := rfl
@[simp] theorem State.setSession_bus (s : State) (x : Bool) : (s.setSession x).bus = s.bus := rfl
@[simp] theorem State.setSession_responses (s : State) (x : Bool) : (s.setSession x).responses = s.responses := rfl
@[simp] theorem State.setSession_port (s : State) (x : Bool) : (s.setSession x).port = s.port := rfl
@[simp] theorem State.setSession_irqPlan (s : State) (x : Bool) : (s.setSession x).irqPlan = s.irqPlan := rfl
@[simp] theorem State.setSession_peer (s : State) (x : Bool) : (s.setSession x).peer = s.peer := rfl
@[simp] theorem State.setSession_drawn (s : State) (x : Bool) : (s.setSession x).drawn = s.drawn := rfl
@[simp] theorem State.setSession_fmtDraws (s : State) (x : Bool) : (s.setSession x).fmtDraws = s.fmtDraws := rfl
@[simp] theorem State.setSession_fmtDrawn (s : State) (x : Bool) : (s.setSession x).fmtDrawn = s.fmtDrawn := rfl
@[simp] theorem State.setSession_answer (s : State) (x : Bool) (k : Nat) : (s.setSession x).answer k = s.answer k := rfl
@[simp] theorem State.setSession_answers (s : State) (x : Bool) (k n : Nat) : (s.setSession x).answers k n = s.answers k n := rfl
@[simp] theorem State.setSession_frameAt (s : State) (x : Bool) (k : Nat) (cmd : Byte) (out : List Byte) :
    (s.setSession x).frameAt k cmd out = s.frameAt k cmd out := rfl
@[simp] theorem State.setSession_fmtAnswer (s : State) (x : Bool) : (s.setSession x).fmtAnswer = s.fmtAnswer := rfl
@[simp] theorem State.setSession_lookup (s : State) (x : Bool) (m : Byte) : (s.setSession x).lookup m = s.lookup m := rfl
@[simp] theorem State.setSession_decodeChannel (s : State) (x : Bool) (f : Byte) (w : Word32) (m : Byte) :
    (s.setSession x).decodeChannel f w m = s.decodeChannel f w m := rfl
@[simp] theorem State.setSession_newResolution (s : State) (x : Bool) (f : Byte) :
    (s.setSession x).newResolution f = s.newResolution f := rfl

/-! ### `State.setBegun` changes `begun` and nothing else -/

@[simp] theorem State.setBegun_params (s : State) : (s.setBegun).params = s.params := rfl
@[simp] theorem State.setBegun_v (s : State) : (s.setBegun).v = s.v := rfl
@[simp] theorem State.setBegun_resolutionMax (s : State) : (s.setBegun).resolutionMax = s.resolutionMax := rfl
@[simp] theorem State.setBegun_channelsMax (s : State) : (s.setBegun).channelsMax = s.channelsMax := rfl
@[simp] theorem State.setBegun_hasIrq (s : State) : (s.setBegun).hasIrq = s.hasIrq := rfl
@[simp] theorem State.setBegun_chanValidMask (s : State) : (s.setBegun).chanValidMask = s.chanValidMask := rfl
@[simp] theorem State.setBegun_resolution (s : State) : (s.setBegun).resolution = s.resolution := rfl
@[simp] theorem State.setBegun_shadow (s : State) : (s.setBegun).shadow = s.shadow := rfl
@[simp] theorem State.setBegun_reference (s : State) : (s.setBegun).reference = s.reference := rfl
@[simp] theorem State.setBegun_status (s : State) : (s.setBegun).status = s.status := rfl
@[simp] theorem State.setBegun_sample (s : State) : (s.setBegun).sample = s.sample := rfl
@[simp] theorem State.setBegun_cache (s : State) : (s.setBegun).cache = s.cache := rfl
@[simp] theorem State.setBegun_differential (s : State) : (s.setBegun).differential = s.differential := rfl
@[simp] theorem State.setBegun_continuous (s : State) : (s.setBegun).continuous = s.continuous := rfl
@[simp] theorem State.setBegun_cs (s : State) : (s.setBegun).cs = s.cs := rfl
@[simp] theorem State.setBegun_session (s : State) : (s.setBegun).session = s.session := rfl
@[simp] theorem State.setBegun_begun (s : State) : (s.setBegun).begun = true := rfl
@[simp] theorem State.setBegun_busy (s : State) : (s.setBegun).busy = s.busy := rfl
@[simp] theorem State.setBegun_fault (s : State) : (s.setBegun).fault = s.fault := rfl
@[simp] theorem State.setBegun_seqStep (s : State) : (s.setBegun).seqStep = s.seqStep := rfl
@[simp] theorem State.setBegun_payload (s : State) : (s.setBegun).payload = s.payload := rfl
@[simp] theorem State.setBegun_bus (s : State) : (s.setBegun).bus = s.bus := rfl
@[simp] theorem State.setBegun_responses (s : State) : (s.setBegun).responses = s.responses := rfl
@[simp] theorem State.setBegun_port (s : State) : (s.setBegun).port = s.port := rfl
@[simp] theorem State.setBegun_irqPlan (s : State) : (s.setBegun).irqPlan = s.irqPlan := rfl
@[simp] theorem State.setBegun_peer (s : State) : (s.setBegun).peer = s.peer := rfl
@[simp] theorem State.setBegun_drawn (s : State) : (s.setBegun).drawn = s.drawn := rfl
@[simp] theorem State.setBegun_fmtDraws (s : State) : (s.setBegun).fmtDraws = s.fmtDraws := rfl
@[simp] theorem State.setBegun_fmtDrawn (s : State) : (s.setBegun).fmtDrawn = s.fmtDrawn := rfl
@[simp] theorem State.setBegun_answer (s : State) (k : Nat) : (s.setBegun).answer k = s.answer k := rfl
@[simp] theorem State.setBegun_answers (s : State) (k n : Nat) : (s.setBegun).answers k n = s.answers k n := rfl
@[simp] theorem State.setBegun_frameAt (s : State) (k : Nat) (cmd : Byte) (out : List Byte) :
    (s.setBegun).frameAt k cmd out = s.frameAt k cmd out := rfl
@[simp] theorem State.setBegun_fmtAnswer (s : State) : (s.setBegun).fmtAnswer = s.fmtAnswer := rfl
@[simp] theorem State.setBegun_lookup (s : State) (m : Byte) : (s.setBegun).lookup m = s.lookup m := rfl
@[simp] theorem State.setBegun_decodeChannel (s : State) (f : Byte) (w : Word32) (m : Byte) :
    (s.setBegun).decodeChannel f w m = s.decodeChannel f w m := rfl
@[simp] theorem State.setBegun_newResolution (s : State) (f : Byte) :
    (s.setBegun).newResolution f = s.newResolution f := rfl

/-! ### `State.setPayload` changes `payload` and nothing else -/

@[simp] theorem State.setPayload_params (s : State) (x : List Byte) : (s.setPayload x).params = s.params := rfl
@[simp] theorem State.setPayload_v (s : State) (x : List Byte) : (s.setPayload x).v = s.v := rfl
@[simp] theorem State.setPayload_resolutionMax (s : State) (x : List Byte) : (s.setPayload x).resolutionMax = s.resolutionMax := rfl
@[simp] theorem State.setPayload_channelsMax (s : State) (x : List Byte) : (s.setPayload x).channelsMax = s.channelsMax := rfl
@[simp] theorem State.setPayload_hasIrq (s : State) (x : List Byte) : (s.setPayload x).hasIrq = s.hasIrq := rfl
@[simp] theorem State.setPayload_chanValidMask (s : State) (x : List Byte) : (s.setPayload x).chanValidMask = s.chanValidMask := rfl
@[simp] theorem State.setPayload_resolution (s : State) (x : List Byte) : (s.setPayload x).resolution = s.resolution := rfl
@[simp] theorem State.setPayload_shadow (s : State) (x : List Byte) : (s.setPayload x).shadow = s.shadow := rfl
@[simp] theorem State.setPayload_reference (s : State) (x : List Byte) : (s.setPayload x).reference = s.reference := rfl
@[simp] theorem State.setPayload_status (s : State) (x : List Byte) : (s.setPayload x).status = s.status := rfl
@[simp] theorem State.setPayload_sample (s : State) (x : List Byte) : (s.setPayload x).sample = s.sample := rfl
@[simp] theorem State.setPayload_cache (s : State) (x : List Byte) : (s.setPayload x).cache = s.cache := rfl
@[simp] theorem State.setPayload_differential (s : State) (x : List Byte) : (s.setPayload x).differential = s.differential := rfl
@[simp] theorem State.setPayload_continuous (s : State) (x : List Byte) : (s.setPayload x).continuous = s.continuous := rfl
@[simp] theorem State.setPayload_cs (s : State) (x : List Byte) : (s.setPayload x).cs = s.cs := rfl
@[simp] theorem State.setPayload_session (s : State) (x : List Byte) : (s.setPayload x).session = s.session := rfl
@[simp] theorem State.setPayload_begun (s : State) (x : List Byte) : (s.setPayload x).begun = s.begun := rfl
@[simp] theorem State.setPayload_busy (s : State) (x : List Byte) : (s.setPayload x).busy = s.busy := rfl
@[simp] theorem State.setPayload_fault (s : State) (x : List Byte) : (s.setPayload x).fault = s.fault := rfl
@[simp] theorem State.setPayload_seqStep (s : State) (x : List Byte) : (s.setPayload x).seqStep = s.seqStep := rfl
@[simp] theorem State.setPayload_payload (s : State) (x : List Byte) : (s.setPayload x).payload = x := rfl
@[simp] theorem State.setPayload_bus (s : State) (x : List Byte) : (s.setPayload x).bus = s.bus := rfl
@[simp] theorem State.setPayload_responses (s : State) (x : List Byte) : (s.setPayload x).responses = s.responses := rfl
@[simp] theorem State.setPayload_port (s : State) (x : List Byte) : (s.setPayload x).port = s.port := rfl
@[simp] theorem State.setPayload_irqPlan (s : State) (x : List Byte) : (s.setPayload x).irqPlan = s.irqPlan := rfl
@[simp] theorem State.setPayload_peer (s : State) (x : List Byte) : (s.setPayload x).peer = s.peer := rfl
@[simp] theorem State.setPayload_drawn (s : State) (x : List Byte) : (s.setPayload x).drawn = s.drawn := rfl
@[simp] theorem State.setPayload_fmtDraws (s : State) (x : List Byte) : (s.setPayload x).fmtDraws = s.fmtDraws := rfl
@[simp] theorem State.setPayload_fmtDrawn (s : State) (x : List Byte) : (s.setPayload x).fmtDrawn = s.fmtDrawn := rfl
@[simp] theorem State.setPayload_answer (s : State) (x : List Byte) (k : Nat) : (s.setPayload x).answer k = s.answer k := rfl
@[simp] theorem State.setPayload_answers (s : State) (x : List Byte) (k n : Nat) : (s.setPayload x).answers k n = s.answers k n := rfl
@[simp] theorem State.setPayload_frameAt (s : State) (x : List Byte) (k : Nat) (cmd : Byte) (out : List Byte) :
    (s.setPayload x).frameAt k cmd out = s.frameAt k cmd out := rfl
@[simp] theorem State.setPayload_fmtAnswer (s : State) (x : List Byte) : (s.setPayload x).fmtAnswer = s.fmtAnswer := rfl
@[simp] theorem State.setPayload_lookup (s : State) (x : List Byte) (m : Byte) : (s.setPayload x).lookup m = s.lookup m := rfl
@[simp] theorem State.setPayload_decodeChannel (s : State) (x : List Byte) (f : Byte) (w : Word32) (m : Byte) :
    (s.setPayload x).decodeChannel f w m = s.decodeChannel f w m := rfl
@[simp] theorem State.setPayload_newResolution (s : State) (x : List Byte) (f : Byte) :
    (s.setPayload x).newResolution f = s.newResolution f := rfl

/-! ### `State.addEvent` changes `bus`, `seqStep` and nothing else -/

@[simp] theorem State.addEvent_params (s : State) (e : BusEvent) : (s.addEvent e).params = s.params := rfl
@[simp] theorem State.addEvent_v (s : State) (e : BusEvent) : (s.addEvent e).v = s.v := rfl
@[simp] theorem State.addEvent_resolutionMax (s : State) (e : BusEvent) : (s.addEvent e).resolutionMax = s.resolutionMax := rfl
@[simp] theorem State.addEvent_channelsMax (s : State) (e : BusEvent) : (s.addEvent e).channelsMax = s.channelsMax := rfl
@[simp] theorem State.addEvent_hasIrq (s : State) (e : BusEvent) : (s.addEvent e).hasIrq = s.hasIrq := rfl
@[simp] theorem State.addEvent_chanValidMask (s : State) (e : BusEvent) : (s.addEvent e).chanValidMask = s.chanValidMask := rfl
@[simp] theorem State.addEvent_resolution (s : State) (e : BusEvent) : (s.addEvent e).resolution = s.resolution := rfl
@[simp] theorem State.addEvent_shadow (s : State) (e : BusEvent) : (s.addEvent e).shadow = s.shadow := rfl
@[simp] theorem State.addEvent_reference (s : State) (e : BusEvent) : (s.addEvent e).reference = s.reference := rfl
@[simp] theorem State.addEvent_status (s : State) (e : BusEvent) : (s.addEvent e).status = s.status := rfl
@[simp] theorem State.addEvent_sample (s : State) (e : BusEvent) : (s.addEvent e).sample = s.sample := rfl
@[simp] theorem State.addEvent_cache (s : State) (e : BusEvent) : (s.addEvent e).cache = s.cache := rfl
@[simp] theorem State.addEvent_differential (s : State) (e : BusEvent) : (s.addEvent e).differential = s.differential := rfl
@[simp] theorem State.addEvent_continuous (s : State) (e : BusEvent) : (s.addEvent e).continuous = s.continuous := rfl
@[simp] theorem State.addEvent_cs (s : State) (e : BusEvent) : (s.addEvent e).cs = s.cs := rfl
@[simp] theorem State.addEvent_session (s : State) (e : BusEvent) : (s.addEvent e).session = s.session := rfl
@[simp] theorem State.addEvent_begun (s : State) (e : BusEvent) : (s.addEvent e).begun = s.begun := rfl
@[simp] theorem State.addEvent_busy (s : State) (e : BusEvent) : (s.addEvent e).busy = s.busy := rfl
@[simp] theorem State.addEvent_fault (s : State) (e : BusEvent) : (s.addEvent e).fault = s.fault := rfl
@[simp] theorem State.addEvent_seqStep (s : State) (e : BusEvent) : (s.addEvent e).seqStep = s.seqStep + 1 := rfl
@[simp] theorem State.addEvent_payload (s : State) (e : BusEvent) : (s.addEvent e).payload = s.payload := rfl
@[simp] theorem State.addEvent_bus (s : State) (e : BusEvent) : (s.addEvent e).bus = s.bus ++ [e] := rfl
@[simp] theorem State.addEvent_responses (s : State) (e : BusEvent) : (s.addEvent e).responses = s.responses := rfl
@[simp] theorem State.addEvent_port (s : State) (e : BusEvent) : (s.addEvent e).port = s.port := rfl
@[simp] theorem State.addEvent_irqPlan (s : State) (e : BusEvent) : (s.addEvent e).irqPlan = s.irqPlan := rfl
@[simp] theorem State.addEvent_peer (s : State) (e : BusEvent) : (s.addEvent e).peer = s.peer := rfl
@[simp] theorem State.addEvent_drawn (s : State) (e : BusEvent) : (s.addEvent e).drawn = s.drawn := rfl
@[simp] theorem State.addEvent_fmtDraws (s : State) (e : BusEvent) : (s.addEvent e).fmtDraws = s.fmtDraws := rfl
@[simp] theorem State.addEvent_fmtDrawn (s : State) (e : BusEvent) : (s.addEvent e).fmtDrawn = s.fmtDrawn := rfl
@[simp] theorem State.addEvent_answer (s : State) (e : BusEvent) (k : Nat) : (s.addEvent e).answer k = s.answer k := rfl
@[simp] theorem State.addEvent_answers (s : State) (e : BusEvent) (k n : Nat) : (s.addEvent e).answers k n = s.answers k n := rfl
@[simp] theorem State.addEvent_frameAt (s : State) (e : BusEvent) (k : Nat) (cmd : Byte) (out : List Byte) :
    (s.addEvent e).frameAt k cmd out = s.frameAt k cmd out := rfl
@[simp] theorem State.addEvent_fmtAnswer (s : State) (e : BusEvent) : (s.addEvent e).fmtAnswer = s.fmtAnswer := rfl
@[simp] theorem State.addEvent_lookup (s : State) (e : BusEvent) (m : Byte) : (s.addEvent e).lookup m = s.lookup m := rfl
@[simp] theorem State.addEvent_decodeChannel (s : State) (e : BusEvent) (f : Byte) (w : Word32) (m : Byte) :
    (s.addEvent e).decodeChannel f w m = s.decodeChannel f w m := rfl
@[simp] theorem State.addEvent_newResolution (s : State) (e : BusEvent) (f : Byte) :
    (s.addEvent e).newResolution f = s.newResolution f := rfl

/-! ### `State.passBoundary` changes `irqPlan` and nothing else -/

@[simp] theorem State.passBoundary_params (s : State) : (s.passBoundary).params = s.params := rfl
@[simp] theorem State.passBoundary_v (s : State) : (s.passBoundary).v = s.v := rfl
@[simp] theorem State.passBoundary_resolutionMax (s : State) : (s.passBoundary).resolutionMax = s.resolutionMax := rfl
@[simp] theorem State.passBoundary_channelsMax (s : State) : (s.passBoundary).channelsMax = s.channelsMax := rfl
@[simp] theorem State.passBoundary_hasIrq (s : State) : (s.passBoundary).hasIrq = s.hasIrq := rfl
@[simp] theorem State.passBoundary_chanValidMask (s : State) : (s.passBoundary).chanValidMask = s.chanValidMask := rfl
@[simp] theorem State.passBoundary_resolution (s : State) : (s.passBoundary).resolution = s.resolution := rfl
@[simp] theorem State.passBoundary_shadow (s : State) : (s.passBoundary).shadow = s.shadow := rfl
@[simp] theorem State.passBoundary_reference (s : State) : (s.passBoundary).reference = s.reference := rfl
@[simp] theorem State.passBoundary_status (s : State) : (s.passBoundary).status = s.status := rfl
@[simp] theorem State.passBoundary_sample (s : State) : (s.passBoundary).sample = s.sample := rfl
@[simp] theorem State.passBoundary_cache (s : State) : (s.passBoundary).cache = s.cache := rfl
@[simp] theorem State.passBoundary_differential (s : State) : (s.passBoundary).differential = s.differential := rfl
@[simp] theorem State.passBoundary_continuous (s : State) : (s.passBoundary).continuous = s.continuous := rfl
@[simp] theorem State.passBoundary_cs (s : State) : (s.passBoundary).cs = s.cs := rfl
@[simp] theorem State.passBoundary_session (s : State) : (s.passBoundary).session = s.session := rfl
@[simp] theorem State.passBoundary_begun (s : State) : (s.passBoundary).begun = s.begun := rfl
@[simp] theorem State.passBoundary_busy (s : State) : (s.passBoundary).busy = s.busy := rfl
@[simp] theorem State.passBoundary_fault (s : State) : (s.passBoundary).fault = s.fault := rfl
@[simp] theorem State.passBoundary_seqStep (s : State) : (s.passBoundary).seqStep = s.seqStep := rfl
@[simp] theorem State.passBoundary_payload (s : State) : (s.passBoundary).payload = s.payload := rfl
@[simp] theorem State.passBoundary_bus (s : State) : (s.passBoundary).bus = s.bus := rfl
@[simp] theorem State.passBoundary_responses (s : State) : (s.passBoundary).responses = s.responses := rfl
@[simp] theorem State.passBoundary_port (s : State) : (s.passBoundary).port = s.port := rfl
@[simp] theorem State.passBoundary_irqPlan (s : State) : (s.passBoundary).irqPlan = s.irqPlan.tail := rfl
@[simp] theorem State.passBoundary_peer (s : State) : (s.passBoundary).peer = s.peer := rfl
@[simp] theorem State.passBoundary_drawn (s : State) : (s.passBoundary).drawn = s.drawn := rfl
@[simp] theorem State.passBoundary_fmtDraws (s : State) : (s.passBoundary).fmtDraws = s.fmtDraws := rfl
@[simp] theorem State.passBoundary_fmtDrawn (s : State) : (s.passBoundary).fmtDrawn = s.fmtDrawn := rfl
@[simp] theorem State.passBoundary_answer (s : State) (k : Nat) : (s.passBoundary).answer k = s.answer k := rfl
@[simp] theorem State.passBoundary_answers (s : State) (k n : Nat) : (s.passBoundary).answers k n = s.answers k n := rfl
@[simp] theorem State.passBoundary_frameAt (s : State) (k : Nat) (cmd : Byte) (out : List Byte) :
    (s.passBoundary).frameAt k cmd out = s.frameAt k cmd out := rfl
@[simp] theorem State.passBoundary_fmtAnswer (s : State) : (s.passBoundary).fmtAnswer = s.fmtAnswer := rfl
@[simp] theorem State.passBoundary_lookup (s : State) (m : Byte) : (s.passBoundary).lookup m = s.lookup m := rfl
@[simp] theorem State.passBoundary_decodeChannel (s : State) (f : Byte) (w : Word32) (m : Byte) :
    (s.passBoundary).decodeChannel f w m = s.decodeChannel f w m := rfl
@[simp] theorem State.passBoundary_newResolution (s : State) (f : Byte) :
    (s.passBoundary).newResolution f = s.newResolution f := rfl

/-! ### `State.drewByte` changes `peer`, `drawn` and nothing else -/

@[simp] theorem State.drewByte_params (s : State) : (s.drewByte).params = s.params := rfl
@[simp] theorem State.drewByte_v (s : State) : (s.drewByte).v = s.v := rfl
@[simp] theorem State.drewByte_resolutionMax (s : State) : (s.drewByte).resolutionMax = s.resolutionMax := rfl
@[simp] theorem State.drewByte_channelsMax (s : State) : (s.drewByte).channelsMax = s.channelsMax := rfl
@[simp] theorem State.drewByte_hasIrq (s : State) : (s.drewByte).hasIrq = s.hasIrq := rfl
@[simp] theorem State.drewByte_chanValidMask (s : State) : (s.drewByte).chanValidMask = s.chanValidMask := rfl
@[simp] theorem State.drewByte_resolution (s : State) : (s.drewByte).resolution = s.resolution := rfl
@[simp] theorem State.drewByte_shadow (s : State) : (s.drewByte).shadow = s.shadow := rfl
@[simp] theorem State.drewByte_reference (s : State) : (s.drewByte).reference = s.reference := rfl
@[simp] theorem State.drewByte_status (s : State) : (s.drewByte).status = s.status := rfl
@[simp] theorem State.drewByte_sample (s : State) : (s.drewByte).sample = s.sample := rfl
@[simp] theorem State.drewByte_cache (s : State) : (s.drewByte).cache = s.cache := rfl
@[simp] theorem State.drewByte_differential (s : State) : (s.drewByte).differential = s.differential := rfl
@[simp] theorem State.drewByte_continuous (s : State) : (s.drewByte).continuous = s.continuous := rfl
@[simp] theorem State.drewByte_cs (s : State) : (s.drewByte).cs = s.cs := rfl
@[simp] theorem State.drewByte_session (s : State) : (s.drewByte).session = s.session := rfl
@[simp] theorem State.drewByte_begun (s : State) : (s.drewByte).begun = s.begun := rfl
@[simp] theorem State.drewByte_busy (s : State) : (s.drewByte).busy = s.busy := rfl
@[simp] theorem State.drewByte_fault (s : State) : (s.drewByte).fault = s.fault := rfl
@[simp] theorem State.drewByte_seqStep (s : State) : (s.drewByte).seqStep = s.seqStep := rfl
@[simp] theorem State.drewByte_payload (s : State) : (s.drewByte).payload = s.payload := rfl
@[simp] theorem State.drewByte_bus (s : State) : (s.drewByte).bus = s.bus := rfl
@[simp] theorem State.drewByte_responses (s : State) : (s.drewByte).responses = s.responses := rfl
@[simp] theorem State.drewByte_port (s : State) : (s.drewByte).port = s.port := rfl
@[simp] theorem State.drewByte_irqPlan (s : State) : (s.drewByte).irqPlan = s.irqPlan := rfl
@[simp] theorem State.drewByte_peer (s : State) : (s.drewByte).peer = s.peer.tail := rfl
@[simp] theorem State.drewByte_drawn (s : State) : (s.drewByte).drawn = s.drawn + 1 := rfl
@[simp] theorem State.drewByte_fmtDraws (s : State) : (s.drewByte).fmtDraws = s.fmtDraws := rfl
@[simp] theorem State.drewByte_fmtDrawn (s : State) : (s.drewByte).fmtDrawn = s.fmtDrawn := rfl
@[simp] theorem State.drewByte_fmtAnswer (s : State) : (s.drewByte).fmtAnswer = s.fmtAnswer := rfl
@[simp] theorem State.drewByte_lookup (s : State) (m : Byte) : (s.drewByte).lookup m = s.lookup m := rfl
@[simp] theorem State.drewByte_decodeChannel (s : State) (f : Byte) (w : Word32) (m : Byte) :
    (s.drewByte).decodeChannel f w m = s.decodeChannel f w m := rfl
@[simp] theorem State.drewByte_newResolution (s : State) (f : Byte) :
    (s.drewByte).newResolution f = s.newResolution f := rfl

/-! ### `State.drewFmtBits` changes `fmtDraws`, `fmtDrawn` and nothing else -/

@[simp] theorem State.drewFmtBits_params (s : State) : (s.drewFmtBits).params = s.params := rfl
@[simp] theorem State.drewFmtBits_v (s : State) : (s.drewFmtBits).v = s.v := rfl
@[simp] theorem State.drewFmtBits_resolutionMax (s : State) : (s.drewFmtBits).resolutionMax = s.resolutionMax := rfl
@[simp] theorem State.drewFmtBits_channelsMax (s : State) : (s.drewFmtBits).channelsMax = s.channelsMax := rfl
@[simp] theorem State.drewFmtBits_hasIrq (s : State) : (s.drewFmtBits).hasIrq = s.hasIrq := rfl
@[simp] theorem State.drewFmtBits_chanValidMask (s : State) : (s.drewFmtBits).chanValidMask = s.chanValidMask := rfl
@[simp] theorem State.drewFmtBits_resolution (s : State) : (s.drewFmtBits).resolution = s.resolution := rfl
@[simp] theorem State.drewFmtBits_shadow (s : State) : (s.drewFmtBits).shadow = s.shadow := rfl
@[simp] theorem State.drewFmtBits_reference (s : State) : (s.drewFmtBits).reference = s.reference := rfl
@[simp] theorem State.drewFmtBits_status (s : State) : (s.drewFmtBits).status = s.status := rfl
@[simp] theorem State.drewFmtBits_sample (s : State) : (s.drewFmtBits).sample = s.sample := rfl
@[simp] theorem State.drewFmtBits_cache (s : State) : (s.drewFmtBits).cache = s.cache := rfl
@[simp] theorem State.drewFmtBits_differential (s : State) : (s.drewFmtBits).differential = s.differential := rfl
@[simp] theorem State.drewFmtBits_continuous (s : State) : (s.drewFmtBits).continuous = s.continuous := rfl
@[simp] theorem State.drewFmtBits_cs (s : State) : (s.drewFmtBits).cs = s.cs := rfl
@[simp] theorem State.drewFmtBits_session (s : State) : (s.drewFmtBits).session = s.session := rfl
@[simp] theorem State.drewFmtBits_begun (s : State) : (s.drewFmtBits).begun = s.begun := rfl
@[simp] theorem State.drewFmtBits_busy (s : State) : (s.drewFmtBits).busy = s.busy := rfl
@[simp] theorem State.drewFmtBits_fault (s : State) : (s.drewFmtBits).fault = s.fault := rfl
@[simp] theorem State.drewFmtBits_seqStep (s : State) : (s.drewFmtBits).seqStep = s.seqStep := rfl
@[simp] theorem State.drewFmtBits_payload (s : State) : (s.drewFmtBits).payload = s.payload := rfl
@[simp] theorem State.drewFmtBits_bus (s : State) : (s.drewFmtBits).bus = s.bus := rfl
@[simp] theorem State.drewFmtBits_responses (s : State) : (s.drewFmtBits).responses = s.responses := rfl
@[simp] theorem State.drewFmtBits_port (s : State) : (s.drewFmtBits).port = s.port := rfl
@[simp] theorem State.drewFmtBits_irqPlan (s : State) : (s.drewFmtBits).irqPlan = s.irqPlan := rfl
@[simp] theorem State.drewFmtBits_peer (s : State) : (s.drewFmtBits).peer = s.peer := rfl
@[simp] theorem State.drewFmtBits_drawn (s : State) : (s.drewFmtBits).drawn = s.drawn := rfl
@[simp] theorem State.drewFmtBits_fmtDraws (s : State) : (s.drewFmtBits).fmtDraws = s.fmtDraws.tail := rfl
@[simp] theorem State.drewFmtBits_fmtDrawn (s : State) : (s.drewFmtBits).fmtDrawn = s.fmtDrawn + 1 := rfl
@[simp] theorem State.drewFmtBits_answer (s : State) (k : Nat) : (s.drewFmtBits).answer k = s.answer k := rfl
@[simp] theorem State.drewFmtBits_answers (s : State) (k n : Nat) : (s.drewFmtBits).answers k n = s.answers k n := rfl
@[simp] theorem State.drewFmtBits_frameAt (s : State) (k : Nat) (cmd : Byte) (out : List Byte) :
    (s.drewFmtBits).frameAt k cmd out = s.frameAt k cmd out := rfl
@[simp] theorem State.drewFmtBits_lookup (s : State) (m : Byte) : (s.drewFmtBits).lookup m = s.lookup m := rfl
@[simp] theorem State.drewFmtBits_decodeChannel (s : State) (f : Byte) (w : Word32) (m : Byte) :
    (s.drewFmtBits).decodeChannel f w m = s.decodeChannel f w m := rfl
@[simp] theorem State.drewFmtBits_newResolution (s : State) (f : Byte) :
    (s.drewFmtBits).newResolution f = s.newResolution f := rfl

/-! ### `State.enter` changes `busy`, `seqStep` and nothing else -/

@[simp] theorem State.enter_params (s : State) (b : Busy) : (s.enter b).params = s.params := rfl
@[simp] theorem State.enter_v (s : State) (b : Busy) : (s.enter b).v = s.v := rfl
@[simp] theorem State.enter_resolutionMax (s : State) (b : Busy) : (s.enter b).resolutionMax = s.resolutionMax := rfl
@[simp] theorem State.enter_channelsMax (s : State) (b : Busy) : (s.enter b).channelsMax = s.channelsMax := rfl
@[simp] theorem State.enter_hasIrq (s : State) (b : Busy) : (s.enter b).hasIrq = s.hasIrq := rfl
@[simp] theorem State.enter_chanValidMask (s : State) (b : Busy) : (s.enter b).chanValidMask = s.chanValidMask := rfl
@[simp] theorem State.enter_resolution (s : State) (b : Busy) : (s.enter b).resolution = s.resolution := rfl
@[simp] theorem State.enter_shadow (s : State) (b : Busy) : (s.enter b).shadow = s.shadow := rfl
@[simp] theorem State.enter_reference (s : State) (b : Busy) : (s.enter b).reference = s.reference := rfl
@[simp] theorem State.enter_status (s : State) (b : Busy) : (s.enter b).status = s.status := rfl
@[simp] theorem State.enter_sample (s : State) (b : Busy) : (s.enter b).sample = s.sample := rfl
@[simp] theorem State.enter_cache (s : State) (b : Busy) : (s.enter b).cache = s.cache := rfl
@[simp] theorem State.enter_differential (s : State) (b : Busy) : (s.enter b).differential = s.differential := rfl
@[simp] theorem State.enter_continuous (s : State) (b : Busy) : (s.enter b).continuous = s.continuous := rfl
@[simp] theorem State.enter_cs (s : State) (b : Busy) : (s.enter b).cs = s.cs := rfl
@[simp] theorem State.enter_session (s : State) (b : Busy) : (s.enter b).session = s.session := rfl
@[simp] theorem State.enter_begun (s : State) (b : Busy) : (s.enter b).begun = s.begun := rfl
@[simp] theorem State.enter_busy (s : State) (b : Busy) : (s.enter b).busy = b := rfl
@[simp] theorem State.enter_fault (s : State) (b : Busy) : (s.enter b).fault = s.fault := rfl
@[simp] theorem State.enter_seqStep (s : State) (b : Busy) : (s.enter b).seqStep = 0 := rfl
@[simp] theorem State.enter_payload (s : State) (b : Busy) : (s.enter b).payload = s.payload := rfl
@[simp] theorem State.enter_bus (s : State) (b : Busy) : (s.enter b).bus = s.bus := rfl
@[simp] theorem State.enter_responses (s : State) (b : Busy) : (s.enter b).responses = s.responses := rfl
@[simp] theorem State.enter_port (s : State) (b : Busy) : (s.enter b).port = s.port := rfl
@[simp] theorem State.enter_irqPlan (s : State) (b : Busy) : (s.enter b).irqPlan = s.irqPlan := rfl
@[simp] theorem State.enter_peer (s : State) (b : Busy) : (s.enter b).peer = s.peer := rfl
@[simp] theorem State.enter_drawn (s : State) (b : Busy) : (s.enter b).drawn = s.drawn := rfl
@[simp] theorem State.enter_fmtDraws (s : State) (b : Busy) : (s.enter b).fmtDraws = s.fmtDraws := rfl
@[simp] theorem State.enter_fmtDrawn (s : State) (b : Busy) : (s.enter b).fmtDrawn = s.fmtDrawn := rfl
@[simp] theorem State.enter_answer (s : State) (b : Busy) (k : Nat) : (s.enter b).answer k = s.answer k := rfl
@[simp] theorem State.enter_answers (s : State) (b : Busy) (k n : Nat) : (s.enter b).answers k n = s.answers k n := rfl
@[simp] theorem State.enter_frameAt (s : State) (b : Busy) (k : Nat) (cmd : Byte) (out : List Byte) :
    (s.enter b).frameAt k cmd out = s.frameAt k cmd out := rfl
@[simp] theorem State.enter_fmtAnswer (s : State) (b : Busy) : (s.enter b).fmtAnswer = s.fmtAnswer := rfl
@[simp] theorem State.enter_lookup (s : State) (b : Busy) (m : Byte) : (s.enter b).lookup m = s.lookup m := rfl
@[simp] theorem State.enter_decodeChannel (s : State) (b : Busy) (f : Byte) (w : Word32) (m : Byte) :
    (s.enter b).decodeChannel f w m = s.decodeChannel f w m := rfl
@[simp] theorem State.enter_newResolution (s : State) (b : Busy) (f : Byte) :
    (s.enter b).newResolution f = s.newResolution f := rfl

/-! ### `State.leave` changes `busy`, `seqStep`, `responses` and nothing else -/

@[simp] theorem State.leave_params (s : State) (r : Option Response) : (s.leave r).params = s.params := rfl
@[simp] theorem State.leave_v (s : State) (r : Option Response) : (s.leave r).v = s.v := rfl
@[simp] theorem State.leave_resolutionMax (s : State) (r : Option Response) : (s.leave r).resolutionMax = s.resolutionMax := rfl
@[simp] theorem State.leave_channelsMax (s : State) (r : Option Response) : (s.leave r).channelsMax = s.channelsMax := rfl
@[simp] theorem State.leave_hasIrq (s : State) (r : Option Response) : (s.leave r).hasIrq = s.hasIrq := rfl
@[simp] theorem State.leave_chanValidMask (s : State) (r : Option Response) : (s.leave r).chanValidMask = s.chanValidMask := rfl
@[simp] theorem State.leave_resolution (s : State) (r : Option Response) : (s.leave r).resolution = s.resolution := rfl
@[simp] theorem State.leave_shadow (s : State) (r : Option Response) : (s.leave r).shadow = s.shadow := rfl
@[simp] theorem State.leave_reference (s : State) (r : Option Response) : (s.leave r).reference = s.reference := rfl
@[simp] theorem State.leave_status (s : State) (r : Option Response) : (s.leave r).status = s.status := rfl
@[simp] theorem State.leave_sample (s : State) (r : Option Response) : (s.leave r).sample = s.sample := rfl
@[simp] theorem State.leave_cache (s : State) (r : Option Response) : (s.leave r).cache = s.cache := rfl
@[simp] theorem State.leave_differential (s : State) (r : Option Response) : (s.leave r).differential = s.differential := rfl
@[simp] theorem State.leave_continuous (s : State) (r : Option Response) : (s.leave r).continuous = s.continuous := rfl
@[simp] theorem State.leave_cs (s : State) (r : Option Response) : (s.leave r).cs = s.cs := rfl
@[simp] theorem State.leave_session (s : State) (r : Option Response) : (s.leave r).session = s.session := rfl
@[simp] theorem State.leave_begun (s : State) (r : Option Response) : (s.leave r).begun = s.begun := rfl
@[simp] theorem State.leave_busy (s : State) (r : Option Response) : (s.leave r).busy = .none := rfl
@[simp] theorem State.leave_fault (s : State) (r : Option Response) : (s.leave r).fault = s.fault := rfl
@[simp] theorem State.leave_seqStep (s : State) (r : Option Response) : (s.leave r).seqStep = 0 := rfl
@[simp] theorem State.leave_payload (s : State) (r : Option Response) : (s.leave r).payload = s.payload := rfl
@[simp] theorem State.leave_bus (s : State) (r : Option Response) : (s.leave r).bus = s.bus := rfl
@[simp] theorem State.leave_responses (s : State) (r : Option Response) : (s.leave r).responses = s.responses ++ r.toList := rfl
@[simp] theorem State.leave_port (s : State) (r : Option Response) : (s.leave r).port = s.port := rfl
@[simp] theorem State.leave_irqPlan (s : State) (r : Option Response) : (s.leave r).irqPlan = s.irqPlan := rfl
@[simp] theorem State.leave_peer (s : State) (r : Option Response) : (s.leave r).peer = s.peer := rfl
@[simp] theorem State.leave_drawn (s : State) (r : Option Response) : (s.leave r).drawn = s.drawn := rfl
@[simp] theorem State.leave_fmtDraws (s : State) (r : Option Response) : (s.leave r).fmtDraws = s.fmtDraws := rfl
@[simp] theorem State.leave_fmtDrawn (s : State) (r : Option Response) : (s.leave r).fmtDrawn = s.fmtDrawn := rfl
@[simp] theorem State.leave_answer (s : State) (r : Option Response) (k : Nat) : (s.leave r).answer k = s.answer k := rfl
@[simp] theorem State.leave_answers (s : State) (r : Option Response) (k n : Nat) : (s.leave r).answers k n = s.answers k n := rfl
@[simp] theorem State.leave_frameAt (s : State) (r : Option Response) (k : Nat) (cmd : Byte) (out : List Byte) :
    (s.leave r).frameAt k cmd out = s.frameAt k cmd out := rfl
@[simp] theorem State.leave_fmtAnswer (s : State) (r : Option Response) : (s.leave r).fmtAnswer = s.fmtAnswer := rfl
@[simp] theorem State.leave_lookup (s : State) (r : Option Response) (m : Byte) : (s.leave r).lookup m = s.lookup m := rfl
@[simp] theorem State.leave_decodeChannel (s : State) (r : Option Response) (f : Byte) (w : Word32) (m : Byte) :
    (s.leave r).decodeChannel f w m = s.decodeChannel f w m := rfl
@[simp] theorem State.leave_newResolution (s : State) (r : Option Response) (f : Byte) :
    (s.leave r).newResolution f = s.newResolution f := rfl

/-! ### `State.take` changes `port` and nothing else -/

@[simp] theorem State.take_params (s : State) (l : List Input) : (s.take l).params = s.params := rfl
@[simp] theorem State.take_v (s : State) (l : List Input) : (s.take l).v = s.v := rfl
@[simp] theorem State.take_resolutionMax (s : State) (l : List Input) : (s.take l).resolutionMax = s.resolutionMax := rfl
@[simp] theorem State.take_channelsMax (s : State) (l : List Input) : (s.take l).channelsMax = s.channelsMax := rfl
@[simp] theorem State.take_hasIrq (s : State) (l : List Input) : (s.take l).hasIrq = s.hasIrq := rfl
@[simp] theorem State.take_chanValidMask (s : State) (l : List Input) : (s.take l).chanValidMask = s.chanValidMask := rfl
@[simp] theorem State.take_resolution (s : State) (l : List Input) : (s.take l).resolution = s.resolution := rfl
@[simp] theorem State.take_shadow (s : State) (l : List Input) : (s.take l).shadow = s.shadow := rfl
@[simp] theorem State.take_reference (s : State) (l : List Input) : (s.take l).reference = s.reference := rfl
@[simp] theorem State.take_status (s : State) (l : List Input) : (s.take l).status = s.status := rfl
@[simp] theorem State.take_sample (s : State) (l : List Input) : (s.take l).sample = s.sample := rfl
@[simp] theorem State.take_cache (s : State) (l : List Input) : (s.take l).cache = s.cache := rfl
@[simp] theorem State.take_differential (s : State) (l : List Input) : (s.take l).differential = s.differential := rfl
@[simp] theorem State.take_continuous (s : State) (l : List Input) : (s.take l).continuous = s.continuous := rfl
@[simp] theorem State.take_cs (s : State) (l : List Input) : (s.take l).cs = s.cs := rfl
@[simp] theorem State.take_session (s : State) (l : List Input) : (s.take l).session = s.session := rfl
@[simp] theorem State.take_begun (s : State) (l : List Input) : (s.take l).begun = s.begun := rfl
@[simp] theorem State.take_busy (s : State) (l : List Input) : (s.take l).busy = s.busy := rfl
@[simp] theorem State.take_fault (s : State) (l : List Input) : (s.take l).fault = s.fault := rfl
@[simp] theorem State.take_seqStep (s : State) (l : List Input) : (s.take l).seqStep = s.seqStep := rfl
@[simp] theorem State.take_payload (s : State) (l : List Input) : (s.take l).payload = s.payload := rfl
@[simp] theorem State.take_bus (s : State) (l : List Input) : (s.take l).bus = s.bus := rfl
@[simp] theorem State.take_responses (s : State) (l : List Input) : (s.take l).responses = s.responses := rfl
@[simp] theorem State.take_port (s : State) (l : List Input) : (s.take l).port = l := rfl
@[simp] theorem State.take_irqPlan (s : State) (l : List Input) : (s.take l).irqPlan = s.irqPlan := rfl
@[simp] theorem State.take_peer (s : State) (l : List Input) : (s.take l).peer = s.peer := rfl
@[simp] theorem State.take_drawn (s : State) (l : List Input) : (s.take l).drawn = s.drawn := rfl
@[simp] theorem State.take_fmtDraws (s : State) (l : List Input) : (s.take l).fmtDraws = s.fmtDraws := rfl
@[simp] theorem State.take_fmtDrawn (s : State) (l : List Input) : (s.take l).fmtDrawn = s.fmtDrawn := rfl
@[simp] theorem State.take_answer (s : State) (l : List Input) (k : Nat) : (s.take l).answer k = s.answer k := rfl
@[simp] theorem State.take_answers (s : State) (l : List Input) (k n : Nat) : (s.take l).answers k n = s.answers k n := rfl
@[simp] theorem State.take_frameAt (s : State) (l : List Input) (k : Nat) (cmd : Byte) (out : List Byte) :
    (s.take l).frameAt k cmd out = s.frameAt k cmd out := rfl
@[simp] theorem State.take_fmtAnswer (s : State) (l : List Input) : (s.take l).fmtAnswer = s.fmtAnswer := rfl
@[simp] theorem State.take_lookup (s : State) (l : List Input) (m : Byte) : (s.take l).lookup m = s.lookup m := rfl
@[simp] theorem State.take_decodeChannel (s : State) (l : List Input) (f : Byte) (w : Word32) (m : Byte) :
    (s.take l).decodeChannel f w m = s.decodeChannel f w m := rfl
@[simp] theorem State.take_newResolution (s : State) (l : List Input) (f : Byte) :
    (s.take l).newResolution f = s.newResolution f := rfl

/-! ### `State.afterFrame` changes `cs`, `status`, `bus`, `seqStep`, `irqPlan`, `peer`, `drawn` and nothing else -/

@[simp] theorem State.afterFrame_params (s : State) (c : Byte) (o : List Byte) : (s.afterFrame c o).params = s.params := rfl
@[simp] theorem State.afterFrame_v (s : State) (c : Byte) (o : List Byte) : (s.afterFrame c o).v = s.v := rfl
@[simp] theorem State.afterFrame_resolutionMax (s : State) (c : Byte) (o : List Byte) : (s.afterFrame c o).resolutionMax = s.resolutionMax := rfl
@[simp] theorem State.afterFrame_channelsMax (s : State) (c : Byte) (o : List Byte) : (s.afterFrame c o).channelsMax = s.channelsMax := rfl
@[simp] theorem State.afterFrame_hasIrq (s : State) (c : Byte) (o : List Byte) : (s.afterFrame c o).hasIrq = s.hasIrq := rfl
@[simp] theorem State.afterFrame_chanValidMask (s : State) (c : Byte) (o : List Byte) : (s.afterFrame c o).chanValidMask = s.chanValidMask := rfl
@[simp] theorem State.afterFrame_resolution (s : State) (c : Byte) (o : List Byte) : (s.afterFrame c o).resolution = s.resolution := rfl
@[simp] theorem State.afterFrame_shadow (s : State) (c : Byte) (o : List Byte) : (s.afterFrame c o).shadow = s.shadow := rfl
@[simp] theorem State.afterFrame_reference (s : State) (c : Byte) (o : List Byte) : (s.afterFrame c o).reference = s.reference := rfl
@[simp] theorem State.afterFrame_status (s : State) (c : Byte) (o : List Byte) : (s.afterFrame c o).status = some (s.answer 0) := rfl
@[simp] theorem State.afterFrame_sample (s : State) (c : Byte) (o : List Byte) : (s.afterFrame c o).sample = s.sample := rfl
@[simp] theorem State.afterFrame_cache (s : State) (c : Byte) (o : List Byte) : (s.afterFrame c o).cache = s.cache := rfl
@[simp] theorem State.afterFrame_differential (s : State) (c : Byte) (o : List Byte) : (s.afterFrame c o).differential = s.differential := rfl
@[simp] theorem State.afterFrame_continuous (s : State) (c : Byte) (o : List Byte) : (s.afterFrame c o).continuous = s.continuous := rfl
@[simp] theorem State.afterFrame_cs (s : State) (c : Byte) (o : List Byte) : (s.afterFrame c o).cs = .driven .high := rfl
@[simp] theorem State.afterFrame_session (s : State) (c : Byte) (o : List Byte) : (s.afterFrame c o).session = s.session := rfl
@[simp] theorem State.afterFrame_begun (s : State) (c : Byte) (o : List Byte) : (s.afterFrame c o).begun = s.begun := rfl
@[simp] theorem State.afterFrame_busy (s : State) (c : Byte) (o : List Byte) : (s.afterFrame c o).busy = s.busy := rfl
@[simp] theorem State.afterFrame_fault (s : State) (c : Byte) (o : List Byte) : (s.afterFrame c o).fault = s.fault := rfl
@[simp] theorem State.afterFrame_seqStep (s : State) (c : Byte) (o : List Byte) : (s.afterFrame c o).seqStep = s.seqStep + (o.length + 3) := rfl
@[simp] theorem State.afterFrame_payload (s : State) (c : Byte) (o : List Byte) : (s.afterFrame c o).payload = s.payload := rfl
@[simp] theorem State.afterFrame_bus (s : State) (c : Byte) (o : List Byte) : (s.afterFrame c o).bus = s.bus ++ s.frameAt 0 c o := rfl
@[simp] theorem State.afterFrame_responses (s : State) (c : Byte) (o : List Byte) : (s.afterFrame c o).responses = s.responses := rfl
@[simp] theorem State.afterFrame_port (s : State) (c : Byte) (o : List Byte) : (s.afterFrame c o).port = s.port := rfl
@[simp] theorem State.afterFrame_irqPlan (s : State) (c : Byte) (o : List Byte) : (s.afterFrame c o).irqPlan = s.irqPlan.drop (s.frameBoundaries o.length) := rfl
@[simp] theorem State.afterFrame_peer (s : State) (c : Byte) (o : List Byte) : (s.afterFrame c o).peer = s.peer.drop (o.length + 1) := rfl
@[simp] theorem State.afterFrame_drawn (s : State) (c : Byte) (o : List Byte) : (s.afterFrame c o).drawn = s.drawn + (o.length + 1) := rfl
@[simp] theorem State.afterFrame_fmtDraws (s : State) (c : Byte) (o : List Byte) : (s.afterFrame c o).fmtDraws = s.fmtDraws := rfl
@[simp] theorem State.afterFrame_fmtDrawn (s : State) (c : Byte) (o : List Byte) : (s.afterFrame c o).fmtDrawn = s.fmtDrawn := rfl
@[simp] theorem State.afterFrame_fmtAnswer (s : State) (c : Byte) (o : List Byte) : (s.afterFrame c o).fmtAnswer = s.fmtAnswer := rfl
@[simp] theorem State.afterFrame_lookup (s : State) (c : Byte) (o : List Byte) (m : Byte) : (s.afterFrame c o).lookup m = s.lookup m := rfl
@[simp] theorem State.afterFrame_decodeChannel (s : State) (c : Byte) (o : List Byte) (f : Byte) (w : Word32) (m : Byte) :
    (s.afterFrame c o).decodeChannel f w m = s.decodeChannel f w m := rfl
@[simp] theorem State.afterFrame_newResolution (s : State) (c : Byte) (o : List Byte) (f : Byte) :
    (s.afterFrame c o).newResolution f = s.newResolution f := rfl

end Sys2Proof.Machine
end

