-- ==== Sys2Proof/Laws/Op.lean ====
section
/-! SUPPORT. How the operations of Machine/Ops.lean run on a state: one equation for each primitive, and one for each
way of putting operations together. -/

namespace Sys2Proof.Machine

@[simp] theorem op_bind {α β : Type} (x : Op α) (f : α → Op β) (s : State) :
    (x >>= f) s = match x s with
      | .ok a t => f a t
      | .error e t => .error e t := by
  change EStateM.bind x f s = _
  unfold EStateM.bind
  cases x s <;> rfl

/-- An operation whose first part runs to its end goes on from there. -/
theorem op_bind_ok {α β : Type} {x : Op α} {f : α → Op β} {s t : State} {a : α} (h : x s = .ok a t) :
    (x >>= f) s = f a t := by rw [op_bind, h]

/-- An operation whose first part faults stops there. -/
theorem op_bind_error {α β : Type} {x : Op α} {f : α → Op β} {s t : State} {e : Unit} (h : x s = .error e t) :
    (x >>= f) s = .error e t := by rw [op_bind, h]

@[simp] theorem op_pure {α : Type} (a : α) (s : State) : (pure a : Op α) s = .ok a s := rfl

@[simp] theorem op_map {α β : Type} (f : α → β) (x : Op α) (s : State) :
    (f <$> x) s = match x s with
      | .ok a t => .ok (f a) t
      | .error e t => .error e t := by
  change EStateM.map f x s = _
  unfold EStateM.map
  cases x s <;> rfl

@[simp] theorem look_apply {α : Type} (f : State → α) (s : State) : look f s = .ok (f s) s := rfl

@[simp] theorem update_apply (f : State → State) (s : State) : update f s = .ok () (f s) := rfl

@[simp] theorem raise_apply {α : Type} (c : FaultCode) (s : State) :
    (raise c : Op α) s = .error () (s.raise c s.busy.word) := rfl

theorem boundary_first (s : State) (h : s.seqStep = 0) : boundary s = .ok () s := by
  simp [boundary, h]

/-- Passing boundaries at which the environment presents nothing. -/
theorem boundary_quiet (s : State) (h : s.seqStep ≠ 0) (q : s.Quiet 1) : boundary s = .ok () s.passBoundary := by
  have : s.irqPlan.headD false = false := by
    rcases hp : s.irqPlan with _ | ⟨b, rest⟩
    · rfl
    · exact q b (by simp [hp])
  simp only [boundary, if_neg h, this, Bool.false_eq_true, if_false]

/-- ISR_HANDLER at a boundary inside an operation (R268). -/
theorem boundary_isr (s : State) (h : s.seqStep ≠ 0) (q : s.irqPlan.headD false = true) :
    boundary s = .error () (s.passBoundary.raise .concurrentEntry isrWord) := by
  simp only [boundary, if_neg h, q, if_true]

@[simp] theorem emit_apply (e : BusEvent) (s : State) :
    emit e s = .ok () (s.addEvent e) := rfl

@[simp] theorem drawByte_apply (s : State) :
    drawByte s = .ok (s.answer 0) s.drewByte := rfl

@[simp] theorem drawFmtBits_apply (s : State) :
    drawFmtBits s = .ok s.fmtAnswer s.drewFmtBits := rfl

theorem requireBegun_true (s : State) (h : s.begun = true) : requireBegun s = .ok () s := by
  simp [requireBegun, h]

theorem requireBegun_false (s : State) (h : s.begun = false) :
    requireBegun s = .error () (s.raise .notBegun s.busy.word) := by
  simp [requireBegun, h]

theorem readShadow_some (s : State) (sh : Shadow) (h : s.shadow = some sh) : readShadow s = .ok sh s := by
  simp [readShadow, h]

theorem writeShadow_some (f : Shadow → Shadow) (s : State) (sh : Shadow) (h : s.shadow = some sh) :
    writeShadow f s = .ok () (s.setShadow (f sh)) := by
  simp [writeShadow, readShadow_some s sh h]

theorem cacheWrite_in (i : Byte) (x : Word32) (s : State) (h : i.toNat < s.params.cacheSize) :
    cacheWrite i x s = .ok () (s.setCache i.toNat x) := by
  simp [cacheWrite, Nat.not_le.mpr h]

theorem cacheWrite_out (i : Byte) (x : Word32) (s : State) (h : s.params.cacheSize ≤ i.toNat) :
    cacheWrite i x s = .error () (s.raise .cacheIndexOutOfRange s.busy.word) := by
  simp [cacheWrite, h]

theorem cacheRead_some (i : Byte) (x : Word32) (s : State) (h : i.toNat < s.params.cacheSize)
    (hx : s.cache.getD i.toNat none = some x) : cacheRead i s = .ok x s := by
  simp only [cacheRead, op_bind, look_apply, if_neg (Nat.not_le.mpr h), op_pure, hx]

theorem cacheRead_none (i : Byte) (s : State) (h : i.toNat < s.params.cacheSize)
    (hx : s.cache.getD i.toNat none = none) :
    cacheRead i s = .error () (s.raise .unwrittenCache s.busy.word) := by
  simp only [cacheRead, op_bind, look_apply, if_neg (Nat.not_le.mpr h), hx, raise_apply]

theorem cacheRead_out (i : Byte) (s : State) (h : s.params.cacheSize ≤ i.toNat) :
    cacheRead i s = .error () (s.raise .cacheIndexOutOfRange s.busy.word) := by
  simp [cacheRead, h]

/-- What an operation can do to the state before `runOperation` ends it. -/
theorem runOperation_ok (b : Busy) (body : Op (Option Response)) (s t : State) (r : Option Response)
    (h : body (s.enter b) = .ok r t) :
    runOperation b body s = .next (t.leave r) := by
  simp [runOperation, h]

theorem runOperation_error (b : Busy) (body : Op (Option Response)) (s t : State) (e : Unit)
    (h : body (s.enter b) = .error e t) : runOperation b body s = .next t := by
  simp [runOperation, h]

theorem hostCommand_faulted (i : Instr) (body : Op Response) (s : State) (f : FaultRecord) (h : s.fault = some f) :
    hostCommand i body s = .fault (.faulted f.code f.word) := by
  simp only [hostCommand, h]

theorem isrCommand_faulted (body : Op Response) (s : State) (f : FaultRecord) (h : s.fault = some f) :
    isrCommand body s = .fault (.faulted f.code f.word) := by
  simp only [isrCommand, h]

theorem wireFrame_faulted (i : Instr) (body : Op Unit) (s : State) (f : FaultRecord) (h : s.fault = some f) :
    wireFrame i body s = .fault (.faulted f.code f.word) := by
  simp only [wireFrame, h]

/-- An idle block runs a host command (R263). -/
theorem hostCommand_idle (i : Instr) (body : Op Response) (s : State) (hs : s.Idle) :
    hostCommand i body s = runOperation (.fg i) (some <$> body) s := by
  unfold hostCommand
  rw [hs.1]
  exact if_pos hs.2

theorem isrCommand_idle (body : Op Response) (s : State) (hs : s.Idle) :
    isrCommand body s = runOperation .isr (some <$> body) s := by
  unfold isrCommand
  rw [hs.1]
  exact if_pos hs.2

theorem wireFrame_idle (i : Instr) (body : Op Unit) (s : State) (hs : s.Idle) :
    wireFrame i body s = runOperation (.fg i) ((fun _ => none) <$> body) s := by
  unfold wireFrame
  rw [hs.1]
  exact if_pos hs.2

theorem hostCommand_ok (i : Instr) (body : Op Response) (s t : State) (r : Response) (hs : s.Idle)
    (h : body (s.enter (.fg i)) = .ok r t) : hostCommand i body s = .next (t.leave (some r)) := by
  rw [hostCommand_idle i body s hs]
  exact runOperation_ok _ _ s t (some r) (by simp only [op_map, h])

theorem hostCommand_error (i : Instr) (body : Op Response) (s t : State) (e : Unit) (hs : s.Idle)
    (h : body (s.enter (.fg i)) = .error e t) : hostCommand i body s = .next t := by
  rw [hostCommand_idle i body s hs]
  exact runOperation_error _ _ s t e (by simp only [op_map, h])

theorem isrCommand_ok (body : Op Response) (s t : State) (r : Response) (hs : s.Idle)
    (h : body (s.enter .isr) = .ok r t) : isrCommand body s = .next (t.leave (some r)) := by
  rw [isrCommand_idle body s hs]
  exact runOperation_ok _ _ s t (some r) (by simp only [op_map, h])

theorem isrCommand_error (body : Op Response) (s t : State) (e : Unit) (hs : s.Idle)
    (h : body (s.enter .isr) = .error e t) : isrCommand body s = .next t := by
  rw [isrCommand_idle body s hs]
  exact runOperation_error _ _ s t e (by simp only [op_map, h])

theorem wireFrame_ok (i : Instr) (body : Op Unit) (s t : State) (u : Unit) (hs : s.Idle)
    (h : body (s.enter (.fg i)) = .ok u t) :
    wireFrame i body s = .next (t.leave none) := by
  rw [wireFrame_idle i body s hs]
  exact runOperation_ok _ _ s t none (by simp only [op_map, h])

/-- Quietness is inherited by the boundaries that are left. -/
theorem State.Quiet.mono {s : State} {m n : Nat} (q : s.Quiet n) (h : m ≤ n) : s.Quiet m := fun b hb =>
  q b ((List.take_subset_take_left s.irqPlan h) hb)

theorem quiet_drop {s t : State} {k n : Nat} (q : s.Quiet (k + n)) (h : t.irqPlan = s.irqPlan.drop k) :
    t.Quiet n := by
  intro b hb
  rw [h] at hb
  apply q b
  rw [List.take_add]
  exact List.mem_append_right _ hb

end Sys2Proof.Machine
end

