-- ==== Sys2Proof/Laws/Frame.lean ====
section
/-! SUPPORT. The frame skeleton (41_bus_frames R120) in a quiet environment: one closed form, which every operation
that touches the bus cites instead of unfolding the frame. -/

namespace Sys2Proof.Machine

/-! ### The peer's answers -/

/-- What is left of the answers after `n` of them. -/
theorem answer_drop (s t : State) (n k : Nat) (hp : t.peer = s.peer.drop n) (hd : t.drawn = s.drawn + n) :
    t.answer k = s.answer (n + k) := by
  simp only [State.answer, hp, hd, List.getD_eq_getElem?_getD, List.getElem?_drop, Nat.add_assoc]

theorem answers_drop (s t : State) (m n k : Nat) (hp : t.peer = s.peer.drop n) (hd : t.drawn = s.drawn + n) :
    t.answers k m = s.answers (n + k) m := by
  simp only [State.answers, answer_drop s t n _ hp hd, Nat.add_assoc]

@[simp] theorem drewByte_answer (s : State) (k : Nat) : s.drewByte.answer k = s.answer (1 + k) :=
  answer_drop s _ 1 k (by simp) rfl

@[simp] theorem drewByte_answers (s : State) (k n : Nat) : s.drewByte.answers k n = s.answers (1 + k) n :=
  answers_drop s _ n 1 k (by simp) rfl

@[simp] theorem answers_length (s : State) (k n : Nat) : (s.answers k n).length = n := by
  simp [State.answers]

@[simp] theorem answers_zero (s : State) (k : Nat) : s.answers k 0 = [] := rfl

theorem answers_succ (s : State) (k n : Nat) : s.answers k (n + 1) = s.answer k :: s.answers (1 + k) n := by
  simp [State.answers, List.range_succ_eq_map, Function.comp_def, Nat.add_comm, Nat.add_left_comm]

@[simp] theorem afterFrame_answer (s : State) (c : Byte) (o : List Byte) (k : Nat) :
    (s.afterFrame c o).answer k = s.answer (o.length + 1 + k) := answer_drop s _ _ k rfl rfl

@[simp] theorem afterFrame_answers (s : State) (c : Byte) (o : List Byte) (k n : Nat) :
    (s.afterFrame c o).answers k n = s.answers (o.length + 1 + k) n := answers_drop s _ _ _ k rfl rfl

theorem frameAt_drop (s t : State) (n k : Nat) (cmd : Byte) (out : List Byte) (hp : t.peer = s.peer.drop n)
    (hd : t.drawn = s.drawn + n) : t.frameAt k cmd out = s.frameAt (n + k) cmd out := by
  simp only [State.frameAt, answer_drop s t n _ hp hd, answers_drop s t _ n _ hp hd, Nat.add_assoc]

@[simp] theorem afterFrame_frameAt (s : State) (c : Byte) (o : List Byte) (k : Nat) (cmd : Byte) (out : List Byte) :
    (s.afterFrame c o).frameAt k cmd out = s.frameAt (o.length + 1 + k) cmd out := frameAt_drop s _ _ k cmd out rfl rfl

/-! ### Bus events -/

/-- A chip-select event that nothing disturbs, not the first of its operation. -/
theorem driveCs_quiet (l : Level) (s : State) (h : s.seqStep ≠ 0) (q : s.Quiet 1) :
    driveCs l s = .ok () (s.passBoundary.addEvent (.cs l)) := by
  simp only [driveCs, op_bind, boundary_quiet s h q, emit_apply]

/-- The first event of an operation, a chip-select level. -/
theorem driveCs_first (l : Level) (s : State) (h : s.seqStep = 0) :
    driveCs l s = .ok () (s.addEvent (.cs l)) := by
  simp only [driveCs, op_bind, boundary_first s h, emit_apply]

/-- A byte exchange that nothing disturbs, not the first event of its operation. -/
theorem xfer_quiet (b : Byte) (s : State) (h : s.seqStep ≠ 0) (q : s.Quiet 1) :
    xfer b s = .ok (s.answer 0) (s.passBoundary.drewByte.addEvent (.xfer b (s.answer 0))) := by
  simp only [xfer, op_bind, boundary_quiet s h q, drawByte_apply, emit_apply, op_pure, State.passBoundary_answer]

/-- The state after the undisturbed payload exchanges of a frame. -/
def State.afterExchange (s : State) (out : List Byte) : State :=
  { s with
    irqPlan := s.irqPlan.drop out.length
    bus := s.bus ++ List.zipWith .xfer out (s.answers 0 out.length)
    seqStep := s.seqStep + out.length
    peer := s.peer.drop out.length
    drawn := s.drawn + out.length }

/-- The payload exchanges of an undisturbed frame. -/
theorem exchange_quiet (out : List Byte) (s : State) (h : s.seqStep ≠ 0) (q : s.Quiet out.length) :
    exchange out s = .ok (s.answers 0 out.length) (s.afterExchange out) := by
  induction out generalizing s with
  | nil =>
    simp only [exchange, op_pure, List.length_nil, answers_zero]
    refine congrArg _ ?_
    cases s
    simp [State.afterExchange]
  | cons b rest ih =>
    rw [List.length_cons, Nat.add_comm] at q
    simp only [exchange, op_bind, xfer_quiet b s h (q.mono (Nat.le_add_right _ _))]
    rw [ih _ (by simp) (quiet_drop q (by simp))]
    simp only [op_pure, List.length_cons, answers_succ, State.addEvent_answers, drewByte_answers,
      State.passBoundary_answers, Nat.add_zero]
    refine congrArg _ ?_
    rw [Nat.add_comm] at q
    cases s
    simp [State.afterExchange, State.passBoundary, State.drewByte, State.addEvent, State.answers,
      List.range_succ_eq_map, Function.comp_def, State.answer, Nat.add_assoc, Nat.add_comm 1]

/-- The exchanges and the release of chip-select, in a quiet environment. -/
theorem exchange_release_quiet (out : List Byte) (s : State) (h : s.seqStep ≠ 0) (q : s.Quiet (out.length + 1)) :
    exchange out s = .ok (s.answers 0 out.length) (s.afterExchange out) ∧
    driveCs .high (s.afterExchange out) = .ok () ((s.afterExchange out).passBoundary.addEvent (.cs .high)) :=
  ⟨exchange_quiet out s h (q.mono (Nat.le_succ _)),
    driveCs_quiet _ _ (by simp [State.afterExchange, h]) (quiet_drop q rfl)⟩

/-- The updates of an undisturbed frame, in order, from the state in which chip-select was asserted. -/
def State.frameUpdates (u : State) (outer : Bool) (cmd : Byte) (out : List Byte) : State :=
  (((((u.setCs .low).passBoundary.drewByte.addEvent (.xfer cmd (u.answer 0))).setStatus (u.answer 0)).afterExchange
    out).passBoundary.addEvent (.cs .high)).setCs .high |>.setSession outer

theorem frame_run (cmd : Byte) (out : List Byte) (s u : State) (hu : u.seqStep ≠ 0) (q : u.Quiet (out.length + 2))
    (hs : driveCs .low (s.setSession true) = .ok () u) :
    frame cmd out s = .ok (u.answers 1 out.length) (u.frameUpdates s.session cmd out) := by
  have hx := xfer_quiet cmd (u.setCs .low) hu (q.mono (by omega))
  have he := exchange_release_quiet out
    (((u.setCs .low).passBoundary.drewByte.addEvent (.xfer cmd (u.answer 0))).setStatus (u.answer 0))
    (by simp) (quiet_drop (s := u) (k := 1) (q.mono (by omega)) (by simp))
  simp only [frame, op_bind, look_apply, update_apply, hs, hx, State.setCs_answer, he.1, he.2, op_pure]
  simp [State.frameUpdates]

/-- The frame skeleton in a quiet environment: the received payload bytes, and the closed form of the state. -/
theorem frame_quiet (cmd : Byte) (out : List Byte) (s : State) (q : s.Quiet (s.frameBoundaries out.length)) :
    frame cmd out s = .ok (s.answers 1 out.length) (s.afterFrame cmd out) := by
  by_cases h0 : s.seqStep = 0
  · have qb : s.frameBoundaries out.length = out.length + 2 := by simp only [State.frameBoundaries, h0, if_true]
    rw [frame_run cmd out s _ (by simp) (qb ▸ q) (driveCs_first _ (s.setSession true) h0)]
    simp only [State.addEvent_answers, State.setSession_answers]
    refine congrArg _ ?_
    simp only [State.afterFrame, qb]
    cases s
    simp_all [State.frameUpdates, State.afterExchange, State.frameAt, State.setSession, State.setCs,
      State.passBoundary, State.drewByte, State.addEvent, State.setStatus, State.answers, State.answer, List.tail_drop,
      Nat.add_comm, Nat.add_left_comm]
    omega
  · have qb : s.frameBoundaries out.length = 1 + (out.length + 2) := by
      simp only [State.frameBoundaries, h0, if_false]; omega
    rw [frame_run cmd out s _ (by simp) (quiet_drop (qb ▸ q) (by simp))
      (driveCs_quiet _ (s.setSession true) h0 ((qb ▸ q : s.Quiet _).mono (by omega)))]
    simp only [State.addEvent_answers, State.passBoundary_answers, State.setSession_answers]
    refine congrArg _ ?_
    simp only [State.afterFrame, qb]
    cases s
    simp_all [State.frameUpdates, State.afterExchange, State.frameAt, State.setSession, State.setCs,
      State.passBoundary, State.drewByte, State.addEvent, State.setStatus, State.answers, State.answer, List.tail_drop,
      Nat.add_comm, Nat.add_left_comm]
    omega

end Sys2Proof.Machine
end

