-- ==== Sys2Proof/Laws/Bus.lean ====
section
/-! SUPPORT. The bus operations built on the frame, in a quiet environment (41_bus_frames R121 to R126, 42 R140). -/

namespace Sys2Proof.Machine

theorem frameRreg_quiet (a n : Nat) (s : State) (q : s.Quiet (s.frameBoundaries n)) :
    frameRreg a n s = .ok (s.answers 1 n)
      ((s.afterFrame (s.params.cmdByte .read a) (List.replicate n 0#8)).setPayload (s.answers 1 n)) := by
  have h := frame_quiet (s.params.cmdByte .read a) (List.replicate n 0#8) s (by simpa using q)
  rw [List.length_replicate] at h
  simp only [frameRreg, op_bind, look_apply, h, update_apply, op_pure]

theorem frameWreg_quiet (a : Nat) (x : List Byte) (s : State) (q : s.Quiet (s.frameBoundaries x.length)) :
    frameWreg a x s = .ok () (s.afterFrame (s.params.cmdByte .write a) x) := by
  simp only [frameWreg, op_bind, look_apply, frame_quiet _ x s q, op_pure]

theorem frameFast_quiet (f : FastCmd) (s : State) (q : s.Quiet (s.frameBoundaries 0)) :
    frameFast f s = .ok () (s.afterFast f) := by
  simp only [frameFast, op_bind, look_apply, frame_quiet _ [] s q, op_pure, State.afterFast]

theorem writeReg_quiet (r : Reg) (s : State) (sh : Shadow) (h : s.shadow = some sh)
    (q : s.Quiet (s.frameBoundaries (sh.image r).length)) : writeReg r s = .ok () (s.afterWriteReg r sh) := by
  simp only [writeReg, op_bind, readShadow_some s sh h, look_apply, frameWreg_quiet _ _ s q, State.afterWriteReg]

theorem readSample_quiet (s : State) (sh : Shadow) (h : s.shadow = some sh)
    (q : s.Quiet (s.frameBoundaries (sampleWidth sh.fmtCode))) :
    readSample s = .ok
      (s.decodeChannel sh.fmtCode (s.nextWord (sampleWidth sh.fmtCode)) sh.imgMux,
        decodeValue sh.fmtCode (s.nextWord (sampleWidth sh.fmtCode)))
      (s.afterSample (sampleWidth sh.fmtCode)) := by
  simp only [readSample, op_bind, readShadow_some s sh h, look_apply, frameRreg_quiet _ _ s q, update_apply, op_pure,
    State.afterSample, State.nextWord, State.setSample_decodeChannel, State.setPayload_decodeChannel,
    State.afterFrame_decodeChannel]

/-- The setter pattern (R180) in a quiet environment. -/
theorem setter_quiet (write : Layout → Shadow → Shadow) (r : Reg) (s : State) (sh : Shadow) (hb : s.begun = true)
    (h : s.shadow = some sh) (q : s.Quiet (s.frameBoundaries ((write s.params.layout sh).image r).length)) :
    setter write r s = .ok { status := some (s.answer 0) }
      ((s.setShadow (write s.params.layout sh)).afterWriteReg r (write s.params.layout sh)) := by
  simp only [setter, op_bind, requireBegun_true s hb, look_apply, writeShadow_some _ s sh h,
    writeReg_quiet r _ _ (State.setShadow_shadow s (write s.params.layout sh)) q, op_pure, State.afterWriteReg,
    State.afterFrame_status, State.setShadow_answer]

end Sys2Proof.Machine
end

