-- ==== Sys2Proof/Laws/Image.lean ====
section
/-! SUPPORT. The register images and their views (10_state R27): what a write of a view reads as, and the lengths the
writes keep. -/

namespace Sys2Proof

@[simp] theorem Params.addrOf_adcdata (p : Params) : p.addrOf .adcdata = p.addr.adcdata := rfl
@[simp] theorem Params.addrOf_config0 (p : Params) : p.addrOf .config0 = p.addr.config0 := rfl
@[simp] theorem Params.addrOf_config3 (p : Params) : p.addrOf .config3 = p.addr.config3 := rfl
@[simp] theorem Params.addrOf_mux (p : Params) : p.addrOf .mux = p.addr.mux := rfl
@[simp] theorem Params.addrOf_scan (p : Params) : p.addrOf .scan = p.addr.scan := rfl
@[simp] theorem Params.addrOf_lock (p : Params) : p.addrOf .lock = p.addr.lock := rfl

end Sys2Proof

namespace Sys2Proof.Machine

@[simp] theorem Shadow.image_config0 (sh : Shadow) : sh.image .config0 = [sh.imgCfg0] := rfl
@[simp] theorem Shadow.image_config3 (sh : Shadow) : sh.image .config3 = [sh.imgCfg3] := rfl
@[simp] theorem Shadow.image_mux (sh : Shadow) : sh.image .mux = [sh.imgMux] := rfl
@[simp] theorem Shadow.image_scan (sh : Shadow) : sh.image .scan = sh.imgScan := rfl
@[simp] theorem Shadow.image_lock (sh : Shadow) : sh.image .lock = [sh.imgLock] := rfl

/-- Writing a bit of an image keeps its width (R27). -/
@[simp] theorem setImageBit_length (img : List Byte) (k : Nat) (x : Bool) :
    (setImageBit img k x).length = img.length := by
  simp [setImageBit]

@[simp] theorem Shadow.setScanMask_length (sh : Shadow) (l : Layout) (i : Nat) (x : Bool) :
    (sh.setScanMask l i x).imgScan.length = sh.imgScan.length := setImageBit_length _ _ _

end Sys2Proof.Machine
end

