-- ==== Sys2Proof/Laws/Setters.lean ====
section
/-! SUPPORT. The setters that are more than the shared pattern, in a quiet environment: one equation for each way
they can go (44_setters R181 to R183, R191 to R195). -/

namespace Sys2Proof.Machine

/-- SET_DATA_FORMAT with a recognized code (R181). -/
theorem setDataFormatOp_known (f : Byte) (s : State) (sh : Shadow) (hb : s.begun = true) (h : s.shadow = some sh)
    (hf : f.toNat ≤ 3) (q : s.Quiet (s.frameBoundaries 1)) :
    setDataFormatOp f s = .ok { status := some (s.answer 0) }
      (((s.setShadow (Shadow.setFmtBits s.params.layout (f.setWidth 2) { sh with fmtCode := f })).afterWriteReg .config3
        (Shadow.setFmtBits s.params.layout (f.setWidth 2) { sh with fmtCode := f })).setResolution
          (s.newResolution f)) := by
  have hw := writeReg_quiet .config3
    (s.setShadow (Shadow.setFmtBits s.params.layout (f.setWidth 2) { sh with fmtCode := f })) _ rfl q
  simp only [setDataFormatOp, op_bind, requireBegun_true s hb, look_apply, writeShadow_some _ s sh h, if_pos hf,
    writeShadow_some _ _ _ (State.setShadow_shadow s _)]
  simp only [show (s.setShadow { sh with fmtCode := f }).setShadow
      (Shadow.setFmtBits s.params.layout (f.setWidth 2) { sh with fmtCode := f }) =
    s.setShadow (Shadow.setFmtBits s.params.layout (f.setWidth 2) { sh with fmtCode := f }) from rfl, hw,
    update_apply, op_pure]
  rfl

/-- SET_DATA_FORMAT with an unrecognized code: the wire bits are drawn (R181, R182). -/
theorem setDataFormatOp_unknown (f : Byte) (s : State) (sh : Shadow) (hb : s.begun = true) (h : s.shadow = some sh)
    (hf : 4 ≤ f.toNat) (q : s.Quiet (s.frameBoundaries 1)) :
    setDataFormatOp f s = .ok { status := some (s.answer 0) }
      (((s.drewFmtBits.setShadow
        (Shadow.setFmtBits s.params.layout s.fmtAnswer { sh with fmtCode := f })).afterWriteReg .config3
          (Shadow.setFmtBits s.params.layout s.fmtAnswer { sh with fmtCode := f })).setResolution
            (s.newResolution f)) := by
  have hw := writeReg_quiet .config3
    (s.drewFmtBits.setShadow (Shadow.setFmtBits s.params.layout s.fmtAnswer { sh with fmtCode := f })) _ rfl q
  simp only [setDataFormatOp, op_bind, requireBegun_true s hb, look_apply, writeShadow_some _ s sh h,
    if_neg (show ¬ f.toNat ≤ 3 by omega), drawFmtBits_apply, State.setShadow_fmtAnswer]
  rw [writeShadow_some _ (s.setShadow { sh with fmtCode := f }).drewFmtBits _ rfl]
  simp only [show (s.setShadow { sh with fmtCode := f }).drewFmtBits.setShadow
      (Shadow.setFmtBits s.params.layout s.fmtAnswer { sh with fmtCode := f }) =
    s.drewFmtBits.setShadow (Shadow.setFmtBits s.params.layout s.fmtAnswer { sh with fmtCode := f }) from rfl, hw,
    update_apply, op_pure]
  rfl

/-- A scan setter whose selector is in the table (R191, R192). -/
theorem scanChannelOp_found (sel : Byte) (x : Bool) (s : State) (sh : Shadow) (hb : s.begun = true)
    (h : s.shadow = some sh) (hl : s.lookup sel ≠ noChannel) (q : s.Quiet (s.frameBoundaries sh.imgScan.length)) :
    scanChannelOp sel x s = .ok { status := some (s.answer 0) }
      ((s.setShadow (sh.setScanMask s.params.layout (s.lookup sel).toNat x)).afterWriteReg .scan
        (sh.setScanMask s.params.layout (s.lookup sel).toNat x)) := by
  have hw := writeReg_quiet .scan (s.setShadow (sh.setScanMask s.params.layout (s.lookup sel).toNat x)) _ rfl
    (by rw [Shadow.image_scan, Shadow.setScanMask_length]; exact q)
  simp only [scanChannelOp, op_bind, requireBegun_true s hb, look_apply, if_neg hl, op_pure,
    writeShadow_some _ s sh h, hw]
  rfl

/-- A scan setter whose selector is not in the table stops before any change (R191, R192). -/
theorem scanChannelOp_notFound (sel : Byte) (x : Bool) (s : State) (hb : s.begun = true)
    (hl : s.lookup sel = noChannel) :
    scanChannelOp sel x s = .error () (s.raise .channelNotFound s.busy.word) := by
  simp only [scanChannelOp, op_bind, requireBegun_true s hb, look_apply, if_pos hl, raise_apply]

/-- SET_REFERENCE 0 (R194, R195). -/
theorem setReferenceOp_zero (s : State) (sh : Shadow) (hb : s.begun = true) (h : s.shadow = some sh)
    (q : s.Quiet (s.frameBoundaries 1)) :
    setReferenceOp 0#32 s = .ok { status := some (s.answer 0) }
      (((s.setReference 2400#32).setShadow (sh.setVrefSel s.params.layout true)).afterWriteReg .config0
        (sh.setVrefSel s.params.layout true)) := by
  have hw := writeReg_quiet .config0
    ((s.setReference 2400#32).setShadow (sh.setVrefSel s.params.layout true)) _ rfl q
  have hs : writeShadow (Shadow.setVrefSel (s.setReference 2400#32).params.layout true) (s.setReference 2400#32) =
      .ok () ((s.setReference 2400#32).setShadow (sh.setVrefSel s.params.layout true)) :=
    writeShadow_some _ (s.setReference _) sh h
  simp only [setReferenceOp, if_true, op_bind, requireBegun_true s hb, update_apply, look_apply, Config.internalRefMv,
    hs, hw, op_pure]
  rfl

/-- SET_REFERENCE with a nonzero value (R194). -/
theorem setReferenceOp_nonzero (r : Word32) (s : State) (hr : r ≠ 0#32) :
    setReferenceOp r s = .ok { status := s.status } (s.setReference r) := by
  simp only [setReferenceOp, if_neg hr, op_bind, update_apply, look_apply, op_pure, State.setReference_status]

end Sys2Proof.Machine
end

