-- ==== Sys2Proof/Laws/Begin.lean ====
section
/-! SUPPORT. The parts of BEGIN (40_begin R100) in a quiet environment, each by the states it passes. -/

namespace Sys2Proof.Machine

/-- The state of BEGIN before the clock selection: session open, reset sent, defaults loaded, begun. -/
def State.afterLoad (s : State) : State :=
  (((((s.setCs .high).addEvent (.cs .high)).setSession true).afterFast .reset).setShadow
    (defaultShadow s.params)).setBegun

/-- The shadow after the clock selection. -/
def clockShadow (p : Params) : Shadow := (defaultShadow p).setClkSel p.layout p.clkInternal

/-- The state of BEGIN at the mode branch. -/
def State.afterClock (s : State) : State :=
  (s.afterLoad.setShadow (clockShadow s.params)).afterWriteReg .config0 (clockShadow s.params)

theorem afterLoad_params (s : State) : s.afterLoad.params = s.params := by
  simp [State.afterLoad, State.afterFast]

theorem afterClock_hasIrq (s : State) : s.afterClock.hasIrq = s.hasIrq := by
  simp [State.afterClock, State.afterWriteReg, State.afterLoad, State.afterFast]

theorem afterClock_seqStep (s : State) (h : s.seqStep = 0) : s.afterClock.seqStep = 8 := by
  simp [State.afterClock, State.afterWriteReg, State.afterLoad, State.afterFast, h]

theorem afterClock_irqPlan (s : State) (h : s.seqStep = 0) : s.afterClock.irqPlan = s.irqPlan.drop 7 := by
  simp [State.afterClock, State.afterWriteReg, State.afterLoad, State.afterFast, h, State.frameBoundaries]

/-- The shadow after the format setter of BEGIN, over `sh`. -/
def formatShadow (p : Params) (f : Byte) (sh : Shadow) : Shadow :=
  Shadow.setFmtBits p.layout (f.setWidth 2) { sh with fmtCode := f }

/-- The state after SET_DATA_FORMAT with a recognized code, over the shadow `sh`. -/
def State.afterFormat (s : State) (f : Byte) (sh : Shadow) : State :=
  ((s.setShadow (formatShadow s.params f sh)).afterWriteReg .config3 (formatShadow s.params f sh)).setResolution
    (s.newResolution f)

/-- The state after the interrupt-mode branch of BEGIN, over the shadow `sh`. -/
def State.afterInterruptBranch (s : State) (sh : Shadow) : State :=
  let cont := (formatShadow s.params 3#8 sh).setConvMode s.params.layout s.params.convContinuous
  (((s.afterFormat 3#8 sh).setShadow cont).afterWriteReg .config3 cont).afterFast .convStart

/-- The state after the polled-mode branch of BEGIN with a nonzero reference held, over the shadow `sh`. -/
def State.afterPolledHeld (s : State) (sh : Shadow) : State :=
  ((s.afterFormat 0#8 sh).setReference s.reference).afterFast .standby

/-- The state after the polled-mode branch of BEGIN with no reference held, over the shadow `sh`. -/
def State.afterPolledZero (s : State) (sh : Shadow) : State :=
  let ref := (formatShadow s.params 0#8 sh).setVrefSel s.params.layout true
  ((((s.afterFormat 0#8 sh).setReference 2400#32).setShadow ref).afterWriteReg .config0 ref).afterFast .standby

theorem afterFormat_irqPlan (s : State) (f : Byte) (sh : Shadow) (h : s.seqStep ≠ 0) :
    (s.afterFormat f sh).irqPlan = s.irqPlan.drop 4 := by
  simp [State.afterFormat, State.afterWriteReg, State.frameBoundaries, h]

theorem afterFormat_seqStep (s : State) (f : Byte) (sh : Shadow) : (s.afterFormat f sh).seqStep = s.seqStep + 4 := by
  simp [State.afterFormat, State.afterWriteReg]

theorem beginInterrupt_quiet (s : State) (sh : Shadow) (hb : s.begun = true) (h : s.shadow = some sh)
    (h0 : s.seqStep ≠ 0) (q : s.Quiet 11) : beginInterrupt s = .ok () (s.afterInterruptBranch sh) := by
  have hf := setDataFormatOp_known 3#8 s sh hb h (by decide) (q.mono (by simp [State.frameBoundaries, h0]))
  have hm := setter_quiet (Shadow.setConvMode · s.params.convContinuous) .config3 (s.afterFormat 3#8 sh)
    (formatShadow s.params 3#8 sh) hb rfl
    (quiet_drop (s := s) (k := 4) (q.mono (by simp [State.frameBoundaries, afterFormat_seqStep]))
      (afterFormat_irqPlan s _ sh h0))
  have hc := frameFast_quiet .convStart (((s.afterFormat 3#8 sh).setShadow
      ((formatShadow s.params 3#8 sh).setConvMode s.params.layout s.params.convContinuous)).afterWriteReg .config3
        ((formatShadow s.params 3#8 sh).setConvMode s.params.layout s.params.convContinuous))
    (quiet_drop (s := s) (k := 8) (q.mono (by simp [State.frameBoundaries, State.afterWriteReg, afterFormat_seqStep]))
      (by simp [State.frameBoundaries, State.afterWriteReg, afterFormat_seqStep, afterFormat_irqPlan s _ sh h0]))
  rw [beginInterrupt, op_bind_ok (look_apply (·.params) s)]
  exact (op_bind_ok hf).trans ((op_bind_ok hm).trans hc)

theorem beginPolled_held (s : State) (sh : Shadow) (hb : s.begun = true) (h : s.shadow = some sh)
    (h0 : s.seqStep ≠ 0) (hr : s.reference ≠ 0#32) (q : s.Quiet 7) :
    beginPolled s = .ok () (s.afterPolledHeld sh) := by
  have hf := setDataFormatOp_known 0#8 s sh hb h (by decide) (q.mono (by simp [State.frameBoundaries, h0]))
  have hm := setReferenceOp_nonzero s.reference (s.afterFormat 0#8 sh) hr
  have hc := frameFast_quiet .standby ((s.afterFormat 0#8 sh).setReference s.reference)
    (quiet_drop (s := s) (k := 4) (q.mono (by simp [State.frameBoundaries, afterFormat_seqStep]))
      (afterFormat_irqPlan s _ sh h0))
  rw [beginPolled]
  exact (op_bind_ok hf).trans ((op_bind_ok (look_apply (·.reference) _)).trans ((op_bind_ok hm).trans hc))

theorem beginPolled_zero (s : State) (sh : Shadow) (hb : s.begun = true) (h : s.shadow = some sh)
    (h0 : s.seqStep ≠ 0) (hr : s.reference = 0#32) (q : s.Quiet 11) :
    beginPolled s = .ok () (s.afterPolledZero sh) := by
  have hf := setDataFormatOp_known 0#8 s sh hb h (by decide) (q.mono (by simp [State.frameBoundaries, h0]))
  have hm := setReferenceOp_zero (s.afterFormat 0#8 sh) (formatShadow s.params 0#8 sh) hb rfl
    (quiet_drop (s := s) (k := 4) (q.mono (by simp [State.frameBoundaries, afterFormat_seqStep]))
      (afterFormat_irqPlan s _ sh h0))
  rw [← show (s.afterFormat 0#8 sh).reference = 0#32 from hr] at hm
  have hc := frameFast_quiet .standby ((((s.afterFormat 0#8 sh).setReference 2400#32).setShadow
      ((formatShadow s.params 0#8 sh).setVrefSel s.params.layout true)).afterWriteReg .config0
        ((formatShadow s.params 0#8 sh).setVrefSel s.params.layout true))
    (quiet_drop (s := s) (k := 8) (q.mono (by simp [State.frameBoundaries, State.afterWriteReg, afterFormat_seqStep]))
      (by simp [State.frameBoundaries, State.afterWriteReg, afterFormat_seqStep, afterFormat_irqPlan s _ sh h0]))
  rw [beginPolled]
  exact (op_bind_ok hf).trans ((op_bind_ok (look_apply (·.reference) _)).trans ((op_bind_ok hm).trans hc))

/-- BEGIN up to the mode branch, as one equation: the rest runs from `afterClock`. -/
theorem beginOp_prefix (s : State) (h0 : s.seqStep = 0) (q : s.Quiet 7) :
    beginOp s =
      (do
        if s.hasIrq then beginInterrupt else beginPolled
        update (·.setSession false)
        return { ok := some true, status := ← look (·.status) } : Op Response) s.afterClock := by
  have hc := driveCs_first .high (s.setCs .high) h0
  have hf := frameFast_quiet .reset (((s.setCs .high).addEvent (.cs .high)).setSession true)
    (quiet_drop (s := s) (k := 0) (q.mono (by simp [State.frameBoundaries])) (by simp))
  have hk : setClockSelectionOp s.params.clkInternal s.afterLoad = .ok { status := some (s.afterLoad.answer 0) }
      s.afterClock :=
    setter_quiet (Shadow.setClkSel · s.params.clkInternal) .config0 s.afterLoad (defaultShadow s.params) rfl rfl
      (quiet_drop (s := s) (k := 3)
        (q.mono (by simp [State.frameBoundaries, State.afterLoad, State.afterFast]))
        (by simp [State.afterLoad, State.afterFast, State.frameBoundaries]))
  rw [beginOp, loadDefaults, op_bind_ok (update_apply (·.setCs .high) s), op_bind_ok hc,
    op_bind_ok (update_apply (·.setSession true) _), op_bind_ok hf, op_bind_ok (update_apply _ _),
    op_bind_ok (update_apply (·.setBegun) _), op_bind_ok (look_apply (·.params) _)]
  change (setClockSelectionOp s.afterLoad.params.clkInternal >>= _) s.afterLoad = _
  rw [afterLoad_params]
  refine (op_bind_ok hk).trans ?_
  rw [← afterClock_hasIrq]
  exact op_bind_ok (look_apply (·.hasIrq) _)

end Sys2Proof.Machine
end

