-- ==== Sys2Proof/Laws/Conversion.lean ====
section
/-! SUPPORT. The conversion sequence (45_conversion R210) in a quiet environment. -/

namespace Sys2Proof.Machine

/-- The state after the three frames of an undisturbed conversion, before the cache store. -/
def State.afterConversion (s : State) (sh : Shadow) (sel : Byte) : State :=
  (((s.setShadow { sh with imgMux := sel }).afterWriteReg .mux { sh with imgMux := sel }).afterFast
    .convStart).afterSample (sampleWidth sh.fmtCode)

/-- The sample word of an undisturbed conversion: the answers after the first four. -/
def State.convWord (s : State) (sh : Shadow) : Word32 := assembleBytes (s.answers 4 (sampleWidth sh.fmtCode))

/-- The boundaries of the three frames of a conversion. -/
theorem analogRead_frames (sel : Byte) (s : State) (sh : Shadow) (hb : s.begun = true) (h : s.shadow = some sh)
    (h0 : s.seqStep = 0) (q : s.Quiet (sampleWidth sh.fmtCode + 9)) :
    analogReadOp sel s =
      (do
        cacheWrite (s.decodeChannel sh.fmtCode (s.convWord sh) sel) (decodeValue sh.fmtCode (s.convWord sh))
        return { value := some (decodeValue sh.fmtCode (s.convWord sh)) } : Op Response) (s.afterConversion sh sel) := by
  have hw := writeReg_quiet .mux (s.setShadow { sh with imgMux := sel }) _ rfl
    (by rw [State.frameBoundaries, State.setShadow_seqStep, if_pos h0]; exact q.mono (by simp))
  have hf := frameFast_quiet .convStart
    ((s.setShadow { sh with imgMux := sel }).afterWriteReg .mux { sh with imgMux := sel })
    (quiet_drop (s := s) (k := 3) (q.mono (by simp [State.frameBoundaries, State.afterWriteReg]))
      (by simp [State.afterWriteReg, State.frameBoundaries, h0]))
  have hr := readSample_quiet
    (((s.setShadow { sh with imgMux := sel }).afterWriteReg .mux { sh with imgMux := sel }).afterFast .convStart)
    { sh with imgMux := sel } rfl
    (quiet_drop (s := s) (k := 6)
      (q.mono (by simp [State.frameBoundaries, State.afterWriteReg, State.afterFast]; omega))
      (by simp [State.afterWriteReg, State.afterFast, State.frameBoundaries, h0]))
  simp only [analogReadOp, op_bind, requireBegun_true s hb, writeShadow_some _ s sh h, hw, hf, hr]
  simp only [State.nextWord, State.afterFast, State.afterWriteReg, afterFrame_answers, State.afterFrame_decodeChannel,
    State.setShadow_decodeChannel, State.setShadow_answers, Shadow.image_mux, List.length_cons, List.length_nil,
    State.afterConversion, State.convWord, op_pure]

end Sys2Proof.Machine
end

