-- ==== Sys2Proof/Laws/Encoding.lean ====
section
/-! SUPPORT. The fields of an encoded word (30_encoding R80, R85), and the command bytes of admitted parameters, which
differ (R87), with the search among them. -/

namespace Sys2Proof

theorem opField_append (op : Byte) (arg : Word32) : opField (op ++ arg) = op := by
  apply BitVec.eq_of_toNat_eq
  have h := arg.isLt
  have h' := op.isLt
  simp only [opField, BitVec.extractLsb'_toNat, BitVec.toNat_append, Nat.shiftLeft_eq, Nat.shiftRight_eq_div_pow]
  rw [Nat.mul_comm, ← Nat.two_pow_add_eq_or_of_lt h]
  omega

theorem argField_append (op : Byte) (arg : Word32) : argField (op ++ arg) = arg := by
  apply BitVec.eq_of_toNat_eq
  have h := arg.isLt
  have h' := op.isLt
  simp only [argField, BitVec.extractLsb'_toNat, BitVec.toNat_append, Nat.shiftLeft_eq, Nat.shiftRight_eq_div_pow]
  rw [Nat.mul_comm, ← Nat.two_pow_add_eq_or_of_lt h]
  omega

theorem cmdByte_read (p : Params) (a : Nat) (h : a < p.cmdRead.length) :
    p.cmdRead[a]? = some (p.cmdByte .read a) := by
  simp [Params.cmdByte, List.getD_eq_getElem?_getD, h]

theorem cmdByte_write (p : Params) (a : Nat) (h : a < p.cmdWrite.length) :
    p.cmdWrite[a]? = some (p.cmdByte .write a) := by
  simp [Params.cmdByte, List.getD_eq_getElem?_getD, h]

/-- What the admitted parameters say of the command bytes: the tables are complete, and no byte stands twice (R87). -/
theorem Params.wf_commands {p : Params} {v : Variant} (h : p.wf v = true) :
    p.cmdRead.length = 2 ^ p.addrBits ∧ p.cmdWrite.length = 2 ^ p.addrBits ∧ p.commandBytes.Nodup := by
  simp only [Params.wf, Bool.and_eq_true, decide_eq_true_eq] at h
  exact ⟨h.1.1.1.1.1.1.1.1.1.1, h.1.1.1.1.1.1.1.1.1.2, h.1.1.1.1.1.1.1.1.2⟩

/-- What they say of the layout (R27) and of the scan image's width (R26). -/
theorem Params.wf_layout {p : Params} {v : Variant} (h : p.wf v = true) :
    p.layout.wf p.scanBytes = true ∧ p.defaults.scan.length = p.scanBytes := by
  simp only [Params.wf, Bool.and_eq_true, decide_eq_true_eq] at h
  exact ⟨h.1.1.1.1.1.2, h.1.1.1.1.2⟩

/-- A read of the sample takes 3 or 4 bytes (42_read_decode R141). -/
theorem sampleWidth_eq (f : Byte) : sampleWidth f = 3 ∨ sampleWidth f = 4 := by
  rw [sampleWidth]
  split <;> simp

/-- A read's possible widths are 3 and 4 (20_memory R68). -/
theorem mem_readWidths {fmt : Option Byte} {n : Nat} (h : n ∈ readWidths fmt) : n = 3 ∨ n = 4 := by
  cases fmt with
  | none => simpa [readWidths] using h
  | some f =>
    have := sampleWidth_eq f
    simp only [readWidths, List.mem_singleton] at h
    omega

/-- What the admitted parameters say of the register addresses: they are inside the tables, and no two registers share
one (R60). -/
theorem Params.wf_addresses {p : Params} {v : Variant} (h : p.wf v = true) :
    (∀ r : Reg, p.addrOf r < 2 ^ p.addrBits) ∧ ∀ r r' : Reg, p.addrOf r = p.addrOf r' → r = r' := by
  simp only [Params.wf, Bool.and_eq_true, decide_eq_true_eq] at h
  have ha := h.1.1.1.1.1.1.1.2
  have hn := h.1.1.1.1.1.1.2
  constructor
  · intro r
    have := List.all_eq_true.mp ha r (by cases r <;> simp)
    simpa using this
  · intro r r' e
    exact List.inj_on_of_nodup_map hn (by cases r <;> simp) (by cases r' <;> simp) e

/-- The command bytes stand in three parts that share no byte (R87). -/
theorem Params.wf_disjoint {p : Params} {v : Variant} (h : p.wf v = true) :
    p.cmdRead.Nodup ∧ p.cmdWrite.Nodup ∧ (∀ x ∈ p.cmdRead, x ∉ p.cmdWrite) ∧
    (∀ f : FastCmd, p.fastByte f ∉ p.cmdRead ∧ p.fastByte f ∉ p.cmdWrite) ∧
    p.fastStandby ≠ p.fastReset ∧ p.fastConvStart ≠ p.fastReset ∧ p.fastConvStart ≠ p.fastStandby := by
  have hn := (Params.wf_commands h).2.2
  simp only [Params.commandBytes, List.nodup_append, List.nodup_cons, List.mem_append, List.mem_cons,
    List.not_mem_nil, or_false, not_or] at hn
  obtain ⟨h1, ⟨h2, ⟨⟨h3, h4⟩, h5, -⟩, h6⟩, h7⟩ := hn
  refine ⟨h1, h2, fun x hx hy => h7 x hx x (.inl hy) rfl, fun f => ⟨fun hf => ?_, fun hf => ?_⟩, Ne.symm h3,
    Ne.symm h4, Ne.symm h5⟩
  · exact h7 _ hf _ (.inr (by cases f <;> simp [Params.fastByte])) rfl
  · exact h6 _ hf _ (by cases f <;> simp [Params.fastByte]) rfl

/-- The command bytes of the registers are in their tables (R87). -/
theorem Params.cmdByte_mem {p : Params} {v : Variant} (h : p.wf v = true) (r : Reg) :
    p.cmdByte .read (p.addrOf r) ∈ p.cmdRead ∧ p.cmdByte .write (p.addrOf r) ∈ p.cmdWrite := by
  have ha := (Params.wf_addresses h).1 r
  have hc := Params.wf_commands h
  exact ⟨List.mem_of_getElem? (cmdByte_read p _ (by omega)), List.mem_of_getElem? (cmdByte_write p _ (by omega))⟩

/-- Two registers with one write command are the same (R87). -/
theorem Params.cmdWrite_inj {p : Params} {v : Variant} (h : p.wf v = true) {r r' : Reg}
    (e : p.cmdByte .write (p.addrOf r) = p.cmdByte .write (p.addrOf r')) : r = r' := by
  have ha := (Params.wf_addresses h).1
  have hc := (Params.wf_commands h).2.1
  have hr := cmdByte_write p (p.addrOf r) (by have := ha r; omega)
  have hr' := cmdByte_write p (p.addrOf r') (by have := ha r'; omega)
  rw [e, ← hr'] at hr
  exact (Params.wf_addresses h).2 _ _
    ((List.getElem?_inj (by have := ha r; omega) (Params.wf_disjoint h).2.1).mp hr)

/-- The search for a write command finds the written register whose command it is. -/
theorem writeTarget_cmdByte {p : Params} {v : Variant} (h : p.wf v = true) {r : Reg} (hr : r ∈ writtenRegs) :
    writeTarget p (p.cmdByte .write (p.addrOf r)) = some r := by
  cases hf : writeTarget p (p.cmdByte .write (p.addrOf r)) with
  | none =>
    have := List.find?_eq_none.mp hf r hr
    simp at this
  | some r' =>
    have := List.find?_some hf
    rw [Params.cmdWrite_inj h (eq_of_beq this)]

/-- No fast command is a write command. -/
theorem writeTarget_fastByte {p : Params} {v : Variant} (h : p.wf v = true) (f : FastCmd) :
    writeTarget p (p.fastByte f) = none := by
  refine List.find?_eq_none.mpr fun r _ e => ?_
  exact ((Params.wf_disjoint h).2.2.2.1 f).2 (eq_of_beq e ▸ (Params.cmdByte_mem h r).2)

/-! ### The frame widths of R68, by command byte -/

theorem frameWidths_read (p : Params) : p.frameWidths (p.cmdByte .read p.addr.adcdata) = [3, 4] := if_pos rfl

theorem frameWidths_fast {p : Params} {v : Variant} (h : p.wf v = true) (f : FastCmd) :
    p.frameWidths (p.fastByte f) = [0] := by
  have hne : p.fastByte f ≠ p.cmdByte .read p.addr.adcdata := fun e =>
    ((Params.wf_disjoint h).2.2.2.1 f).1 (e ▸ (Params.cmdByte_mem h .adcdata).1)
  rw [Params.frameWidths, if_neg hne, if_pos (by cases f <;> simp [Params.fastByte])]

theorem frameWidths_write {p : Params} {v : Variant} (h : p.wf v = true) {r : Reg} (hr : r ≠ .adcdata) :
    p.frameWidths (p.cmdByte .write (p.addrOf r)) = [p.writeBytes r] := by
  have hm := (Params.cmdByte_mem h r).2
  have hne : p.cmdByte .write (p.addrOf r) ≠ p.cmdByte .read p.addr.adcdata := fun e =>
    (Params.wf_disjoint h).2.2.1 _ (Params.cmdByte_mem h .adcdata).1
      (show p.cmdByte .read p.addr.adcdata ∈ _ from e ▸ hm)
  have hd := fun f => (Params.wf_disjoint h).2.2.2.1 f |>.2
  have hf : p.cmdByte .write (p.addrOf r) ∉ [p.fastReset, p.fastStandby, p.fastConvStart] := by
    intro e
    simp only [List.mem_cons, List.not_mem_nil, or_false] at e
    rcases e with e | e | e
    · exact hd .reset (show p.fastReset ∈ _ from e ▸ hm)
    · exact hd .standby (show p.fastStandby ∈ _ from e ▸ hm)
    · exact hd .convStart (show p.fastConvStart ∈ _ from e ▸ hm)
  rw [Params.frameWidths, if_neg hne, if_neg hf]
  by_cases hs : r = .scan
  · subst hs
    exact if_pos rfl
  · have hn : ¬ p.cmdByte .write (p.addrOf r) = p.cmdByte .write p.addr.scan :=
      fun e => hs (Params.cmdWrite_inj h (r' := .scan) e)
    rw [if_neg hn, if_pos (by cases r <;> simp at hr hs ⊢)]
    cases r <;> first | rfl | exact absurd rfl hs | exact absurd rfl hr

end Sys2Proof
end

