-- ==== Sys2Proof/Laws/Keeps.lean ====
section
/-! SUPPORT. What an operation may change, said once: `Keeps K E x` says that `K` holds between the state before `x` and
the state after it where `x` ends, and `E` where it faults. One lemma for each operation. -/

namespace Sys2Proof.Machine

/-- Where a result ends, `K` holds of its state; where it faults, `E` does. -/
def Leaves {α : Type} (K E : State → Prop) : EStateM.Result Unit State α → Prop
  | .ok _ t => K t
  | .error _ t => E t

theorem Leaves.mono {α : Type} {K E K' E' : State → Prop} {r : EStateM.Result Unit State α} (h : Leaves K E r)
    (hk : ∀ t, K t → K' t) (he : ∀ t, E t → E' t) : Leaves K' E' r :=
  match r, h with
  | .ok _ t, h => hk t h
  | .error _ t, h => he t h

/-- `K` holds between the states before and after `x` where it ends, and `E` where it faults. -/
def Keeps {α : Type} (K E : State → State → Prop) (x : Op α) : Prop := ∀ s, Leaves (K s) (E s) (x s)

/-- Two relations that compose as operations do: `K` before the fault, `E` up to it. -/
structure Composes (K E : State → State → Prop) : Prop where
  refl : ∀ s, K s s
  trans : ∀ {s t u}, K s t → K t u → K s u
  cross : ∀ {s t u}, K s t → E t u → E s u
  raise : ∀ s c w, E s (s.raise c w)

variable {K E : State → State → Prop} {α β : Type}

theorem keeps_pure (h : Composes K E) (a : α) : Keeps K E (pure a : Op α) := fun s => h.refl s

theorem keeps_look (h : Composes K E) (f : State → α) : Keeps K E (look f) := fun s => h.refl s

theorem keeps_update {f : State → State} (hf : ∀ s, K s (f s)) : Keeps K E (update f) := fun s => hf s

theorem keeps_raise (h : Composes K E) (c : FaultCode) : Keeps K E (raise c : Op α) := fun s => h.raise s _ _

theorem keeps_bind (h : Composes K E) {x : Op α} {f : α → Op β} (hx : Keeps K E x) (hf : ∀ a, Keeps K E (f a)) :
    Keeps K E (x >>= f) := by
  intro s
  have hs := hx s
  rw [op_bind]
  cases hxs : x s with
  | error e t => rw [hxs] at hs; exact hs
  | ok a t =>
    rw [hxs] at hs
    exact (hf a t).mono (fun _ => h.trans hs) (fun _ => h.cross hs)

theorem leaves_map {x : Op α} (f : α → β) {P Q : State → Prop} {s : State} (hs : Leaves P Q (x s)) :
    Leaves P Q ((f <$> x) s) := by
  rw [op_map]
  cases hxs : x s with
  | error e t => rw [hxs] at hs; exact hs
  | ok a t => rw [hxs] at hs; exact hs

theorem keeps_map {x : Op α} (f : α → β) (hx : Keeps K E x) : Keeps K E (f <$> x) := fun s => leaves_map f (hx s)

theorem keeps_ite {c : Prop} [Decidable c] {x y : Op α} (hx : Keeps K E x) (hy : Keeps K E y) :
    Keeps K E (if c then x else y) := by
  split
  · exact hx
  · exact hy

theorem keeps_requireBegun (h : Composes K E) : Keeps K E requireBegun :=
  keeps_bind h (keeps_look h _) fun _ => keeps_ite (keeps_pure h _) (keeps_raise h _)

theorem keeps_readShadow (h : Composes K E) : Keeps K E readShadow := by
  intro s
  rw [readShadow]
  cases s.shadow with
  | none => exact h.raise s _ _
  | some sh => exact h.refl s

theorem keeps_writeShadow (h : Composes K E) (hs : ∀ s x, K s (s.setShadow x)) (f : Shadow → Shadow) :
    Keeps K E (writeShadow f) :=
  keeps_bind h (keeps_readShadow h) fun _ => keeps_update (hs · _)

theorem keeps_cacheWrite (h : Composes K E) (hc : ∀ s i x, K s (s.setCache i x)) (i : Byte) (x : Word32) :
    Keeps K E (cacheWrite i x) := by
  have hu : Keeps K E (update (·.setCache i.toNat x)) := keeps_update (hc · _ _)
  exact keeps_bind h (keeps_look h _) fun _ => keeps_ite
    (keeps_bind h (keeps_raise h _) fun _ => hu) hu

theorem keeps_cacheRead (h : Composes K E) (i : Byte) : Keeps K E (cacheRead i) := by
  have hm : Keeps K E (do
      match (← look (·.cache)).getD i.toNat none with
      | some x => return x
      | none => raise .unwrittenCache : Op Word32) := by
    refine keeps_bind h (keeps_look h _) fun c => ?_
    cases c.getD i.toNat none with
    | none => exact keeps_raise h _
    | some x => exact keeps_pure h _
  exact keeps_bind h (keeps_look h _) fun _ => keeps_ite (keeps_bind h (keeps_raise h _) fun _ => hm) hm

/-! ### One relation that every update of the bus is in -/

/-- A relation that the updates of the bus and of fault entry are in. -/
structure BusSteps (R : State → State → Prop) : Prop where
  refl : ∀ s, R s s
  trans : ∀ {s t u}, R s t → R t u → R s u
  raise : ∀ s c w, R s (s.raise c w)
  passBoundary : ∀ s, R s s.passBoundary
  addEvent : ∀ s e, R s (s.addEvent e)
  drewByte : ∀ s, R s s.drewByte
  setSession : ∀ s x, R s (s.setSession x)
  setCs : ∀ s x, R s (s.setCs x)
  setStatus : ∀ s x, R s (s.setStatus x)
  setPayload : ∀ s x, R s (s.setPayload x)
  setSample : ∀ s x, R s (s.setSample x)

variable {R : State → State → Prop}

theorem BusSteps.composes (h : BusSteps R) : Composes R R := ⟨h.refl, h.trans, h.trans, h.raise⟩

theorem keeps_boundary (h : BusSteps R) : Keeps R R boundary := by
  intro s
  rw [boundary]
  split
  · exact h.refl s
  · split
    · exact h.trans (h.passBoundary s) (h.raise _ _ _)
    · exact h.passBoundary s

theorem keeps_driveCs (h : BusSteps R) (l : Level) : Keeps R R (driveCs l) :=
  keeps_bind h.composes (keeps_boundary h) fun _ => keeps_update (h.addEvent · _)

theorem keeps_xfer (h : BusSteps R) (b : Byte) : Keeps R R (xfer b) :=
  keeps_bind h.composes (keeps_boundary h) fun _ => keeps_bind h.composes (fun s => h.drewByte s) fun _ =>
    keeps_bind h.composes (keeps_update (h.addEvent · _)) fun _ => keeps_pure h.composes _

theorem keeps_exchange (h : BusSteps R) (out : List Byte) : Keeps R R (exchange out) := by
  induction out with
  | nil => exact keeps_pure h.composes _
  | cons b rest ih =>
    exact keeps_bind h.composes (keeps_xfer h b) fun _ => keeps_bind h.composes ih fun _ => keeps_pure h.composes _

theorem keeps_frame (h : BusSteps R) (cmd : Byte) (out : List Byte) : Keeps R R (frame cmd out) :=
  have c := h.composes
  keeps_bind c (keeps_look c _) fun _ => keeps_bind c (keeps_update (h.setSession · _)) fun _ =>
  keeps_bind c (keeps_driveCs h _) fun _ => keeps_bind c (keeps_update (h.setCs · _)) fun _ =>
  keeps_bind c (keeps_xfer h _) fun _ => keeps_bind c (keeps_update (h.setStatus · _)) fun _ =>
  keeps_bind c (keeps_exchange h _) fun _ => keeps_bind c (keeps_driveCs h _) fun _ =>
  keeps_bind c (keeps_update (h.setCs · _)) fun _ => keeps_bind c (keeps_update (h.setSession · _)) fun _ =>
  keeps_pure c _

theorem keeps_frameRreg (h : BusSteps R) (a n : Nat) : Keeps R R (frameRreg a n) :=
  keeps_bind h.composes (keeps_look h.composes _) fun _ => keeps_bind h.composes (keeps_frame h _ _) fun _ =>
  keeps_bind h.composes (keeps_update (h.setPayload · _)) fun _ => keeps_pure h.composes _

theorem keeps_frameWreg (h : BusSteps R) (a : Nat) (x : List Byte) : Keeps R R (frameWreg a x) :=
  keeps_bind h.composes (keeps_look h.composes _) fun _ => keeps_bind h.composes (keeps_frame h _ _) fun _ =>
  keeps_pure h.composes _

theorem keeps_frameFast (h : BusSteps R) (f : FastCmd) : Keeps R R (frameFast f) :=
  keeps_bind h.composes (keeps_look h.composes _) fun _ => keeps_bind h.composes (keeps_frame h _ _) fun _ =>
  keeps_pure h.composes _

theorem keeps_writeReg (h : BusSteps R) (r : Reg) : Keeps R R (writeReg r) :=
  keeps_bind h.composes (keeps_readShadow h.composes) fun _ => keeps_bind h.composes (keeps_look h.composes _) fun _ =>
  keeps_frameWreg h _ _

theorem keeps_readSample (h : BusSteps R) : Keeps R R readSample :=
  have c := h.composes
  keeps_bind c (keeps_readShadow c) fun _ => keeps_bind c (keeps_look c _) fun _ =>
  keeps_bind c (keeps_frameRreg h _ _) fun _ => keeps_bind c (keeps_update (h.setSample · _)) fun _ =>
  keeps_bind c (keeps_look c _) fun _ => keeps_pure c _

/-! ### The operations of the commands, over what their frames and their updates keep -/

/-- What the parts of the commands keep: the frames they send as wholes (no image is written to the ADC data register),
the shadow writes that keep the scan image's width (R26), the loading of the defaults, and the updates of the block's
other registers. -/
structure OpSteps (K E : State → State → Prop) : Prop extends Composes K E where
  writeReg : ∀ r, r ≠ .adcdata → Keeps K E (writeReg r)
  frameFast : ∀ f, Keeps K E (frameFast f)
  readSample : Keeps K E readSample
  driveHigh : Keeps K E (driveCs .high)
  setCs : ∀ s, K s (s.setCs .high)
  setSession : ∀ s x, K s (s.setSession x)
  writeShadow : ∀ f : Shadow → Shadow, (∀ sh, (f sh).imgScan.length = sh.imgScan.length) → Keeps K E (writeShadow f)
  loadDefaults : Keeps K E loadDefaults
  setReference : ∀ s x, K s (s.setReference x)
  setResolution : ∀ s x, K s (s.setResolution x)
  drewFmtBits : ∀ s, K s s.drewFmtBits
  setBegun : ∀ s, K s s.setBegun

theorem keeps_readOp (h : OpSteps K E) : Keeps K E readOp :=
  have c := h.toComposes
  keeps_bind c (keeps_requireBegun c) fun _ => keeps_bind c h.readSample fun _ =>
  keeps_bind c (keeps_look c _) fun _ => keeps_pure c _

theorem keeps_isrOp (h : OpSteps K E) (hc : ∀ s i x, K s (s.setCache i x)) : Keeps K E isrOp :=
  have c := h.toComposes
  keeps_bind c (keeps_requireBegun c) fun _ => keeps_bind c h.readSample fun _ =>
  keeps_bind c (keeps_cacheWrite c hc _ _) fun _ => keeps_pure c _

/-- The end of a setter: the whole image is sent, and the response carries the captured status. -/
theorem keeps_writeRegStatus (h : OpSteps K E) (r : Reg) (hr : r ≠ .adcdata) :
    Keeps K E (do
      writeReg r
      return { status := ← look (·.status) } : Op Response) :=
  have c := h.toComposes
  keeps_bind c (h.writeReg r hr) fun _ => keeps_bind c (keeps_look c _) fun _ => keeps_pure c _

theorem keeps_setter (h : OpSteps K E) (write : Layout → Shadow → Shadow) (r : Reg) (hr : r ≠ .adcdata)
    (hw : ∀ l sh, (write l sh).imgScan.length = sh.imgScan.length) : Keeps K E (setter write r) :=
  have c := h.toComposes
  keeps_bind c (keeps_requireBegun c) fun _ => keeps_bind c (keeps_look c _) fun _ =>
  keeps_bind c (h.writeShadow _ (hw _)) fun _ => keeps_writeRegStatus h r hr

theorem keeps_setDataFormatOp (h : OpSteps K E) (f : Byte) : Keeps K E (setDataFormatOp f) := by
  have c := h.toComposes
  have hend : Keeps K E (do
      writeReg .config3
      update fun s => s.setResolution (s.newResolution f)
      return { status := ← look (·.status) } : Op Response) :=
    keeps_bind c (h.writeReg _ (by decide)) fun _ => keeps_bind c (keeps_update fun s => h.setResolution s _) fun _ =>
    keeps_bind c (keeps_look c _) fun _ => keeps_pure c _
  refine keeps_bind c (keeps_requireBegun c) fun _ => keeps_bind c (keeps_look c _) fun _ =>
    keeps_bind c (h.writeShadow _ fun _ => rfl) fun _ => keeps_ite
      (keeps_bind c (h.writeShadow _ fun _ => rfl) fun _ => hend)
      (keeps_bind c (fun s => h.drewFmtBits s) fun _ =>
        keeps_bind c (h.writeShadow _ fun _ => rfl) fun _ => hend)

theorem keeps_scanChannelOp (h : OpSteps K E) (sel : Byte) (x : Bool) : Keeps K E (scanChannelOp sel x) := by
  have c := h.toComposes
  have hend : ∀ i : Byte, Keeps K E (do
      let p ← look (·.params)
      writeShadow (Shadow.setScanMask p.layout i.toNat x)
      writeReg .scan
      return { status := ← look (·.status) } : Op Response) := fun _ =>
    keeps_bind c (keeps_look c _) fun _ =>
    keeps_bind c (h.writeShadow _ fun sh => Shadow.setScanMask_length sh _ _ x) fun _ =>
    keeps_writeRegStatus h _ (by decide)
  exact keeps_bind c (keeps_requireBegun c) fun _ => keeps_bind c (keeps_look c _) fun _ => keeps_ite
    (keeps_bind c (keeps_raise c _) fun _ => hend _) (hend _)

theorem keeps_setReferenceOp (h : OpSteps K E) (r : Word32) : Keeps K E (setReferenceOp r) :=
  have c := h.toComposes
  keeps_ite
    (keeps_bind c (keeps_requireBegun c) fun _ => keeps_bind c (keeps_update (h.setReference · _)) fun _ =>
      keeps_bind c (keeps_look c _) fun _ => keeps_bind c (h.writeShadow _ fun _ => rfl) fun _ =>
      keeps_writeRegStatus h _ (by decide))
    (keeps_bind c (keeps_update (h.setReference · _)) fun _ => keeps_bind c (keeps_look c _) fun _ => keeps_pure c _)

theorem keeps_unlockOp (h : OpSteps K E) : Keeps K E unlockOp :=
  keeps_bind h.toComposes (keeps_look h.toComposes _) fun _ => keeps_setter h _ _ (by decide) fun _ _ => rfl

theorem keeps_analogReadOp (h : OpSteps K E) (hc : ∀ s i x, K s (s.setCache i x)) (sel : Byte) :
    Keeps K E (analogReadOp sel) :=
  have c := h.toComposes
  keeps_bind c (keeps_requireBegun c) fun _ => keeps_bind c (h.writeShadow _ fun _ => rfl) fun _ =>
  keeps_bind c (h.writeReg _ (by decide)) fun _ => keeps_bind c (h.frameFast _) fun _ =>
  keeps_bind c h.readSample fun _ => keeps_bind c (keeps_cacheWrite c hc _ _) fun _ => keeps_pure c _

theorem keeps_beginOp (h : OpSteps K E) : Keeps K E beginOp := by
  have c := h.toComposes
  have hend : Keeps K E (do
      update (·.setSession false)
      return { ok := some true, status := ← look (·.status) } : Op Response) :=
    keeps_bind c (keeps_update (h.setSession · _)) fun _ => keeps_bind c (keeps_look c _) fun _ => keeps_pure c _
  have hi : Keeps K E beginInterrupt :=
    keeps_bind c (keeps_look c _) fun _ => keeps_bind c (keeps_setDataFormatOp h _) fun _ =>
    keeps_bind c (keeps_setter h _ _ (by decide) fun _ _ => rfl) fun _ => h.frameFast _
  have hp : Keeps K E beginPolled :=
    keeps_bind c (keeps_setDataFormatOp h _) fun _ => keeps_bind c (keeps_look c _) fun _ =>
    keeps_bind c (keeps_setReferenceOp h _) fun _ => h.frameFast _
  exact keeps_bind c (keeps_update h.setCs) fun _ => keeps_bind c h.driveHigh fun _ =>
    keeps_bind c (keeps_update (h.setSession · _)) fun _ => keeps_bind c (h.frameFast _) fun _ =>
    keeps_bind c h.loadDefaults fun _ => keeps_bind c (keeps_update h.setBegun) fun _ =>
    keeps_bind c (keeps_look c _) fun _ => keeps_bind c (keeps_setter h _ _ (by decide) fun _ _ => rfl) fun _ =>
    keeps_bind c (keeps_look c _) fun _ => keeps_ite
      (keeps_bind c hi fun _ => hend) (keeps_bind c hp fun _ => hend)

theorem keeps_isCompleteOp (c : Composes K E) : Keeps K E isCompleteOp := by
  refine keeps_bind c (keeps_look c _) fun st => ?_
  cases st with
  | none => exact keeps_raise c _
  | some _ => exact keeps_bind c (keeps_look c _) fun _ => keeps_pure c _

theorem keeps_getMaxValueOp (c : Composes K E) : Keeps K E getMaxValueOp :=
  keeps_bind c (keeps_look c _) fun _ => keeps_ite
    (keeps_bind c (keeps_raise c _) fun _ => keeps_pure c _) (keeps_pure c _)

theorem keeps_setResolutionOp (c : Composes K E) (hr : ∀ s x, K s (s.setResolution x)) (b : BitVec 8) :
    Keeps K E (setResolutionOp b) :=
  keeps_bind c (keeps_look c _) fun _ => keeps_ite
    (keeps_bind c (keeps_update (hr · _)) fun _ => keeps_pure c _) (keeps_pure c _)

theorem keeps_toggle (c : Composes K E) {f : State → State} (hf : ∀ s, K s (f s)) : Keeps K E (toggle f) :=
  keeps_bind c (keeps_update hf) fun _ => keeps_pure c _

theorem keeps_query (c : Composes K E) {α : Type} (f : State → α) (g : α → Response) :
    Keeps K E (do return g (← look f) : Op Response) :=
  keeps_bind c (keeps_look c _) fun _ => keeps_pure c _

theorem keeps_readCacheOp (c : Composes K E) (i : Byte) : Keeps K E (readCacheOp i) :=
  keeps_bind c (keeps_cacheRead c i) fun _ => keeps_pure c _

end Sys2Proof.Machine
end

