-- ==== Sys2Proof/Laws/Exec.lean ====
section
/-! SUPPORT. What any instruction may change: a relation that its updates are in holds between the state before and the
next state. -/

namespace Sys2Proof

/-- The operations that store into the result cache (42_read_decode R156). -/
def Instr.storesSample : Instr → Bool
  | .isrHandler | .analogRead _ | .analogReadDiff _ _ => true
  | .begin | .read | .setDataFormat _ | .setConvMode _ | .setAdcMode _ | .setClockSelection _ | .setScanChannel _
  | .unsetScanChannel _ | .setReference _ | .lock _ | .unlock | .singleEndedMode | .differentialMode
  | .startContinuousDifferential | .startSingleDifferential | .setResolution _ | .isComplete | .getMaxValue
  | .isDifferential | .isContinuous | .getReference | .readCache _ | .frameRreg _ _ | .frameWreg _ _
  | .frameFast _ => false

/-- The mode toggles (46_modes_queries R230 to R233). -/
def Instr.isToggle : Instr → Bool
  | .singleEndedMode | .differentialMode | .startContinuousDifferential | .startSingleDifferential => true
  | .begin | .read | .isrHandler | .setDataFormat _ | .setConvMode _ | .setAdcMode _ | .setClockSelection _
  | .setScanChannel _ | .unsetScanChannel _ | .setReference _ | .lock _ | .unlock | .analogRead _
  | .analogReadDiff _ _ | .setResolution _ | .isComplete | .getMaxValue | .isDifferential | .isContinuous
  | .getReference | .readCache _ | .frameRreg _ _ | .frameWreg _ _ | .frameFast _ => false

end Sys2Proof

namespace Sys2Proof.Machine

variable {K E F : State → State → Prop}

/-- `F` holds between the state before an instruction and its next state: `K` around the operation and `F` at its end or
at its fault. -/
structure RunSteps (K E F : State → State → Prop) : Prop extends Composes K E where
  enter : ∀ s b, K s (s.enter b)
  leave : ∀ {s t : State}, K s t → ∀ r, F s (t.leave r)
  fault : ∀ {s t : State}, E s t → F s t

/-- What one run of an operation changes, from what its body does from the state it starts in. -/
theorem leaves_runOperation (h : RunSteps K E F) (b : Busy) (body : Op (Option Response)) {s t : State}
    (hb : Leaves (K (s.enter b)) (E (s.enter b)) (body (s.enter b))) (hx : runOperation b body s = .next t) :
    F s t := by
  simp only [runOperation] at hx
  cases hbs : body (s.enter b) with
  | ok r u =>
    rw [hbs] at hb hx
    exact (Host.Outcome.next.inj hx) ▸ h.leave (h.trans (h.enter s b) hb) r
  | error e u =>
    rw [hbs] at hb hx
    exact (Host.Outcome.next.inj hx) ▸ h.fault (h.cross (h.enter s b) hb)

theorem keeps_hostCommand (h : RunSteps K E F) (i : Instr) (body : Op Response) (hb : Keeps K E body) {s t : State}
    (hx : hostCommand i body s = .next t) : F s t := by
  simp only [hostCommand] at hx
  split at hx
  · cases hx
  · split at hx
    · exact leaves_runOperation h _ _ (keeps_map _ hb _) hx
    · cases hx

theorem keeps_isrCommand (h : RunSteps K E F) (body : Op Response) (hb : Keeps K E body) {s t : State}
    (hx : isrCommand body s = .next t) : F s t := by
  simp only [isrCommand] at hx
  split at hx
  · cases hx
  · split at hx
    · exact leaves_runOperation h _ _ (keeps_map _ hb _) hx
    · exact (Host.Outcome.next.inj hx) ▸ h.fault (h.raise s _ _)

/-- A frame by itself, from what the frame does from the state it starts in. -/
theorem leaves_wireFrame (h : RunSteps K E F) (i : Instr) (body : Op Unit) {s t : State}
    (hb : Leaves (K (s.enter (.fg i))) (E (s.enter (.fg i))) (body (s.enter (.fg i))))
    (hx : wireFrame i body s = .next t) : F s t := by
  simp only [wireFrame] at hx
  split at hx
  · cases hx
  · split at hx
    · exact leaves_runOperation h _ _ (leaves_map _ hb) hx
    · cases hx

/-- What a host-side operation may change (46_modes_queries): no frame and no draw is among it. -/
theorem exec_keeps_hostSide (r : RunSteps K E F) (i : Instr) (hi : i.isHostSide = true)
    (hr : ∀ s x, K s (s.setResolution x)) (hd : i.isToggle = true → ∀ s x, K s (s.setDifferential x))
    (hk : i.isToggle = true → ∀ s x, K s (s.setContinuous x)) {s t : State} (hx : exec i s = .next t) : F s t := by
  have c := r.toComposes
  cases i with
  | singleEndedMode => exact keeps_hostCommand r .singleEndedMode _ (keeps_toggle c (hd rfl · _)) hx
  | differentialMode => exact keeps_hostCommand r .differentialMode _ (keeps_toggle c (hd rfl · _)) hx
  | startContinuousDifferential =>
    exact keeps_hostCommand r .startContinuousDifferential _
      (keeps_toggle c fun s => c.trans (hk rfl s _) (hd rfl _ _)) hx
  | startSingleDifferential =>
    exact keeps_hostCommand r .startSingleDifferential _
      (keeps_toggle c fun s => c.trans (hk rfl s _) (hd rfl _ _)) hx
  | setResolution x =>
    exact keeps_hostCommand r (.setResolution x) (setResolutionOp x) (keeps_setResolutionOp c hr x) hx
  | isComplete => exact keeps_hostCommand r .isComplete isCompleteOp (keeps_isCompleteOp c) hx
  | getMaxValue => exact keeps_hostCommand r .getMaxValue getMaxValueOp (keeps_getMaxValueOp c) hx
  | isDifferential => exact keeps_hostCommand r .isDifferential _ (keeps_query c _ _) hx
  | isContinuous => exact keeps_hostCommand r .isContinuous _ (keeps_query c _ _) hx
  | getReference => exact keeps_hostCommand r .getReference _ (keeps_query c _ _) hx
  | readCache k => exact keeps_hostCommand r (.readCache k) (readCacheOp k) (keeps_readCacheOp c k) hx
  | begin | read | isrHandler | setDataFormat _ | setConvMode _ | setAdcMode _ | setClockSelection _
  | setScanChannel _ | unsetScanChannel _ | setReference _ | lock _ | unlock | analogRead _ | analogReadDiff _ _
  | frameRreg _ _ | frameWreg _ _ | frameFast _ => cases hi

/-- What a command may change: `F` holds between the states, if the parts of the commands keep `K` and `E`, the cache
store is in `K` if this one stores, and the flags are if this one is a toggle. -/
theorem exec_keeps_command (h : OpSteps K E) (r : RunSteps K E F) (i : Instr) (hi : i.isCommand = true)
    (hc : i.storesSample = true → ∀ s k x, K s (s.setCache k x))
    (hd : i.isToggle = true → ∀ s x, K s (s.setDifferential x))
    (hk : i.isToggle = true → ∀ s x, K s (s.setContinuous x)) {s t : State} (hx : exec i s = .next t) : F s t := by
  cases i with
  | begin => exact keeps_hostCommand r .begin beginOp (keeps_beginOp h) hx
  | read => exact keeps_hostCommand r .read readOp (keeps_readOp h) hx
  | isrHandler => exact keeps_isrCommand r isrOp (keeps_isrOp h (hc rfl)) hx
  | setDataFormat f =>
    exact keeps_hostCommand r (.setDataFormat f) (setDataFormatOp f) (keeps_setDataFormatOp h f) hx
  | setConvMode m => exact keeps_hostCommand r (.setConvMode m) (setConvModeOp m) (keeps_setter h _ _ (by decide) fun _ _ => rfl) hx
  | setAdcMode m => exact keeps_hostCommand r (.setAdcMode m) (setAdcModeOp m) (keeps_setter h _ _ (by decide) fun _ _ => rfl) hx
  | setClockSelection c =>
    exact keeps_hostCommand r (.setClockSelection c) (setClockSelectionOp c) (keeps_setter h _ _ (by decide) fun _ _ => rfl) hx
  | setScanChannel sel =>
    exact keeps_hostCommand r (.setScanChannel sel) (scanChannelOp sel true) (keeps_scanChannelOp h sel true) hx
  | unsetScanChannel sel =>
    exact keeps_hostCommand r (.unsetScanChannel sel) (scanChannelOp sel false) (keeps_scanChannelOp h sel false) hx
  | setReference x => exact keeps_hostCommand r (.setReference x) (setReferenceOp x) (keeps_setReferenceOp h x) hx
  | lock k => exact keeps_hostCommand r (.lock k) (lockOp k) (keeps_setter h _ _ (by decide) fun _ _ => rfl) hx
  | unlock => exact keeps_hostCommand r .unlock unlockOp (keeps_unlockOp h) hx
  | analogRead sel =>
    exact keeps_hostCommand r (.analogRead sel) (analogReadOp sel) (keeps_analogReadOp h (hc rfl) sel) hx
  | analogReadDiff pos neg =>
    exact keeps_hostCommand r (.analogReadDiff pos neg) (analogReadOp (muxPack pos neg))
      (keeps_analogReadOp h (hc rfl) _) hx
  | singleEndedMode | differentialMode | startContinuousDifferential | startSingleDifferential | setResolution _
  | isComplete | getMaxValue | isDifferential | isContinuous | getReference | readCache _ =>
    exact exec_keeps_hostSide r _ rfl h.setResolution hd hk hx
  | frameRreg _ _ | frameWreg _ _ | frameFast _ => cases hi

/-! ### One relation for all instructions -/

/-- A relation that every update but the cache store and the flags is in. -/
structure ExecSteps (R : State → State → Prop) : Prop extends BusSteps R where
  enter : ∀ s b, R s (s.enter b)
  leave : ∀ s r, R s (s.leave r)
  setShadow : ∀ s x, R s (s.setShadow x)
  setReference : ∀ s x, R s (s.setReference x)
  setResolution : ∀ s x, R s (s.setResolution x)
  drewFmtBits : ∀ s, R s s.drewFmtBits
  setBegun : ∀ s, R s s.setBegun

variable {R : State → State → Prop}

theorem ExecSteps.opSteps (h : ExecSteps R) : OpSteps R R where
  toComposes := h.toBusSteps.composes
  writeReg r _ := keeps_writeReg h.toBusSteps r
  frameFast := keeps_frameFast h.toBusSteps
  readSample := keeps_readSample h.toBusSteps
  driveHigh := keeps_driveCs h.toBusSteps _
  setCs s := h.setCs s _
  setSession := h.setSession
  writeShadow f _ := keeps_writeShadow h.toBusSteps.composes h.setShadow f
  loadDefaults := keeps_update fun s => h.setShadow s _
  setReference := h.setReference
  setResolution := h.setResolution
  drewFmtBits := h.drewFmtBits
  setBegun := h.setBegun

theorem ExecSteps.runSteps (h : ExecSteps R) : RunSteps R R R where
  toComposes := h.toBusSteps.composes
  enter := h.enter
  leave hk r := h.trans hk (h.leave _ r)
  fault hk := hk

/-- What any instruction may change: `R` holds between the states, if the updates of every instruction are in it, the
cache store if this one stores, and the flags if this one is a toggle. -/
theorem exec_keeps (h : ExecSteps R) (i : Instr) (hc : i.storesSample = true → ∀ s k x, R s (s.setCache k x))
    (hd : i.isToggle = true → ∀ s x, R s (s.setDifferential x))
    (hk : i.isToggle = true → ∀ s x, R s (s.setContinuous x)) {s t : State} (hx : exec i s = .next t) : R s t := by
  have b := h.toBusSteps
  by_cases hi : i.isCommand = true
  · exact exec_keeps_command h.opSteps h.runSteps i hi hc hd hk hx
  · cases i with
    | frameRreg a n =>
      exact leaves_wireFrame h.runSteps (.frameRreg a n) _
        (keeps_bind b.composes (keeps_frameRreg b a n) (fun _ => keeps_pure b.composes _) _) hx
    | frameWreg a x => exact leaves_wireFrame h.runSteps (.frameWreg a x) (frameWreg a x) (keeps_frameWreg b a x _) hx
    | frameFast f => exact leaves_wireFrame h.runSteps (.frameFast f) (frameFast f) (keeps_frameFast b f _) hx
    | begin | read | isrHandler | setDataFormat _ | setConvMode _ | setAdcMode _ | setClockSelection _
    | setScanChannel _ | unsetScanChannel _ | setReference _ | lock _ | unlock | analogRead _ | analogReadDiff _ _
    | singleEndedMode | differentialMode | startContinuousDifferential | startSingleDifferential | setResolution _
    | isComplete | getMaxValue | isDifferential | isContinuous | getReference | readCache _ => exact absurd rfl hi

end Sys2Proof.Machine
end

