-- ==== Sys2Proof/Laws/PerInstr.lean ====
section
/-! SUPPORT. The per-instruction family `CommandWord`: what 30_encoding R81, R82 and R84 say of an instruction's
command word, one lemma for each constructor. -/

namespace Sys2Proof.Laws.CommandWord

/-- A host command has a command word and a frame has none; the word's opcode is assigned (R84), and its argument has
no must-be-zero bit set (R81). -/
def Statement (i : Instr) : Prop :=
  (commandWord i).isSome = i.isCommand ∧ ∀ w, commandWord i = some w →
    Machine.unassignedOpcode (opField w).toNat = false ∧ argField w &&& Machine.mustBeZeroMask (opField w).toNat = 0#32

/-- A host command from its opcode and argument. -/
theorem of_parts (i : Instr) (op : Byte) (h : i.opcode = some op) (hc : i.isCommand = true)
    (ha : Machine.unassignedOpcode op.toNat = false) (hz : i.arg &&& Machine.mustBeZeroMask op.toNat = 0#32) :
    Statement i := by
  refine ⟨by simp [commandWord, h, hc], fun w hw => ?_⟩
  simp only [commandWord, h, Option.map_some, Option.some.injEq] at hw
  subst hw
  rw [opField_append, argField_append]
  exact ⟨ha, hz⟩

/-- A frame has no command word. -/
theorem of_frame (i : Instr) (h : i.opcode = none) (hc : i.isCommand = false) : Statement i := by
  refine ⟨by simp [commandWord, h, hc], fun w hw => ?_⟩
  simp [commandWord, h] at hw

/-- An 8-bit operand leaves bits 31:8 zero. -/
theorem operand8 (x : BitVec 8) : x.zeroExtend 32 &&& 0xFFFFFF00#32 = 0#32 := by
  revert x
  decide

/-- A 2-bit operand leaves bits 31:2 zero. -/
theorem operand2 (x : BitVec 2) : x.zeroExtend 32 &&& 0xFFFFFFFC#32 = 0#32 := by
  revert x
  decide

theorem begin : Statement (.begin) := of_parts _ _ rfl rfl rfl (BitVec.zero_and)

theorem read : Statement (.read) := of_parts _ _ rfl rfl rfl (BitVec.zero_and)

theorem isrHandler : Statement (.isrHandler) := of_parts _ _ rfl rfl rfl (BitVec.zero_and)

theorem setDataFormat (f : BitVec 8) : Statement (.setDataFormat f) := of_parts _ _ rfl rfl rfl (operand8 f)

theorem setConvMode (m : BitVec 2) : Statement (.setConvMode m) := of_parts _ _ rfl rfl rfl (operand2 m)

theorem setAdcMode (m : BitVec 2) : Statement (.setAdcMode m) := of_parts _ _ rfl rfl rfl (operand2 m)

theorem setClockSelection (c : BitVec 2) : Statement (.setClockSelection c) := of_parts _ _ rfl rfl rfl (operand2 c)

theorem setScanChannel (sel : BitVec 8) : Statement (.setScanChannel sel) := of_parts _ _ rfl rfl rfl (operand8 sel)

theorem unsetScanChannel (sel : BitVec 8) : Statement (.unsetScanChannel sel) := of_parts _ _ rfl rfl rfl (operand8 sel)

theorem setReference (r : BitVec 32) : Statement (.setReference r) := of_parts _ _ rfl rfl rfl BitVec.and_zero

theorem lock (k : BitVec 8) : Statement (.lock k) := of_parts _ _ rfl rfl rfl (operand8 k)

theorem unlock : Statement (.unlock) := of_parts _ _ rfl rfl rfl (BitVec.zero_and)

theorem analogRead (sel : BitVec 8) : Statement (.analogRead sel) := of_parts _ _ rfl rfl rfl (operand8 sel)

theorem analogReadDiff (pos neg : BitVec 4) : Statement (.analogReadDiff pos neg) := of_parts _ _ rfl rfl rfl (operand8 (pos ++ neg))

theorem singleEndedMode : Statement (.singleEndedMode) := of_parts _ _ rfl rfl rfl (BitVec.zero_and)

theorem differentialMode : Statement (.differentialMode) := of_parts _ _ rfl rfl rfl (BitVec.zero_and)

theorem startContinuousDifferential : Statement (.startContinuousDifferential) := of_parts _ _ rfl rfl rfl (BitVec.zero_and)

theorem startSingleDifferential : Statement (.startSingleDifferential) := of_parts _ _ rfl rfl rfl (BitVec.zero_and)

theorem setResolution (b : BitVec 8) : Statement (.setResolution b) := of_parts _ _ rfl rfl rfl (operand8 b)

theorem isComplete : Statement (.isComplete) := of_parts _ _ rfl rfl rfl (BitVec.zero_and)

theorem getMaxValue : Statement (.getMaxValue) := of_parts _ _ rfl rfl rfl (BitVec.zero_and)

theorem isDifferential : Statement (.isDifferential) := of_parts _ _ rfl rfl rfl (BitVec.zero_and)

theorem isContinuous : Statement (.isContinuous) := of_parts _ _ rfl rfl rfl (BitVec.zero_and)

theorem getReference : Statement (.getReference) := of_parts _ _ rfl rfl rfl (BitVec.zero_and)

theorem readCache (i : BitVec 8) : Statement (.readCache i) := of_parts _ _ rfl rfl rfl (operand8 i)

theorem frameRreg (a n : Nat) : Statement (.frameRreg a n) := of_frame _ rfl rfl

theorem frameWreg (a : Nat) (x : List Byte) : Statement (.frameWreg a x) := of_frame _ rfl rfl

theorem frameFast (f : FastCmd) : Statement (.frameFast f) := of_frame _ rfl rfl

end Sys2Proof.Laws.CommandWord
end

