-- ==== Sys2Proof/Laws/Trace.lean ====
section
/-! SUPPORT. The command exchanges and the whole frames of a bus trace (41_bus_frames R120): how they join, and what one
frame adds to the trace whether it ends or is stopped. -/

namespace Sys2Proof.Machine

/-- The trace ends with an assertion of chip-select, so that the next exchange would be a command exchange. -/
def EndsLow (l : List BusEvent) : Prop := l.getLast? = some (.cs .low)

theorem commandExchanges_append (a b : List BusEvent) (h : ¬ EndsLow a) :
    commandExchanges (a ++ b) = commandExchanges a ++ commandExchanges b := by
  induction a using commandExchanges.induct with
  | case1 x r rest ih =>
    simp only [List.cons_append, commandExchanges]
    rw [ih]
    intro h'
    cases rest <;> simp_all [EndsLow]
  | case2 e rest hn ih =>
    cases rest with
    | nil =>
      have he : e ≠ .cs .low := fun he => h (by simp [EndsLow, he])
      rw [List.singleton_append, commandExchanges, commandExchanges.eq_2, commandExchanges]
      · rfl
      · intro _ _ _ _ hr; cases hr
      · intro _ _ _ h1 _; exact he h1
    | cons y ys =>
      rw [List.cons_append, commandExchanges, commandExchanges.eq_2 _ _ hn, ih]
      · intro h'; exact h (by simpa [EndsLow] using h')
      · intro x r rest' he hr
        rw [List.cons_append] at hr
        exact hn x r ys he (by rw [(List.cons.inj hr).1])
  | case3 => rw [List.nil_append, commandExchanges, List.nil_append]

/-- Exchanges only, as in a frame's payload. -/
def Payload (l : List BusEvent) : Prop := ∀ e ∈ l, ∃ b r, e = .xfer b r

theorem Payload.tail {e : BusEvent} {l : List BusEvent} (h : Payload (e :: l)) : Payload l :=
  fun x hx => h x (List.mem_cons_of_mem _ hx)

/-- Payload exchanges, and a release of chip-select after them, are no command exchanges. -/
theorem commandExchanges_payload (l : List BusEvent) (h : Payload l) :
    commandExchanges l = [] ∧ commandExchanges (l ++ [.cs .high]) = [] := by
  induction l with
  | nil => exact ⟨rfl, rfl⟩
  | cons e rest ih =>
    obtain ⟨b, r, rfl⟩ := h e (List.mem_cons_self ..)
    have ih := ih h.tail
    constructor
    · rw [commandExchanges, ih.1]
      intro _ _ _ h1; cases h1
    · rw [List.cons_append, commandExchanges, ih.2]
      intro _ _ _ h1; cases h1

/-- A released payload has its number of exchanges as its length, and holds no frame. -/
theorem payloadLength_released (l : List BusEvent) (h : Payload l) :
    payloadLength (l ++ [.cs .high]) = some l.length ∧ wholeFrames (l ++ [.cs .high]) = [] := by
  induction l with
  | nil => exact ⟨rfl, rfl⟩
  | cons e rest ih =>
    obtain ⟨b, r, rfl⟩ := h e (List.mem_cons_self ..)
    have ih := ih h.tail
    rw [List.cons_append, payloadLength, ih.1, wholeFrames, ih.2]
    · exact ⟨rfl, rfl⟩
    · intro _ _ _ h1; cases h1

/-- A payload without a release ends no frame. -/
theorem payloadLength_open (l : List BusEvent) (h : Payload l) : payloadLength l = none ∧ wholeFrames l = [] := by
  induction l with
  | nil => exact ⟨rfl, rfl⟩
  | cons e rest ih =>
    obtain ⟨b, r, rfl⟩ := h e (List.mem_cons_self ..)
    have ih := ih h.tail
    rw [payloadLength, ih.1, wholeFrames, ih.2]
    · exact ⟨rfl, rfl⟩
    · intro _ _ _ h1; cases h1

/-- The trace is empty or ends with a release of chip-select, so that no frame is open at its end. -/
def Released (l : List BusEvent) : Prop := l = [] ∨ l.getLast? = some (.cs .high)

theorem Released.tail {e : BusEvent} {l : List BusEvent} (h : Released (e :: l)) : Released l := by
  rcases h with h | h
  · cases h
  · cases l with
    | nil => exact .inl rfl
    | cons x xs => exact .inr (by simpa using h)

theorem Released.not_endsLow {l : List BusEvent} (h : Released l) : ¬ EndsLow l := by
  rcases h with rfl | h
  · intro h'; cases h'
  · rw [EndsLow, h]; intro h'; cases h'

theorem Released.append {a b : List BusEvent} (ha : Released a) (hb : Released b) : Released (a ++ b) := by
  rcases hb with rfl | hb
  · rwa [List.append_nil]
  · exact .inr (by rw [List.getLast?_append, hb]; rfl)

theorem payloadLength_append (a b : List BusEvent) (h : a.getLast? = some (.cs .high)) :
    payloadLength (a ++ b) = payloadLength a := by
  induction a with
  | nil => cases h
  | cons e rest ih =>
    match e with
    | .xfer _ _ =>
      rw [List.cons_append, payloadLength, payloadLength, ih]
      cases rest with
      | nil => cases h
      | cons x xs => simpa using h
    | .cs .high => rfl
    | .cs .low => rfl

theorem wholeFrames_append (a b : List BusEvent) (h : Released a) :
    wholeFrames (a ++ b) = wholeFrames a ++ wholeFrames b := by
  induction a using wholeFrames.induct with
  | case1 x r rest ih =>
    have hr : rest.getLast? = some (.cs .high) := by
      rcases h.tail with h | h
      · cases h
      · cases rest with
        | nil => cases h
        | cons y ys => simpa using h
    simp only [List.cons_append, wholeFrames, payloadLength_append rest b hr, ih (.inr hr), List.append_assoc]
  | case2 e rest hn ih =>
    rw [List.cons_append, wholeFrames, wholeFrames.eq_2 _ _ hn, ih h.tail]
    intro x r rest' he hr
    cases rest with
    | nil =>
      rcases h with h | h
      · cases h
      · rw [he] at h; cases h
    | cons y ys =>
      rw [List.cons_append] at hr
      exact hn x r ys he (by rw [(List.cons.inj hr).1])
  | case3 => rfl

/-- What a boundary leaves: the trace, the status byte, the parameters and the shadow as they were. -/
abbrev SameTrace (s t : State) : Prop :=
  t.bus = s.bus ∧ t.status = s.status ∧ t.params = s.params ∧ t.shadow = s.shadow

theorem boundary_trace (s : State) : Leaves (SameTrace s) (SameTrace s) (boundary s) := by
  rw [boundary]
  split
  · exact ⟨rfl, rfl, rfl, rfl⟩
  · split
    · exact ⟨rfl, rfl, rfl, rfl⟩
    · exact ⟨rfl, rfl, rfl, rfl⟩

/-- The trace grows by `new`, and the status byte, the parameters and the shadow stay. -/
abbrev Grows (s t : State) (new : List BusEvent) : Prop :=
  t.bus = s.bus ++ new ∧ t.status = s.status ∧ t.params = s.params ∧ t.shadow = s.shadow

theorem driveCs_trace (l : Level) (s : State) :
    Leaves (fun t => Grows s t [.cs l]) (fun t => Grows s t []) (driveCs l s) := by
  have hb := boundary_trace s
  rw [driveCs, op_bind]
  cases hs : boundary s with
  | error e t => rw [hs] at hb; exact ⟨by rw [hb.1, List.append_nil], hb.2⟩
  | ok a t => rw [hs] at hb; exact ⟨congrArg (· ++ _) hb.1, hb.2⟩

theorem xfer_trace (b : Byte) (s : State) :
    Leaves (fun t => ∃ r, xfer b s = .ok r t ∧ Grows s t [.xfer b r]) (fun t => Grows s t []) (xfer b s) := by
  have hb := boundary_trace s
  rw [xfer, op_bind]
  cases hs : boundary s with
  | error e t => rw [hs] at hb; exact ⟨by rw [hb.1, List.append_nil], hb.2⟩
  | ok a t => rw [hs] at hb; exact ⟨_, rfl, congrArg (· ++ _) hb.1, hb.2⟩

theorem exchange_trace (out : List Byte) (s : State) :
    Leaves (fun t => ∃ new, Payload new ∧ new.length = out.length ∧ Grows s t new)
      (fun t => ∃ new, Payload new ∧ Grows s t new) (exchange out s) := by
  induction out generalizing s with
  | nil => exact ⟨[], by simp [Payload], rfl, by rw [List.append_nil], rfl, rfl, rfl⟩
  | cons b rest ih =>
    have hx := xfer_trace b s
    rw [exchange, op_bind]
    cases hs : xfer b s with
    | error e t => rw [hs] at hx; exact ⟨[], by simp [Payload], hx⟩
    | ok r t =>
      rw [hs] at hx
      obtain ⟨r', -, hg, hst, hp, hsh⟩ := hx
      have hr := ih t
      simp only [op_bind]
      cases ht : exchange rest t with
      | error e u =>
        rw [ht] at hr
        obtain ⟨new, hn, h1, h2, h3, h4⟩ := hr
        exact ⟨.xfer b r' :: new, by simpa [Payload] using hn,
          by rw [h1, hg, List.append_assoc, List.singleton_append], h2.trans hst, h3.trans hp, h4.trans hsh⟩
      | ok rs u =>
        rw [ht] at hr
        obtain ⟨new, hn, hl, h1, h2, h3, h4⟩ := hr
        exact ⟨.xfer b r' :: new, by simpa [Payload] using hn, by rw [List.length_cons, hl, List.length_cons],
          by rw [h1, hg, List.append_assoc, List.singleton_append], h2.trans hst, h3.trans hp, h4.trans hsh⟩

/-- The events of a whole frame: command byte `c` with the status byte `r`, the payload `pay` (R120). -/
def frameEvents (c r : Byte) (pay : List BusEvent) : List BusEvent := .cs .low :: .xfer c r :: (pay ++ [.cs .high])

/-- The events of a frame that ISR_HANDLER stops, and the status byte it leaves: none, chip-select alone, or the command
exchange with part of the payload. -/
def BrokenFrame (c : Byte) (before after : Option Byte) (new : List BusEvent) : Prop :=
  (new = [] ∨ new = [.cs .low]) ∧ after = before ∨
    ∃ r pay, Payload pay ∧ new = .cs .low :: .xfer c r :: pay ∧ after = some r

theorem frameEvents_command (c r : Byte) (pay : List BusEvent) (h : Payload pay) :
    commandExchanges (frameEvents c r pay) = [(c, r)] := by
  rw [frameEvents, commandExchanges, (commandExchanges_payload pay h).2]

theorem frameEvents_whole (c r : Byte) (pay : List BusEvent) (h : Payload pay) :
    wholeFrames (frameEvents c r pay) = [(c, pay.length)] := by
  rw [frameEvents, wholeFrames, (payloadLength_released pay h).1, (payloadLength_released pay h).2]
  rfl

theorem frameEvents_released (c r : Byte) (pay : List BusEvent) : Released (frameEvents c r pay) :=
  .inr (by simp [frameEvents, List.getLast?_cons])

theorem BrokenFrame.command {c : Byte} {b a : Option Byte} {new : List BusEvent} (h : BrokenFrame c b a new) :
    commandExchanges new = [] ∧ a = b ∨ ∃ r, commandExchanges new = [(c, r)] ∧ a = some r := by
  rcases h with ⟨rfl | rfl, h⟩ | ⟨r, pay, hp, rfl, h⟩
  · exact .inl ⟨rfl, h⟩
  · exact .inl ⟨rfl, h⟩
  · exact .inr ⟨r, by rw [commandExchanges, (commandExchanges_payload pay hp).1], h⟩

theorem BrokenFrame.whole {c : Byte} {b a : Option Byte} {new : List BusEvent} (h : BrokenFrame c b a new) :
    wholeFrames new = [] := by
  rcases h with ⟨rfl | rfl, -⟩ | ⟨r, pay, hp, rfl, -⟩
  · rfl
  · rfl
  · rw [wholeFrames, (payloadLength_open pay hp).1, (payloadLength_open pay hp).2]
    rfl

/-- What one frame adds to the trace: the whole frame, or, where ISR_HANDLER stops it, a part; the parameters and the
shadow stay. -/
theorem frame_trace (cmd : Byte) (out : List Byte) (s : State) :
    Leaves
      (fun t => ∃ r pay, Payload pay ∧ pay.length = out.length ∧ t.bus = s.bus ++ frameEvents cmd r pay ∧
        t.status = some r ∧ t.params = s.params ∧ t.shadow = s.shadow)
      (fun t => ∃ new, BrokenFrame cmd s.status t.status new ∧ t.bus = s.bus ++ new ∧ t.params = s.params ∧
        t.shadow = s.shadow)
      (frame cmd out s) := by
  have h1 := driveCs_trace .low (s.setSession true)
  simp only [frame, op_bind, look_apply, update_apply]
  cases e1 : driveCs .low (s.setSession true) with
  | error e t => rw [e1] at h1; exact ⟨[], .inl ⟨.inl rfl, h1.2.1⟩, h1.1, h1.2.2⟩
  | ok a t =>
    rw [e1] at h1
    have h2 := xfer_trace cmd (t.setCs .low)
    simp only
    cases e2 : xfer cmd (t.setCs .low) with
    | error e u =>
      rw [e2] at h2
      refine ⟨[.cs .low], .inl ⟨.inr rfl, h2.2.1.trans h1.2.1⟩, ?_, h2.2.2.1.trans h1.2.2.1,
        h2.2.2.2.trans h1.2.2.2⟩
      rw [h2.1, List.append_nil, State.setCs_bus, h1.1, State.setSession_bus]
    | ok r u =>
      rw [e2] at h2
      obtain ⟨r', hr', hu, -, hp, hsh⟩ := h2
      obtain rfl : r = r' := (EStateM.Result.ok.inj hr').1
      have hbus : u.bus = s.bus ++ [.cs .low, .xfer cmd r] := by
        rw [hu, State.setCs_bus, h1.1, State.setSession_bus, List.append_assoc, List.singleton_append]
      have hpu : u.params = s.params := hp.trans h1.2.2.1
      have hsu : u.shadow = s.shadow := hsh.trans h1.2.2.2
      have h3 := exchange_trace out (u.setStatus r)
      simp only
      cases e3 : exchange out (u.setStatus r) with
      | error e v =>
        rw [e3] at h3
        obtain ⟨pay, hn, hv, hst, hpv, hsv⟩ := h3
        exact ⟨_, .inr ⟨r, pay, hn, rfl, hst⟩, by rw [hv, State.setStatus_bus, hbus, List.append_assoc]; rfl,
          hpv.trans hpu, hsv.trans hsu⟩
      | ok rs v =>
        rw [e3] at h3
        obtain ⟨pay, hn, hl, hv, hst, hpv, hsv⟩ := h3
        have hvb : v.bus = s.bus ++ .cs .low :: .xfer cmd r :: pay := by
          rw [hv, State.setStatus_bus, hbus, List.append_assoc]; rfl
        have h4 := driveCs_trace .high v
        simp only
        cases e4 : driveCs .high v with
        | error e w =>
          rw [e4] at h4
          exact ⟨_, .inr ⟨r, pay, hn, rfl, h4.2.1.trans hst⟩, by rw [h4.1, List.append_nil, hvb],
            h4.2.2.1.trans (hpv.trans hpu), h4.2.2.2.trans (hsv.trans hsu)⟩
        | ok a w =>
          rw [e4] at h4
          refine ⟨r, pay, hn, hl, ?_, h4.2.1.trans hst, h4.2.2.1.trans (hpv.trans hpu),
            h4.2.2.2.trans (hsv.trans hsu)⟩
          refine h4.1.trans ?_
          rw [hvb, List.append_assoc]
          rfl

end Sys2Proof.Machine
end

