-- ==== Sys2Proof/Tests/Slice0.lean ====
section
/-! SUPPORT. The model's own tests: what WellFormed refuses, the decoding of words written out from the spec's
encodings, one step on small states with results taken from 95_test_vectors, and a witness for the hypotheses of every
statement that has some. -/

namespace Sys2Proof.Tests

open Sys2Proof.Machine

/-! ### WellFormed -/

theorem test_pTest_is_admitted : Config.pTest.wf .mcp3562 = true := by decide

/-- R60: a read of CONFIG0, and one of an address outside the map. -/
theorem test_wf_rreg_address :
    Instr.wf Config.pTest (.frameRreg 1 3) = false ∧ Instr.wf Config.pTest (.frameRreg 16 3) = false := by decide

/-- R68: the widths beside 3 and 4. -/
theorem test_wf_rreg_width :
    Instr.wf Config.pTest (.frameRreg 0 2) = false ∧ Instr.wf Config.pTest (.frameRreg 0 5) = false := by decide

/-- R60: a write of the ADC data register, and one of an address that the block does not use. -/
theorem test_wf_wreg_address :
    Instr.wf Config.pTest (.frameWreg 0 [0x08#8]) = false ∧ Instr.wf Config.pTest (.frameWreg 2 [0x08#8]) = false := by
  decide

/-- R68: no byte, a 3-byte write of CONFIG0, a 1-byte write of SCAN. -/
theorem test_wf_wreg_width :
    Instr.wf Config.pTest (.frameWreg 6 []) = false ∧ Instr.wf Config.pTest (.frameWreg 1 [0#8, 0#8, 0#8]) = false ∧
    Instr.wf Config.pTest (.frameWreg 7 [0x08#8]) = false := by decide

theorem test_wf_accepts :
    Instr.wf Config.pTest (.frameRreg 0 4) = true ∧ Instr.wf Config.pTest (.frameWreg 13 [0xA5#8]) = true ∧
    Instr.wf Config.pTest .begin = true := by decide

/-- R87: two equal command bytes. -/
theorem test_wf_params_command_bytes :
    { Config.pTest with fastReset := 0x6C#8 }.wf .mcp3562 = false := by decide

/-- R35: a cache smaller than channels_max. -/
theorem test_wf_params_cache : { Config.pTest with cacheSize := 3 }.wf .mcp3562 = false := by decide

/-! ### Decoding: words written out from 30_encoding R81 and R82 (95 section 2.1 where it has them) -/

theorem test_decode_begin : decodeTableWord 40 0x0100000000 = some .begin := by decide

theorem test_decode_read : decodeTableWord 40 0x0200000000 = some .read := by decide

theorem test_decode_isrHandler : decodeTableWord 40 0x0300000000 = some .isrHandler := by decide

theorem test_decode_setDataFormat :
    decodeTableWord 40 0x1000000003 = some (.setDataFormat 3#8) ∧
    decodeTableWord 40 0x10000000FF = some (.setDataFormat 255#8) := by decide

theorem test_decode_setConvMode : decodeTableWord 40 0x1100000003 = some (.setConvMode 3#2) := by decide

theorem test_decode_setAdcMode : decodeTableWord 40 0x1200000002 = some (.setAdcMode 2#2) := by decide

theorem test_decode_setClockSelection : decodeTableWord 40 0x1300000001 = some (.setClockSelection 1#2) := by decide

theorem test_decode_setScanChannel : decodeTableWord 40 0x1400000038 = some (.setScanChannel 0x38#8) := by decide

theorem test_decode_unsetScanChannel : decodeTableWord 40 0x1500000001 = some (.unsetScanChannel 0x01#8) := by decide

theorem test_decode_setReference :
    decodeTableWord 40 0x1600000000 = some (.setReference 0#32) ∧
    decodeTableWord 40 0x16FFFFFFFF = some (.setReference 4294967295#32) := by decide

theorem test_decode_lock : decodeTableWord 40 0x170000005A = some (.lock 0x5A#8) := by decide

theorem test_decode_unlock : decodeTableWord 40 0x1800000000 = some .unlock := by decide

theorem test_decode_analogRead : decodeTableWord 40 0x2000000008 = some (.analogRead 0x08#8) := by decide

theorem test_decode_analogReadDiff :
    decodeTableWord 40 0x21000000F0 = some (.analogReadDiff 15#4 0#4) ∧
    decodeTableWord 40 0x2100000001 = some (.analogReadDiff 0#4 1#4) := by decide

theorem test_decode_toggles :
    decodeTableWord 40 0x3000000000 = some .singleEndedMode ∧
    decodeTableWord 40 0x3100000000 = some .differentialMode ∧
    decodeTableWord 40 0x3200000000 = some .startContinuousDifferential ∧
    decodeTableWord 40 0x3300000000 = some .startSingleDifferential := by decide

theorem test_decode_setResolution :
    decodeTableWord 40 0x3400000080 = some (.setResolution (BitVec.ofInt 8 (-128))) ∧
    decodeTableWord 40 0x340000007F = some (.setResolution 127#8) := by decide

theorem test_decode_queries :
    decodeTableWord 40 0x4000000000 = some .isComplete ∧ decodeTableWord 40 0x4100000000 = some .getMaxValue ∧
    decodeTableWord 40 0x4200000000 = some .isDifferential ∧ decodeTableWord 40 0x4300000000 = some .isContinuous ∧
    decodeTableWord 40 0x4400000000 = some .getReference := by decide

theorem test_decode_readCache : decodeTableWord 40 0x45000000FF = some (.readCache 255#8) := by decide

/-- 95 section 2.1, the illegal words. -/
theorem test_decode_illegal :
    decodeCommand 0x0000000000#40 = .illegal .unassignedOpcode ∧
    decodeCommand 0x4600000000#40 = .illegal .unassignedOpcode ∧
    decodeCommand 0x1100000004#40 = .illegal .mustBeZero ∧
    decodeCommand 0x0100000001#40 = .illegal .mustBeZero ∧
    decodeCommand 0x2000000100#40 = .illegal .mustBeZero := by decide

/-- 95 section 2.2: the bytes the block sends in a frame. -/
theorem test_decode_frames :
    decode Config.pTest none (.wire [0x41#8, 0#8, 0#8, 0#8]) = .ok (.frameRreg 0 3) ∧
    decode Config.pTest none (.wire [0x5E#8, 0x00#8, 0x01#8, 0x08#8]) = .ok (.frameWreg 7 [0x00#8, 0x01#8, 0x08#8]) ∧
    decode Config.pTest none (.wire [0x78#8]) = .ok (.frameFast .reset) ∧
    decode Config.pTest none (.wire [0x68#8]) = .ok (.frameFast .convStart) := by decide

/-- R88: S.fmt_code chooses the length of a read, 3 bytes for `sgn_data`, 4 for `sgnext_data`. -/
theorem test_decode_read_width :
    decode Config.pTest (some 0#8) (.wire [0x41#8, 0#8, 0#8, 0#8]) = .ok (.frameRreg 0 3) ∧
    decode Config.pTest (some 2#8) (.wire [0x41#8, 0#8, 0#8, 0#8]) = .illegal .notAFrame ∧
    decode Config.pTest (some 2#8) (.wire [0x41#8, 0#8, 0#8, 0#8, 0#8]) = .ok (.frameRreg 0 4) := by decide

/-- Bytes that are no frame of the block (R60, R68, R89): no command byte, a fast command with a payload, a read that
sends other bytes than 0x00, a read of an unused address, a write of ADCDATA, a 3-byte write of CONFIG0. -/
theorem test_decode_no_frame :
    decode Config.pTest none (.wire []) = .illegal .notAFrame ∧
    decode Config.pTest none (.wire [0x00#8]) = .illegal .notAFrame ∧
    decode Config.pTest none (.wire [0x78#8, 0x00#8]) = .illegal .notAFrame ∧
    decode Config.pTest none (.wire [0x41#8, 0x01#8, 0#8, 0#8]) = .illegal .notAFrame ∧
    decode Config.pTest none (.wire [0x7D#8, 0#8, 0#8, 0#8]) = .illegal .notAFrame ∧
    decode Config.pTest none (.wire [0x42#8, 0#8]) = .illegal .notAFrame ∧
    decode Config.pTest none (.wire [0x46#8, 0#8, 0#8, 0#8]) = .illegal .notAFrame := by decide

theorem test_decode_table_frames :
    decodeTableWord 8 0x41 = some (.frameRreg 0 4) ∧ decodeTableWord 8 0x46 = some (.frameWreg 1 [0#8]) ∧
    decodeTableWord 8 0x5E = some (.frameWreg 7 [0#8, 0#8, 0#8]) ∧
    decodeTableWord 8 0x6C = some (.frameFast .standby) := by decide

/-- 30_encoding R85. -/
theorem test_assemble :
    assemble "SET_RESOLUTION" [-128] = some (.setResolution 0x80#8) ∧ assemble "ISR" [] = some .isrHandler ∧
    assemble "SET_CONV_MODE" [4] = none := by decide

/-! ### The small states of the tests -/

/-- The shadow after BEGIN in polled mode (95 section 2.5). -/
def shadow : Shadow where
  imgCfg0 := 0xE0#8
  imgCfg3 := 0x00#8
  imgMux := 0x08#8
  imgScan := [0#8, 0#8, 0#8]
  imgLock := 0xA5#8
  fmtCode := 0#8

/-- A begun, idle block of variant `v`, whose peer will answer `draws`. -/
def ready (v : Variant) (sh : Shadow) (draws : List Byte) : State :=
  { State.instantiate Config.pTest v false with
    shadow := some sh, begun := true, status := some 0x13#8, cs := .driven .high, resolution := v.resolutionMax - 1#8
    peer := draws }

/-- The next state of an instruction, if there is one. -/
def after (i : Instr) (s : State) : Option State :=
  match exec i s with
  | .next t => some t
  | .fault _ => none
  | .refused _ => none

/-- The state after one step, if there is one. -/
def stepped (s : State) : Option State :=
  match step s with
  | .next t => some t
  | .fault _ => none
  | .refused _ => none

/-! ### One step each, with results from 95_test_vectors -/

/-- 95 section 2.8, polled, reference 0, with the draws of P1. -/
theorem test_begin_polled :
    (after .begin { State.reset with peer := [0x1F#8, 0x13#8, 0#8, 0x13#8, 0#8, 0x13#8, 0#8, 0x13#8] }).map
      (fun t => (t.bus.map BusEvent.sent, t.shadow, t.reference, t.responses)) =
    some ([.inl .high, .inl .low, .inr 0x78#8, .inl .high, .inl .low, .inr 0x46#8, .inr 0xE0#8, .inl .high,
        .inl .low, .inr 0x52#8, .inr 0x00#8, .inl .high, .inl .low, .inr 0x46#8, .inr 0xE0#8, .inl .high,
        .inl .low, .inr 0x6C#8, .inl .high],
      some { shadow with imgMux := 0x01#8 }, 2400#32, [{ ok := some true, status := some 0x13#8 }]) := by decide +kernel

/-- 95 section 2.8, interrupt mode. -/
theorem test_begin_interrupt :
    (after .begin { State.instantiate Config.pTest .mcp3564 true with
      peer := [0x1F#8, 0x13#8, 0#8, 0x13#8, 0#8, 0x13#8, 0#8, 0x13#8] }).map
      (fun t => (t.bus.map BusEvent.sent, t.shadow.map (·.imgCfg3), t.shadow.map (·.fmtCode))) =
    some ([.inl .high, .inl .low, .inr 0x78#8, .inl .high, .inl .low, .inr 0x46#8, .inr 0xE0#8, .inl .high,
        .inl .low, .inr 0x52#8, .inr 0x30#8, .inl .high, .inl .low, .inr 0x52#8, .inr 0xF0#8, .inl .high,
        .inl .low, .inr 0x68#8, .inl .high], some 0xF0#8, some 3#8) := by decide +kernel

/-- P3 step 8: an unrecognized format reads 4 bytes and decodes to -1. -/
theorem test_read_unrecognized :
    (after .read (ready .mcp3462 { shadow with fmtCode := 7#8, imgMux := 0x01#8 }
      [0x13#8, 0x12#8, 0x34#8, 0x56#8, 0x78#8])).map (fun t => (t.bus, t.responses, t.sample)) =
    some ([.cs .low, .xfer 0x41#8 0x13#8, .xfer 0#8 0x12#8, .xfer 0#8 0x34#8, .xfer 0#8 0x56#8, .xfer 0#8 0x78#8,
      .cs .high], [{ status := some 0x13#8, channel := some 8#8, value := some 0xFFFFFFFF#32 }],
      some 0x12345678#32) := by decide

/-- 95 section 2.4, first row. -/
theorem test_isr_stores :
    (after .isrHandler (ready .mcp3564 { shadow with fmtCode := 3#8 } [0x12#8, 0x32#8, 0#8, 0#8, 0x05#8])).map
      (fun t => (t.cache[3]?, t.status, t.responses)) =
    some (some (some 0x80000005#32), some 0x12#8, [{ }]) := by decide

/-- 95 section 2.4, fourth row. -/
theorem test_isr_outside_the_cache :
    (after .isrHandler (ready .mcp3564 { shadow with imgMux := 0x00#8 } [0x12#8, 0#8, 0#8, 0x2A#8])).map
      (fun t => (t.fault, t.status, t.responses)) =
    some (some ⟨.cacheIndexOutOfRange, 0x0300000000#40⟩, some 0x12#8, []) := by decide

/-- 95 section 2.5: `SET_DATA_FORMAT sgnext_data`. -/
theorem test_setDataFormat :
    (after (.setDataFormat 2#8) (ready .mcp3562 shadow [0x13#8, 0#8])).map
      (fun t => (t.bus.map BusEvent.sent, t.resolution)) =
    some ([.inl .low, .inr 0x52#8, .inr 0x20#8, .inl .high], 23#8) := by decide

/-- 95 section 2.5: `SET_DATA_FORMAT 9` with the draw 0b01. -/
theorem test_setDataFormat_unrecognized :
    (after (.setDataFormat 9#8) { ready .mcp3562 shadow [0x13#8, 0#8] with fmtDraws := [1#2] }).map
      (fun t => (t.bus.map BusEvent.sent, t.resolution, t.shadow.map (·.fmtCode))) =
    some ([.inl .low, .inr 0x52#8, .inr 0x10#8, .inl .high], 0xFF#8, some 9#8) := by decide

/-- What a setter sends (95 section 2.5). -/
def sends (i : Instr) : Option (List (Level ⊕ Byte)) :=
  (after i (ready .mcp3562 shadow [0x13#8, 0#8, 0#8, 0#8])).map fun t => t.bus.map BusEvent.sent

theorem test_setConvMode : sends (.setConvMode 3#2) = some [.inl .low, .inr 0x52#8, .inr 0xC0#8, .inl .high] := by
  decide

theorem test_setAdcMode : sends (.setAdcMode 3#2) = some [.inl .low, .inr 0x46#8, .inr 0xE3#8, .inl .high] := by
  decide

theorem test_setClockSelection :
    sends (.setClockSelection 0#2) = some [.inl .low, .inr 0x46#8, .inr 0xC0#8, .inl .high] := by decide

theorem test_setScanChannel :
    sends (.setScanChannel 0x38#8) =
      some [.inl .low, .inr 0x5E#8, .inr 0#8, .inr 0#8, .inr 0x08#8, .inl .high] := by decide

/-- R193 with the shadow of P2 after step 3: bit 8 is cleared, bit 3 stays. -/
theorem test_unsetScanChannel :
    (after (.unsetScanChannel 0x01#8) (ready .mcp3564 { shadow with imgScan := [0#8, 0x01#8, 0x08#8] }
      [0x13#8, 0#8, 0#8, 0#8])).map (fun t => t.shadow.map (·.imgScan)) = some (some [0#8, 0#8, 0x08#8]) := by decide

/-- 95 section 2.5: `SET_SCAN_CHANNEL 0x00` faults with no frame. -/
theorem test_setScanChannel_unknown :
    (after (.setScanChannel 0x00#8) (ready .mcp3562 shadow [])).map (fun t => (t.fault, t.bus)) =
    some (some ⟨.channelNotFound, 0x1400000000#40⟩, []) := by decide

theorem test_setReference_zero :
    sends (.setReference 0#32) = some [.inl .low, .inr 0x46#8, .inr 0xE0#8, .inl .high] := by decide

/-- 95 section 2.5: `SET_REFERENCE 1250` before BEGIN. -/
theorem test_setReference_before_begin :
    (after (.setReference 1250#32) State.reset).map (fun t => (t.reference, t.bus, t.responses)) =
    some (1250#32, [], [{ }]) := by decide

theorem test_lock : sends (.lock 0x5A#8) = some [.inl .low, .inr 0x76#8, .inr 0x5A#8, .inl .high] := by decide

theorem test_unlock : sends .unlock = some [.inl .low, .inr 0x76#8, .inr 0xA5#8, .inl .high] := by decide

/-- 95 section 2.6, first row. -/
theorem test_analogRead :
    (after (.analogRead 0x08#8) (ready .mcp3562 shadow
      [0x13#8, 0#8, 0x13#8, 0x17#8, 0x80#8, 0#8, 0#8])).map
      (fun t => (t.bus.map BusEvent.sent, t.responses, t.cache[0]?)) =
    some ([.inl .low, .inr 0x5A#8, .inr 0x08#8, .inl .high, .inl .low, .inr 0x68#8, .inl .high, .inl .low,
      .inr 0x41#8, .inr 0#8, .inr 0#8, .inr 0#8, .inl .high], [{ value := some 0xFF800000#32 }],
      some (some 0xFF800000#32)) := by decide

/-- 95 section 2.6, second row. -/
theorem test_analogReadDiff :
    (after (.analogReadDiff 0#4 1#4) (ready .mcp3561 { shadow with fmtCode := 2#8 }
      [0x13#8, 0#8, 0x13#8, 0x17#8, 0xFF#8, 0xFF#8, 0xFE#8, 0#8])).map (fun t => (t.responses, t.cache[8]?)) =
    some ([{ value := some 0x80FFFE00#32 }], some (some 0x80FFFE00#32)) := by decide

/-- 95 section 2.7, the toggles. -/
theorem test_toggles :
    (after .startContinuousDifferential State.reset).map (fun t => (t.continuous, t.differential)) =
      some (true, true) ∧
    (after .startSingleDifferential { State.reset with continuous := true }).map
      (fun t => (t.continuous, t.differential)) = some (false, true) ∧
    (after .singleEndedMode { State.reset with differential := true }).map (·.differential) = some false ∧
    (after .differentialMode State.reset).map (·.differential) = some true := by decide

/-- Property 6 of the source. -/
theorem test_setResolution :
    (after (.setResolution 24#8) (ready .mcp3564 shadow [])).map (·.resolution) = some 23#8 ∧
    (after (.setResolution 100#8) (ready .mcp3564 shadow [])).map (·.resolution) = some 23#8 ∧
    (after (.setResolution 0xFF#8) (ready .mcp3564 shadow [])).map (·.resolution) = some 0xFF#8 ∧
    (after (.setResolution 0#8) (ready .mcp3564 shadow [])).map (·.resolution) = some 0#8 := by decide

/-- 95 section 2.7, IS_COMPLETE. -/
theorem test_isComplete :
    (after .isComplete { State.reset with status := some 0x13#8 }).map (·.responses) =
      some [{ flag := some false }] ∧
    (after .isComplete { State.reset with status := some 0x04#8 }).map (·.responses) = some [{ flag := some true }] ∧
    (after .isComplete State.reset).map (·.fault) = some (some ⟨.unwrittenStatus, 0x4000000000#40⟩) := by decide

/-- 95 section 2.7, GET_MAX_VALUE. -/
theorem test_getMaxValue :
    (after .getMaxValue { State.reset with resolution := 20#8 }).map (·.responses) =
      some [{ max := some 1048576#32 }] ∧
    (after .getMaxValue { State.reset with resolution := 0#8 }).map (·.responses) = some [{ max := some 1#32 }] ∧
    (after .getMaxValue { State.reset with resolution := 0x80#8 }).map (·.fault) =
      some (some ⟨.negativeResolution, 0x4100000000#40⟩) := by decide

/-- 95 section 2.7, first row. -/
theorem test_queries_at_instantiation :
    (after .isDifferential State.reset).map (·.responses) = some [{ flag := some false }] ∧
    (after .isContinuous State.reset).map (·.responses) = some [{ flag := some false }] ∧
    (after .getReference State.reset).map (·.responses) = some [{ ref := some 0#32 }] := by decide

/-- 95 section 2.7, READ_CACHE. -/
theorem test_readCache :
    (after (.readCache 2#8) State.reset).map (·.fault) = some (some ⟨.unwrittenCache, 0x4500000002#40⟩) ∧
    (after (.readCache 16#8) State.reset).map (·.fault) =
      some (some ⟨.cacheIndexOutOfRange, 0x4500000010#40⟩) := by decide

/-- 95 section 2.2, three rows. -/
theorem test_frames :
    (after (.frameRreg 0 3) { State.reset with peer := [0x13#8, 0x12#8, 0x34#8, 0x56#8] }).map
      (fun t => (t.payload, t.status)) = some ([0x12#8, 0x34#8, 0x56#8], some 0x13#8) ∧
    (after (.frameWreg 6 [0x08#8]) { State.reset with peer := [0x17#8, 0xFF#8] }).map (·.bus) =
      some [.cs .low, .xfer 0x5A#8 0x17#8, .xfer 0x08#8 0xFF#8, .cs .high] ∧
    (after (.frameFast .reset) { State.reset with peer := [0x1F#8] }).map (·.bus) =
      some [.cs .low, .xfer 0x78#8 0x1F#8, .cs .high] := by decide

/-- 95 section 2.9: ISR_HANDLER between the `78>ss` event and the next `CS1` of BEGIN, after two quiet boundaries. -/
theorem test_isr_inside_begin :
    (after .begin { State.reset with irqPlan := [false, false, true], peer := [0x1F#8] }).map
      (fun t => (t.fault, t.bus, t.cs)) =
    some (some ⟨.concurrentEntry, 0x0300000000#40⟩, [.cs .high, .cs .low, .xfer 0x78#8 0x1F#8], .driven .low) := by
  decide

/-- 95 section 2.9: the word 0x05_00000000. -/
theorem test_illegal_word :
    stepped { State.reset with port := [.command 0x0500000000#40] } =
      some { State.reset with fault := some ⟨.illegalCommand, 0x0500000000#40⟩ } := by decide

/-- The reset state with a table row's word runs it as its first instruction (95 section 2.7, first row). -/
theorem test_first_step :
    stepped (State.reset.withFetchWord 40 0x4400000000) =
      some { State.reset with responses := [{ ref := some 0#32 }] } := by decide

/-! ### The sample decoder (95 section 2.3) -/

theorem test_decode_values :
    decodeValue 0#8 0x00800000#32 = 0xFF800000#32 ∧ decodeValue 1#8 0xAABBCC00#32 = 0x00AABBCC#32 ∧
    decodeValue 2#8 0xFD123456#32 = 0x00123456#32 ∧ decodeValue 3#8 0xF2800000#32 = 0x80800000#32 ∧
    decodeValue 255#8 0#32 = 0xFFFFFFFF#32 := by decide

theorem test_lookup :
    [0x08#8, 0x78#8, 0x01#8, 0x67#8, 0xDE#8, 0x88#8, 0x00#8].map State.reset.lookup =
      [0#8, 7#8, 8#8, 11#8, 12#8, 15#8, 0xFF#8] := by decide

/-! ### Witnesses: a state and operands that meet all the hypotheses of a statement together -/

/-- The begun block of the witnesses: the peer answers 0x13, a 3-byte payload or the frames before it. -/
def block : State := ready .mcp3562 shadow [0x13#8, 0x00#8, 0x00#8, 0x2A#8]

/-- The same block with a multiplexer image that is in no channel table. -/
def blockOff : State := ready .mcp3562 { shadow with imgMux := 0x00#8 } [0x13#8, 0x00#8, 0x00#8, 0x2A#8]

theorem witness_DecodeEncodeAgree :
    Config.pTest.wf .mcp3562 = true ∧ Instr.wf Config.pTest (.frameRreg 0 4) = true ∧ 4 ∈ readWidths (some 255#8) ∧
    Instr.wf Config.pTest (.frameWreg 7 [0xFF#8, 0xFF#8, 0xFF#8]) = true ∧
    Instr.wf Config.pTest (.setReference 0xFFFFFFFF#32) = true := by decide

/-- A frame that is no read fits every format code, a read the one that gives its width. -/
theorem witness_DecodeEncodeAgree_fits :
    (Instr.frameRreg 0 4).fits (some 255#8) ∧ (Instr.frameWreg 13 [0xA5#8]).fits (some 0#8) := by
  constructor <;> rintro a n ⟨⟩
  decide

theorem witness_LegalWordIsTheEncoding : decodeCommand 0x21000000FF#40 = .ok (.analogReadDiff 15#4 15#4) := by decide

theorem witness_DecodedIsWellFormed :
    decode Config.pTest (some 1#8) (.wire [0x41#8, 0#8, 0#8, 0#8]) = .ok (.frameRreg 0 3) ∧
    decode Config.pTest none (.wire [0x41#8, 0#8, 0#8, 0#8, 0#8]) = .ok (.frameRreg 0 4) ∧
    decode Config.pTest none (.wire [0x76#8, 0#8]) = .ok (.frameWreg 13 [0#8]) ∧
    decode Config.pTest none (.wire [0x5E#8, 0#8, 0#8, 0#8]) = .ok (.frameWreg 7 [0#8, 0#8, 0#8]) := by decide

theorem witness_IllegalWordsAreThese :
    unassignedOpcode 0x04 = true ∧ unassignedOpcode 0x0F = true ∧ unassignedOpcode 0x10 = false ∧
    unassignedOpcode 0x45 = false ∧ unassignedOpcode 0x46 = true ∧ unassignedOpcode 0xFF = true ∧
    argField 0x4500000100#40 &&& mustBeZeroMask (opField 0x4500000100#40).toNat ≠ 0#32 := by decide

theorem witness_StepRunsTheDecoded :
    let s : State := { State.reset with port := [.command 0x4400000000#40] }
    s.fault = none ∧ s.port = .command 0x4400000000#40 :: [] ∧
    s.decodeInput (.command 0x4400000000#40) = .ok .getReference := by decide

theorem witness_IllegalWordFaults :
    let s : State := { State.reset with port := [.command 0x0500000000#40] }
    s.fault = none ∧ s.port = .command 0x0500000000#40 :: [] ∧
    decodeCommand 0x0500000000#40 = .illegal .unassignedOpcode := by decide

theorem witness_BlockWaitsForAWord : State.reset.fault = none ∧ State.reset.port = [] := by decide

theorem witness_FaultedBlockTakesNoStep :
    ({ State.reset with fault := some ⟨.notBegun, 0x0200000000#40⟩ } : State).fault =
      some ⟨.notBegun, 0x0200000000#40⟩ := by decide

theorem witness_VariantTable :
    (State.instantiateIndex Config.pTest 5 true).isSome = true ∧
    State.instantiateIndex Config.pTest 6 true = none := by decide

theorem witness_ExtendedSignDecodeKeepsTheMask :
    (2#8 = 2#8 ∨ 2#8 = 3#8) ∧ (0x02000000#32).getLsbD 25 = true ∧
    decodeValue 2#8 0x02000000#32 = 0x80000000#32 ∧ decodeValue 3#8 0xFFFFFFFF#32 = 0x80FFFFFF#32 := by decide

theorem witness_LookupFindsLowestIndex :
    (State.reset.params.channelTable State.reset.v).length ≤ 16 ∧
    0x88#8 ∈ State.reset.params.channelTable State.reset.v ∧
    0xFF#8 ∉ State.reset.params.channelTable State.reset.v := by decide

theorem witness_ChannelIdByFormat :
    State.reset.decodeChannel 3#8 0xF0000000#32 0x08#8 = 15#8 ∧
    State.reset.decodeChannel 4#8 0xF0000000#32 0x08#8 = 0#8 := by decide

theorem witness_ResolutionByFormat :
    State.reset.resolutionMax = State.reset.v.resolutionMax ∧ State.reset.newResolution 3#8 = 23#8 ∧
    State.reset.newResolution 4#8 = 0xFF#8 := by decide

theorem witness_ReadReturnsTheSample : block.Ready shadow ∧ block.Quiet (sampleWidth shadow.fmtCode + 2) := by decide

theorem witness_IsrStoresTheSample :
    block.Ready shadow ∧ block.Quiet 5 ∧
    (block.decodeChannel 0#8 (assembleBytes (block.answers 1 3)) 0x08#8).toNat < block.params.cacheSize := by decide

/-- Channel 15 of the 16 entries, the last one inside the cache. -/
theorem witness_IsrStoresTheSample_last_channel :
    (block.decodeChannel 3#8 0xF2800000#32 0x08#8).toNat = 15 ∧ 15 < block.params.cacheSize := by decide

theorem witness_IsrOutsideTheCacheFaults :
    blockOff.Ready { shadow with imgMux := 0x00#8 } ∧ blockOff.Quiet 5 ∧
    blockOff.params.cacheSize ≤
      (blockOff.decodeChannel 0#8 (assembleBytes (blockOff.answers 1 3)) 0x00#8).toNat := by decide

theorem witness_SetRecognizedFormat : block.Ready shadow ∧ block.Quiet 3 ∧ (3#8).toNat ≤ 3 := by decide

theorem witness_SetUnrecognizedFormat : block.Ready shadow ∧ block.Quiet 3 ∧ 4 ≤ (4#8).toNat := by decide

/-- The hypotheses of the other setters' statements: SetConvModeWritesThrough, SetAdcModeWritesThrough,
SetClockWritesThrough, LockAndUnlockWriteTheKey and SetReferenceZeroSelectsInternal. -/
theorem witness_setters : block.Ready shadow ∧ block.Quiet 3 := by decide

theorem witness_ScanChannelWritesItsBit :
    block.Ready shadow ∧ block.Quiet (shadow.imgScan.length + 2) ∧ block.lookup 0x88#8 ≠ 0xFF#8 := by decide

theorem witness_UnknownScanChannelFaults : block.Ready shadow ∧ block.lookup 0x00#8 = 0xFF#8 := by decide

theorem witness_ViewWriteKeepsOtherBits :
    view2 (setView2 0x00#8 6 0b11#2) 6 = 0b11#2 ∧ (setView2 0xFF#8 6 0b00#2).getLsbD 5 = true ∧
    viewBit (setViewBit 0x00#8 7 true) 7 = true ∧ (setViewBit 0xFF#8 7 false).getLsbD 6 = true := by decide

theorem witness_ScanMaskWriteKeepsOtherBits :
    Config.pTest.layout.scanLo + 15 < 8 * shadow.imgScan.length ∧
    (shadow.setScanMask Config.pTest.layout 15 true).imgScan = [0x00#8, 0x80#8, 0x00#8] := by decide

theorem witness_SetReferenceNonzeroIsHostSide : State.reset.Idle ∧ 1250#32 ≠ 0#32 := by decide

/-- The block of the conversion witnesses: answers for the three frames. -/
def convBlock : State := ready .mcp3562 shadow [0x13#8, 0#8, 0x13#8, 0x17#8, 0x80#8, 0#8, 0#8]

theorem witness_AnalogReadConvertsAndStores :
    convBlock.Ready shadow ∧ convBlock.Quiet 12 ∧
    (convBlock.decodeChannel 0#8 (assembleBytes (convBlock.answers 4 3)) 0x08#8).toNat <
      convBlock.params.cacheSize := by decide

theorem witness_AnalogReadDiffConvertsThePair :
    convBlock.Ready shadow ∧ convBlock.Quiet 12 ∧
    (convBlock.decodeChannel 0#8 (assembleBytes (convBlock.answers 4 3))
      (BitVec.ofNat 8 (16 * (8#4).toNat + (8#4).toNat))).toNat < convBlock.params.cacheSize := by decide

theorem witness_AnalogReadOutsideTheCacheFaults :
    convBlock.Ready shadow ∧ convBlock.Quiet 12 ∧ convBlock.params.cacheSize ≤
      (convBlock.decodeChannel 0#8 (assembleBytes (convBlock.answers 4 3)) 0x10#8).toNat := by decide

/-- 95 section 2.6, third row: the pair (1, 0), which no entry of the channel table is. -/
theorem witness_AnalogReadOutsideTheCacheFaults_diff :
    convBlock.params.cacheSize ≤ (convBlock.decodeChannel 0#8 (assembleBytes (convBlock.answers 4 3))
      (BitVec.ofNat 8 (16 * (1#4).toNat + (0#4).toNat))).toNat := by decide

theorem witness_BeginPolledSelectsInternalReference :
    State.reset.Idle ∧ State.reset.hasIrq = false ∧ State.reset.reference = 0#32 ∧ State.reset.Quiet 18 := by decide

theorem witness_BeginPolledKeepsHeldReference :
    let s : State := { State.reset with reference := 3300#32 }
    s.Idle ∧ s.hasIrq = false ∧ s.reference ≠ 0#32 ∧ s.Quiet 14 := by decide

theorem witness_BeginInterruptStartsConversion :
    let s := State.instantiate Config.pTest .mcp3564 true
    s.Idle ∧ s.hasIrq = true ∧ s.Quiet 18 := by decide

/-- The hypotheses of ModeTogglesWriteTheFlag, StartTogglesWriteBothFlags, SetResolutionBelowTheMaximum, HostQueriesReturnWhatIsHeld and
FramesRunAsOneTransaction. -/
theorem witness_idle : State.reset.Idle ∧ State.reset.Quiet 6 := by decide

theorem witness_IsCompleteReturnsTheRawBit :
    block.Idle ∧ block.status = some 0x13#8 ∧ State.reset.Idle ∧ State.reset.status = none := by decide

theorem witness_GetMaxValueIsAPowerOfTwo :
    let s : State := { State.reset with resolution := 0#8 }
    let t : State := { State.reset with resolution := 31#8 }
    let u : State := { State.reset with resolution := 0xFF#8 }
    s.Idle ∧ s.resolution.toInt = (0 : Nat) ∧ t.resolution.toInt = (31 : Nat) ∧ u.resolution.toInt < 0 := by decide

theorem witness_ReadCacheReturnsTheLastStored :
    let s : State := State.reset.setCache 15 0x2A#32
    s.Idle ∧ (15#8).toNat < s.params.cacheSize ∧ s.cache[(15#8).toNat]? = some (some 0x2A#32) ∧
    s.cache[(0#8).toNat]? = some none ∧ s.params.cacheSize ≤ (16#8).toNat := by decide

theorem witness_NotBegunBeforeBegin :
    State.reset.Idle ∧ State.reset.begun = false ∧ (Instr.setReference 0#32).needsBegin = true ∧
    commandWord (.setReference 0#32) = some 0x1600000000#40 := by decide

theorem witness_IsrWhileBusyFaults :
    let s : State := State.reset.enter (.fg .read)
    s.fault = none ∧ s.busy ≠ .none := by decide

/-- A READ of 7 events with ISR_HANDLER at the second boundary. -/
theorem witness_IsrAtABoundaryStopsTheOperation :
    let s : State := { block with irqPlan := [false, true] }
    s.Idle ∧ s.irqPlan = List.replicate 1 false ++ true :: [] ∧
    ∃ t, exec .read { s with irqPlan := [] } = .next t ∧ s.bus.length + (1 + 1) < t.bus.length :=
  ⟨by decide, by decide, _, rfl, by decide⟩

theorem witness_InstanceFieldsNeverChange : ∃ t, step (State.reset.withFetchWord 40 0x4400000000) = .next t :=
  ⟨_, rfl⟩

theorem witness_StepKeepsTheInvariant :
    (State.reset.withFetchWord 40 0x4400000000).Inv ∧
    ∃ t, step (State.reset.withFetchWord 40 0x4400000000) = .next t :=
  ⟨by decide, _, rfl⟩

theorem witness_InvariantAtInstantiation : Config.pTest.wf .mcp3464 = true := by decide

theorem witness_OnlyReadersWriteTheCache : ∃ t, exec .read block = .next t := ⟨_, rfl⟩

theorem witness_OnlyTogglesWriteTheFlags : ∃ t, exec (.setConvMode 3#2) block = .next t := ⟨_, rfl⟩

theorem witness_HostSideOperationsSendNoFrame :
    Instr.isHostSide .isComplete = true ∧ ∃ t, exec .isComplete block = .next t := ⟨rfl, _, rfl⟩

theorem witness_FramesUseTheListedCommands :
    Instr.wf block.params .read = true ∧ ∃ t, exec .read block = .next t ∧
      commandExchanges t.bus = [(0x41#8, 0x13#8)] :=
  ⟨rfl, _, rfl, by decide⟩

/-- A READ in `sgn_data`, and a reset frame by itself. -/
theorem witness_StepSendsOnlyListedFrames :
    let s : State := { block with port := [.command 0x0200000000#40] }
    s.Inv ∧ (∃ t, step s = .next t ∧ wholeFrames t.bus = [(0x41#8, 3)]) ∧
    ∃ u, step (State.reset.withFetchWord 8 0x78) = .next u ∧ wholeFrames u.bus = [(0x78#8, 0)] :=
  ⟨by decide, ⟨_, rfl, by decide⟩, _, rfl, by decide⟩

theorem witness_SentBytesIgnoreTheAnswers :
    ∃ t u, exec .read block = .next t ∧ exec .read { block with peer := [0x17#8], drawn := 9 } = .next u :=
  ⟨_, _, rfl, rfl⟩

end Sys2Proof.Tests
end

section
/-! What a step can do, said once (60_exceptions R262, R263, 70_reset_and_hazards R293), and the statement that the
configuration fields never change (10_state R22). -/

namespace Sys2Proof.Machine

/-- A word that decodes to no operation has a next state only if it is a command word: IllegalCommand is raised. -/
theorem rejectInput_cases {inp : Input} {s t : State} (hx : rejectInput inp s = .next t) :
    ∃ w, inp = .command w ∧ t = s.raise .illegalCommand w := by
  cases inp with
  | command w => exact ⟨w, rfl, (Host.Outcome.next.inj hx).symm⟩
  | wire _ => cases hx

/-- The three ways in which a step has a next state, each from a state without a fault: nothing is presented, the
first input is an instruction that runs, or it is a command word that raises IllegalCommand. -/
theorem step_cases {s t : State} (hx : step s = .next t) :
    s.fault = none ∧
      ((s.port = [] ∧ t = s) ∨
       (∃ inp rest i, s.port = inp :: rest ∧ s.decodeInput inp = .ok i ∧ exec i (s.take rest) = .next t) ∨
       (∃ w rest v, s.port = .command w :: rest ∧ s.decodeInput (.command w) = .illegal v ∧
          t = (s.take rest).raise .illegalCommand w)) := by
  unfold step at hx
  split at hx
  next => cases hx
  next hf =>
    refine ⟨hf, ?_⟩
    split at hx
    next hp => exact .inl ⟨hp, (Host.Outcome.next.inj hx).symm⟩
    next inp rest hp =>
      split at hx
      next i hd => exact .inr (.inl ⟨inp, rest, i, hp, hd, hx⟩)
      next v hd =>
        obtain ⟨w, rfl, ht⟩ := rejectInput_cases hx
        exact .inr (.inr ⟨w, rest, v, hp, hd, ht⟩)

theorem State.SameInstance.refl (s : State) : s.SameInstance s := ⟨rfl, rfl, rfl, rfl, rfl, rfl⟩

theorem State.SameInstance.trans {s t u : State} (hst : s.SameInstance t) (htu : t.SameInstance u) :
    s.SameInstance u := by
  obtain ⟨hp, hv, hr, hc, hi, hm⟩ := hst
  obtain ⟨hp', hv', hr', hc', hi', hm'⟩ := htu
  exact ⟨hp'.trans hp, hv'.trans hv, hr'.trans hr, hc'.trans hc, hi'.trans hi, hm'.trans hm⟩

/-- No update of the bus, of fault entry or of the commands writes an instantiation field (R22): with each update
unfolded, those fields are the old state's. -/
theorem execSteps_sameInstance : ExecSteps State.SameInstance where
  refl := .refl
  trans := .trans
  raise s _ _ := .refl s
  passBoundary s := .refl s
  addEvent s _ := .refl s
  drewByte s := .refl s
  setSession s _ := .refl s
  setCs s _ := .refl s
  setStatus s _ := .refl s
  setPayload s _ := .refl s
  setSample s _ := .refl s
  enter s _ := .refl s
  leave s _ := .refl s
  setShadow s _ := .refl s
  setReference s _ := .refl s
  setResolution s _ := .refl s
  drewFmtBits s := .refl s
  setBegun s := .refl s

/-- No instruction writes an instantiation field, in whatever state it runs (R22). -/
theorem exec_sameInstance {i : Instr} {s t : State} (hx : exec i s = .next t) : s.SameInstance t :=
  exec_keeps execSteps_sameInstance i (fun _ s _ _ => .refl s) (fun _ s _ => .refl s) (fun _ s _ => .refl s) hx

theorem step_sameInstance {s t : State} (hx : step s = .next t) : s.SameInstance t := by
  have htake (rest : List Input) : s.SameInstance (s.take rest) := .refl s
  obtain ⟨-, ⟨-, rfl⟩ | ⟨_, rest, _, -, -, hrun⟩ | ⟨_, rest, _, -, -, rfl⟩⟩ := step_cases hx
  · exact .refl t
  · exact (htake rest).trans (exec_sameInstance hrun)
  · exact (htake rest).trans (execSteps_sameInstance.raise _ _ _)

/-- The configuration of an instance is that of its variant by the table of 00_scope R6. -/
theorem instantiate_configuration (p : Params) (v : Variant) (irq : Bool) :
    let s := State.instantiate p v irq
    s.v = v ∧ s.v.index ≤ 5 ∧ s.hasIrq = irq ∧
    s.resolutionMax.toInt = [16, 16, 16, 24, 24, 24].getD v.index 0 ∧
    s.channelsMax = [2, 4, 8, 2, 4, 8].getD v.index 0 := by
  have htable : v.index ≤ 5 ∧ v.resolutionMax.toInt = [16, 16, 16, 24, 24, 24].getD v.index 0 ∧
      v.channelsMax = [2, 4, 8, 2, 4, 8].getD v.index 0 := by
    cases v <;> decide
  obtain ⟨hindex, hres, hchan⟩ := htable
  exact ⟨rfl, hindex, rfl, hres, hchan⟩

/-- Settles O52: the configuration is the variant's by the table of R6, and every step keeps it, because no update that
an instruction makes is one of a configuration field. -/
theorem instanceFieldsNeverChange : Obligations.InstanceFieldsNeverChange :=
  ⟨instantiate_configuration, fun _ _ => step_sameInstance⟩

end Sys2Proof.Machine
end

section
/-! What the block sends does not depend on the peer's answers (20_memory R65). A state is blinded by taking out of it
all that comes from the peer; two runs from states of the same blinded form go on in lockstep, because no primitive that
chooses a bus event reads what was taken out. Only the cache store, after the last bus event of ISR_HANDLER and of
ANALOG_READ, can end in one run and fault in the other. -/

namespace Sys2Proof.Machine

variable {α β γ δ : Type}

/-! ### The state without what the peer answered -/

/-- The event with its received byte put to zero. -/
def BusEvent.blind : BusEvent → BusEvent
  | .cs l => .cs l
  | .xfer b _ => .xfer b 0#8

/-- The state with the fields that hold the peer's answers emptied: those to come, the captured status, payload and
sample, and the received bytes of the trace. -/
def State.blind (s : State) : State :=
  { s with peer := [], drawn := 0, status := none, payload := [], sample := none, bus := s.bus.map BusEvent.blind }

/-- What is no answer of the peer is the same in two states of the same blinded form. -/
theorem eq_of_blind_eq {f : State → α} (hf : ∀ s, f s.blind = f s) {s u : State} (h : s.blind = u.blind) :
    f s = f u := by
  rw [← hf s, h, hf u]

/-- An update that reads and writes no answer of the peer. -/
theorem blind_congr {f : State → State} (hf : ∀ s, (f s).blind = f s.blind) {s u : State} (h : s.blind = u.blind) :
    (f s).blind = (f u).blind := by
  rw [hf s, h, hf u]

theorem BusEvent.sent_blind (e : BusEvent) : e.blind.sent = e.sent := by
  cases e <;> rfl

/-- The blinded trace still shows everything that was sent. -/
theorem State.sent_blind (s : State) : s.blind.bus.map BusEvent.sent = s.bus.map BusEvent.sent := by
  simp [State.blind, Function.comp_def, BusEvent.sent_blind]

theorem sent_eq_of_blind_eq {s u : State} (h : s.blind = u.blind) :
    s.bus.map BusEvent.sent = u.bus.map BusEvent.sent := by
  rw [← s.sent_blind, h, u.sent_blind]

theorem State.blind_addEvent (s : State) (e : BusEvent) : (s.addEvent e).blind = s.blind.addEvent e.blind := by
  simp [State.blind, State.addEvent]

/-! ### Two runs in lockstep -/

/-- Both runs end or both fault, in states of the same blinded form. -/
inductive SameCourse : EStateM.Result Unit State α → EStateM.Result Unit State β → Prop
  | ok {a : α} {b : β} {s u : State} (h : s.blind = u.blind) : SameCourse (.ok a s) (.ok b u)
  | error {e e' : Unit} {s u : State} (h : s.blind = u.blind) : SameCourse (.error e s) (.error e' u)

/-- From states of the same blinded form the two operations take the same course; their results may differ. -/
def Lockstep (x : Op α) (y : Op β) : Prop := ∀ s u, s.blind = u.blind → SameCourse (x s) (y u)

theorem lockstep_pure (a : α) (b : β) : Lockstep (pure a : Op α) (pure b : Op β) := fun _ _ h => .ok h

theorem lockstep_look (f : State → α) (g : State → β) : Lockstep (look f) (look g) := fun _ _ h => .ok h

/-- The same update in both runs, one that reads and writes no answer of the peer. -/
theorem lockstep_update {f : State → State} (hf : ∀ s, (f s).blind = f s.blind) :
    Lockstep (update f) (update f) := fun _ _ h => .ok (blind_congr hf h)

/-- Two updates that write answers of the peer and nothing else. -/
theorem lockstep_update_answers {f g : State → State} (hf : ∀ s, (f s).blind = s.blind)
    (hg : ∀ s, (g s).blind = s.blind) : Lockstep (update f) (update g) := fun s u h =>
  .ok ((hf s).trans (h.trans (hg u).symm))

/-- The word that a fault records is that of the running operation, which is no answer of the peer. -/
theorem lockstep_raise (c : FaultCode) : Lockstep (raise c : Op α) (raise c : Op β) := fun _ _ h =>
  .error (blind_congr (f := fun s => s.raise c s.busy.word) (fun _ => rfl) h)

theorem lockstep_bind {x : Op α} {y : Op β} {f : α → Op γ} {g : β → Op δ} (hx : Lockstep x y)
    (hf : ∀ a b, Lockstep (f a) (g b)) : Lockstep (x >>= f) (y >>= g) := by
  intro s u h
  have hs := hx s u h
  rw [op_bind, op_bind]
  generalize x s = r at hs ⊢
  generalize y u = r' at hs ⊢
  cases hs with
  | ok htv => exact hf _ _ _ _ htv
  | error htv => exact .error htv

/-- A field that is no answer of the peer is read with the same value in both runs. -/
theorem lockstep_look_bind {f : State → α} {g : α → Op β} {g' : α → Op γ} (hf : ∀ s, f s.blind = f s)
    (hg : ∀ a, Lockstep (g a) (g' a)) : Lockstep (look f >>= g) (look f >>= g') := by
  intro s u h
  have hsu : f s = f u := eq_of_blind_eq hf h
  rw [op_bind_ok (look_apply f s), op_bind_ok (look_apply f u), hsu]
  exact hg _ s u h

theorem readShadow_none (s : State) (h : s.shadow = none) :
    readShadow s = .error () (s.raise .notBegun s.busy.word) := by
  simp [readShadow, h]

theorem lockstep_readShadow_bind {g : Shadow → Op α} {g' : Shadow → Op β} (hg : ∀ sh, Lockstep (g sh) (g' sh)) :
    Lockstep (readShadow >>= g) (readShadow >>= g') := by
  intro s u h
  have hsu : s.shadow = u.shadow := eq_of_blind_eq (f := State.shadow) (fun _ => rfl) h
  cases hu : u.shadow with
  | none =>
    rw [op_bind_error (readShadow_none s (hsu.trans hu)), op_bind_error (readShadow_none u hu)]
    exact lockstep_raise (α := α) (β := β) .notBegun s u h
  | some sh =>
    rw [op_bind_ok (readShadow_some s sh (hsu.trans hu)), op_bind_ok (readShadow_some u sh hu)]
    exact hg sh s u h

/-- The drawn format bits are not the peer's (44_setters R182). -/
theorem lockstep_drawFmtBits_bind {g : BitVec 2 → Op α} {g' : BitVec 2 → Op β} (hg : ∀ x, Lockstep (g x) (g' x)) :
    Lockstep (drawFmtBits >>= g) (drawFmtBits >>= g') := by
  intro s u h
  have hsu : s.fmtAnswer = u.fmtAnswer := eq_of_blind_eq (f := State.fmtAnswer) (fun _ => rfl) h
  rw [op_bind_ok (drawFmtBits_apply s), op_bind_ok (drawFmtBits_apply u), hsu]
  exact hg _ _ _ (blind_congr (f := State.drewFmtBits) (fun _ => rfl) h)

theorem lockstep_ite {c : Prop} [Decidable c] {x x' : Op α} {y y' : Op β} (hx : Lockstep x y)
    (hx' : Lockstep x' y') : Lockstep (if c then x else x') (if c then y else y') := by
  split
  · exact hx
  · exact hx'

/-! ### Operations that take the same course whatever the peer answers -/

/-- What the operation drives and sends is the same whatever the peer has answered and will answer. -/
abbrev IgnoresAnswers (x : Op α) : Prop := Lockstep x x

theorem requireBegun_ignoresAnswers : IgnoresAnswers requireBegun :=
  lockstep_look_bind (fun _ => rfl) fun _ => lockstep_ite (lockstep_pure _ _) (lockstep_raise _)

theorem writeShadow_ignoresAnswers (f : Shadow → Shadow) : IgnoresAnswers (writeShadow f) :=
  lockstep_readShadow_bind fun _ => lockstep_update fun _ => rfl

/-- Whether ISR_HANDLER is presented at a boundary is the environment's choice, not the peer's. -/
theorem boundary_ignoresAnswers : IgnoresAnswers boundary := by
  intro s u h
  have hstep : s.seqStep = u.seqStep := eq_of_blind_eq (f := State.seqStep) (fun _ => rfl) h
  have hplan : s.irqPlan = u.irqPlan := eq_of_blind_eq (f := State.irqPlan) (fun _ => rfl) h
  simp only [boundary, hstep, hplan]
  split
  · exact .ok h
  · split
    · exact .error (blind_congr (f := fun s => s.passBoundary.raise .concurrentEntry isrWord) (fun _ => rfl) h)
    · exact .ok (blind_congr (f := State.passBoundary) (fun _ => rfl) h)

/-- Two events that differ at most in the received byte. -/
theorem lockstep_emit {e e' : BusEvent} (he : e.blind = e'.blind) : Lockstep (emit e) (emit e') := by
  intro s u h
  exact .ok (by rw [s.blind_addEvent, u.blind_addEvent, h, he])

theorem driveCs_ignoresAnswers (l : Level) : IgnoresAnswers (driveCs l) :=
  lockstep_bind boundary_ignoresAnswers fun _ _ => lockstep_emit rfl

theorem drawByte_ignoresAnswers : IgnoresAnswers drawByte := fun _ _ h => .ok h

theorem xfer_ignoresAnswers (b : Byte) : IgnoresAnswers (xfer b) :=
  lockstep_bind boundary_ignoresAnswers fun _ _ => lockstep_bind drawByte_ignoresAnswers fun _ _ =>
  lockstep_bind (lockstep_emit rfl) fun _ _ => lockstep_pure _ _

theorem exchange_ignoresAnswers (out : List Byte) : IgnoresAnswers (exchange out) := by
  induction out with
  | nil => exact lockstep_pure _ _
  | cons b rest ih =>
    exact lockstep_bind (xfer_ignoresAnswers b) fun _ _ => lockstep_bind ih fun _ _ => lockstep_pure _ _

/-- A frame (41_bus_frames R120): the status byte it captures and the payload it returns are answers of the peer. -/
theorem frame_ignoresAnswers (cmd : Byte) (out : List Byte) : IgnoresAnswers (frame cmd out) :=
  lockstep_look_bind (fun _ => rfl) fun _ => lockstep_bind (lockstep_update fun _ => rfl) fun _ _ =>
  lockstep_bind (driveCs_ignoresAnswers _) fun _ _ => lockstep_bind (lockstep_update fun _ => rfl) fun _ _ =>
  lockstep_bind (xfer_ignoresAnswers _) fun _ _ =>
  lockstep_bind (lockstep_update_answers (fun _ => rfl) fun _ => rfl) fun _ _ =>
  lockstep_bind (exchange_ignoresAnswers _) fun _ _ => lockstep_bind (driveCs_ignoresAnswers _) fun _ _ =>
  lockstep_bind (lockstep_update fun _ => rfl) fun _ _ => lockstep_bind (lockstep_update fun _ => rfl) fun _ _ =>
  lockstep_pure _ _

theorem frameRreg_ignoresAnswers (a n : Nat) : IgnoresAnswers (frameRreg a n) :=
  lockstep_look_bind (fun _ => rfl) fun _ => lockstep_bind (frame_ignoresAnswers _ _) fun _ _ =>
  lockstep_bind (lockstep_update_answers (fun _ => rfl) fun _ => rfl) fun _ _ => lockstep_pure _ _

theorem frameWreg_ignoresAnswers (a : Nat) (x : List Byte) : IgnoresAnswers (frameWreg a x) :=
  lockstep_look_bind (fun _ => rfl) fun _ => lockstep_bind (frame_ignoresAnswers _ _) fun _ _ => lockstep_pure _ _

theorem frameFast_ignoresAnswers (f : FastCmd) : IgnoresAnswers (frameFast f) :=
  lockstep_look_bind (fun _ => rfl) fun _ => lockstep_bind (frame_ignoresAnswers _ _) fun _ _ => lockstep_pure _ _

theorem writeReg_ignoresAnswers (r : Reg) : IgnoresAnswers (writeReg r) :=
  lockstep_readShadow_bind fun _ => lockstep_look_bind (fun _ => rfl) fun _ => frameWreg_ignoresAnswers _ _

/-- The read's length is chosen by the format code in the shadow (42_read_decode R141); the channel id and the value
that it returns are the peer's. -/
theorem readSample_ignoresAnswers : IgnoresAnswers readSample :=
  lockstep_readShadow_bind fun _ => lockstep_look_bind (fun _ => rfl) fun _ =>
  lockstep_bind (frameRreg_ignoresAnswers _ _) fun _ _ =>
  lockstep_bind (lockstep_update_answers (fun _ => rfl) fun _ => rfl) fun _ _ =>
  lockstep_bind (lockstep_look _ _) fun _ _ => lockstep_pure _ _

theorem readOp_ignoresAnswers : IgnoresAnswers readOp :=
  lockstep_bind requireBegun_ignoresAnswers fun _ _ => lockstep_bind readSample_ignoresAnswers fun _ _ =>
  lockstep_bind (lockstep_look _ _) fun _ _ => lockstep_pure _ _

/-- The end of a setter: the image is sent, and the response carries the captured status, an answer of the peer. -/
theorem writeRegStatus_ignoresAnswers (r : Reg) :
    IgnoresAnswers (do
      writeReg r
      return { status := ← look (·.status) } : Op Response) :=
  lockstep_bind (writeReg_ignoresAnswers r) fun _ _ => lockstep_bind (lockstep_look _ _) fun _ _ => lockstep_pure _ _

theorem setter_ignoresAnswers (write : Layout → Shadow → Shadow) (r : Reg) : IgnoresAnswers (setter write r) :=
  lockstep_bind requireBegun_ignoresAnswers fun _ _ => lockstep_look_bind (fun _ => rfl) fun _ =>
  lockstep_bind (writeShadow_ignoresAnswers _) fun _ _ => writeRegStatus_ignoresAnswers r

theorem setDataFormatOp_ignoresAnswers (f : Byte) : IgnoresAnswers (setDataFormatOp f) := by
  have hend : IgnoresAnswers (do
      writeReg .config3
      update fun s => s.setResolution (s.newResolution f)
      return { status := ← look (·.status) } : Op Response) :=
    lockstep_bind (writeReg_ignoresAnswers _) fun _ _ =>
    lockstep_bind (lockstep_update fun _ => rfl) fun _ _ =>
    lockstep_bind (lockstep_look _ _) fun _ _ => lockstep_pure _ _
  exact lockstep_bind requireBegun_ignoresAnswers fun _ _ => lockstep_look_bind (fun _ => rfl) fun _ =>
    lockstep_bind (writeShadow_ignoresAnswers _) fun _ _ => lockstep_ite
      (lockstep_bind (writeShadow_ignoresAnswers _) fun _ _ => hend)
      (lockstep_drawFmtBits_bind fun _ => lockstep_bind (writeShadow_ignoresAnswers _) fun _ _ => hend)

theorem scanChannelOp_ignoresAnswers (sel : Byte) (x : Bool) : IgnoresAnswers (scanChannelOp sel x) := by
  have hend (i : Byte) : IgnoresAnswers (do
      let p ← look (·.params)
      writeShadow (Shadow.setScanMask p.layout i.toNat x)
      writeReg .scan
      return { status := ← look (·.status) } : Op Response) :=
    lockstep_look_bind (fun _ => rfl) fun _ => lockstep_bind (writeShadow_ignoresAnswers _) fun _ _ =>
    writeRegStatus_ignoresAnswers _
  exact lockstep_bind requireBegun_ignoresAnswers fun _ _ => lockstep_look_bind (fun _ => rfl) fun i =>
    lockstep_ite (lockstep_bind (lockstep_raise _) fun _ _ => hend i) (hend i)

theorem setReferenceOp_ignoresAnswers (r : Word32) : IgnoresAnswers (setReferenceOp r) :=
  lockstep_ite
    (lockstep_bind requireBegun_ignoresAnswers fun _ _ => lockstep_bind (lockstep_update fun _ => rfl) fun _ _ =>
      lockstep_look_bind (fun _ => rfl) fun _ => lockstep_bind (writeShadow_ignoresAnswers _) fun _ _ =>
      writeRegStatus_ignoresAnswers _)
    (lockstep_bind (lockstep_update fun _ => rfl) fun _ _ => lockstep_bind (lockstep_look _ _) fun _ _ =>
      lockstep_pure _ _)

theorem unlockOp_ignoresAnswers : IgnoresAnswers unlockOp :=
  lockstep_look_bind (fun _ => rfl) fun _ => setter_ignoresAnswers _ _

theorem beginInterrupt_ignoresAnswers : IgnoresAnswers beginInterrupt :=
  lockstep_look_bind (fun _ => rfl) fun _ => lockstep_bind (setDataFormatOp_ignoresAnswers _) fun _ _ =>
  lockstep_bind (setter_ignoresAnswers _ _) fun _ _ => frameFast_ignoresAnswers _

theorem beginPolled_ignoresAnswers : IgnoresAnswers beginPolled :=
  lockstep_bind (setDataFormatOp_ignoresAnswers _) fun _ _ => lockstep_look_bind (fun _ => rfl) fun _ =>
  lockstep_bind (setReferenceOp_ignoresAnswers _) fun _ _ => frameFast_ignoresAnswers _

/-- BEGIN (40_begin R100, R105): the order of the frames and the mode branch are the block's own. -/
theorem beginOp_ignoresAnswers : IgnoresAnswers beginOp := by
  have hend : IgnoresAnswers (do
      update (·.setSession false)
      return { ok := some true, status := ← look (·.status) } : Op Response) :=
    lockstep_bind (lockstep_update fun _ => rfl) fun _ _ => lockstep_bind (lockstep_look _ _) fun _ _ =>
    lockstep_pure _ _
  exact lockstep_bind (lockstep_update fun _ => rfl) fun _ _ =>
    lockstep_bind (driveCs_ignoresAnswers _) fun _ _ => lockstep_bind (lockstep_update fun _ => rfl) fun _ _ =>
    lockstep_bind (frameFast_ignoresAnswers _) fun _ _ =>
    lockstep_bind (lockstep_update fun _ => rfl) fun _ _ => lockstep_bind (lockstep_update fun _ => rfl) fun _ _ =>
    lockstep_look_bind (fun _ => rfl) fun _ => lockstep_bind (setter_ignoresAnswers _ _) fun _ _ =>
    lockstep_look_bind (fun _ => rfl) fun _ => lockstep_ite
      (lockstep_bind beginInterrupt_ignoresAnswers fun _ _ => hend)
      (lockstep_bind beginPolled_ignoresAnswers fun _ _ => hend)

/-! ### What was sent by the end of an operation or by its fault -/

/-- The levels and bytes sent up to the result, those of before the operation included. -/
def sentBy : EStateM.Result Unit State α → List (Level ⊕ Byte)
  | .ok _ t => t.bus.map BusEvent.sent
  | .error _ t => t.bus.map BusEvent.sent

theorem sentBy_map (f : α → β) (x : Op α) (s : State) : sentBy ((f <$> x) s) = sentBy (x s) := by
  rw [op_map]
  cases x s <;> rfl

theorem SameCourse.sentBy_eq {x : EStateM.Result Unit State α} {y : EStateM.Result Unit State β}
    (h : SameCourse x y) : sentBy x = sentBy y := by
  cases h with
  | ok h => exact sent_eq_of_blind_eq h
  | error h => exact sent_eq_of_blind_eq h

/-- From states of the same blinded form the two operations have sent the same by their end or fault; one may end where
the other faults. -/
def SendsAlike (x : Op α) (y : Op β) : Prop := ∀ s u, s.blind = u.blind → sentBy (x s) = sentBy (y u)

theorem Lockstep.sendsAlike {x : Op α} {y : Op β} (hxy : Lockstep x y) : SendsAlike x y := fun s u h =>
  (hxy s u h).sentBy_eq

theorem sendsAlike_bind {x : Op α} {y : Op β} {f : α → Op γ} {g : β → Op δ} (hx : Lockstep x y)
    (hf : ∀ a b, SendsAlike (f a) (g b)) : SendsAlike (x >>= f) (y >>= g) := by
  intro s u h
  have hs := hx s u h
  rw [op_bind, op_bind]
  generalize x s = r at hs ⊢
  generalize y u = r' at hs ⊢
  cases hs with
  | ok htv => exact hf _ _ _ _ htv
  | error htv => exact sent_eq_of_blind_eq htv

/-- The trace stays as it is. -/
abbrev SameBus (s t : State) : Prop := t.bus = s.bus

theorem runSteps_sameBus : RunSteps SameBus SameBus SameBus where
  refl _ := rfl
  trans hst htu := htu.trans hst
  cross hst htu := htu.trans hst
  raise _ _ _ := rfl
  enter _ _ := rfl
  leave h _ := h
  fault h := h

/-- An operation that makes no bus event has sent, at its end or fault, what was sent before it. -/
theorem sentBy_of_sameBus {x : Op α} (hx : Keeps SameBus SameBus x) (s : State) :
    sentBy (x s) = s.bus.map BusEvent.sent := by
  have hs := hx s
  cases hxs : x s <;> rw [hxs] at hs <;> exact congrArg (List.map BusEvent.sent) hs

theorem sendsAlike_of_sameBus {x : Op α} {y : Op β} (hx : Keeps SameBus SameBus x) (hy : Keeps SameBus SameBus y) :
    SendsAlike x y := by
  intro s u h
  rw [sentBy_of_sameBus hx, sentBy_of_sameBus hy, sent_eq_of_blind_eq h]

/-- The end of ISR_HANDLER and of ANALOG_READ: the store at the channel id that the peer answered may fault or not,
after the last bus event. -/
theorem cacheStore_sendsAlike (c c' : Byte × Word32) (r r' : Response) :
    SendsAlike (do cacheWrite c.1 c.2; return r) (do cacheWrite c'.1 c'.2; return r') :=
  have hk (c : Byte × Word32) (r : Response) : Keeps SameBus SameBus (do cacheWrite c.1 c.2; return r) :=
    keeps_bind runSteps_sameBus.toComposes
      (keeps_cacheWrite runSteps_sameBus.toComposes (fun _ _ _ => rfl) _ _) fun _ =>
    keeps_pure runSteps_sameBus.toComposes _
  sendsAlike_of_sameBus (hk c r) (hk c' r')

theorem isrOp_sendsAlike : SendsAlike isrOp isrOp :=
  sendsAlike_bind requireBegun_ignoresAnswers fun _ _ => sendsAlike_bind readSample_ignoresAnswers fun c c' =>
  cacheStore_sendsAlike c c' _ _

/-- ANALOG_READ (45_conversion R210): the three frames, with no poll between them, and then the cache store. -/
theorem analogReadOp_sendsAlike (sel : Byte) : SendsAlike (analogReadOp sel) (analogReadOp sel) :=
  sendsAlike_bind requireBegun_ignoresAnswers fun _ _ => sendsAlike_bind (writeShadow_ignoresAnswers _) fun _ _ =>
  sendsAlike_bind (writeReg_ignoresAnswers _) fun _ _ => sendsAlike_bind (frameFast_ignoresAnswers _) fun _ _ =>
  sendsAlike_bind readSample_ignoresAnswers fun c c' => cacheStore_sendsAlike c c' _ _

/-! ### Whole instructions -/

section
variable {s t u v : State} {b : Busy} {i : Instr}

/-- Nothing is sent at the end of an operation or by its fault. -/
theorem runOperation_sent {body : Op (Option Response)} (hx : runOperation b body s = .next t) :
    t.bus.map BusEvent.sent = sentBy (body (s.enter b)) := by
  simp only [runOperation] at hx
  cases hb : body (s.enter b) <;> rw [hb] at hx <;> exact Host.Outcome.next.inj hx ▸ rfl

/-- The same operation from two states of the same blinded form. -/
theorem runOperation_sendsAlike {body : Op α} (f : α → Option Response) (hb : SendsAlike body body)
    (h : s.blind = u.blind) (hx : runOperation b (f <$> body) s = .next t)
    (hy : runOperation b (f <$> body) u = .next v) : t.bus.map BusEvent.sent = v.bus.map BusEvent.sent := by
  rw [runOperation_sent hx, runOperation_sent hy, sentBy_map, sentBy_map]
  exact hb _ _ (blind_congr (f := (·.enter b)) (fun _ => rfl) h)

/-- A host command with a next state was run. -/
theorem hostCommand_runs {body : Op Response} (hx : hostCommand i body s = .next t) :
    runOperation (.fg i) (some <$> body) s = .next t := by
  simp only [hostCommand] at hx
  split at hx
  · cases hx
  · split at hx
    · exact hx
    · cases hx

theorem hostCommand_sendsAlike {body : Op Response} (hb : SendsAlike body body) (h : s.blind = u.blind)
    (hx : hostCommand i body s = .next t) (hy : hostCommand i body u = .next v) :
    t.bus.map BusEvent.sent = v.bus.map BusEvent.sent :=
  runOperation_sendsAlike some hb h (hostCommand_runs hx) (hostCommand_runs hy)

/-- A frame by itself with a next state was run. -/
theorem wireFrame_runs {body : Op Unit} (hx : wireFrame i body s = .next t) :
    runOperation (.fg i) ((fun _ => none) <$> body) s = .next t := by
  simp only [wireFrame] at hx
  split at hx
  · cases hx
  · split at hx
    · exact hx
    · cases hx

theorem wireFrame_sendsAlike {body : Op Unit} (hb : SendsAlike body body) (h : s.blind = u.blind)
    (hx : wireFrame i body s = .next t) (hy : wireFrame i body u = .next v) :
    t.bus.map BusEvent.sent = v.bus.map BusEvent.sent :=
  runOperation_sendsAlike _ hb h (wireFrame_runs hx) (wireFrame_runs hy)

/-- ISR_HANDLER with a next state was run on an idle block, or it met a running operation (60_exceptions R263). -/
theorem isrCommand_cases {body : Op Response} (hx : isrCommand body s = .next t) :
    (s.busy = .none ∧ runOperation .isr (some <$> body) s = .next t) ∨
    (s.busy ≠ .none ∧ t = s.raise .concurrentEntry isrWord) := by
  simp only [isrCommand] at hx
  split at hx
  · cases hx
  · split at hx
    next hb => exact .inl ⟨hb, hx⟩
    next hb => exact .inr ⟨hb, (Host.Outcome.next.inj hx).symm⟩

theorem isrCommand_sendsAlike {body : Op Response} (hb : SendsAlike body body) (h : s.blind = u.blind)
    (hx : isrCommand body s = .next t) (hy : isrCommand body u = .next v) :
    t.bus.map BusEvent.sent = v.bus.map BusEvent.sent := by
  have hbusy : s.busy = u.busy := eq_of_blind_eq (f := State.busy) (fun _ => rfl) h
  obtain ⟨hs, hx⟩ | ⟨hs, rfl⟩ := isrCommand_cases hx <;> obtain ⟨hu, hy⟩ | ⟨hu, rfl⟩ := isrCommand_cases hy
  · exact runOperation_sendsAlike some hb h hx hy
  · exact absurd (hbusy ▸ hs) hu
  · exact absurd (hbusy ▸ hu) hs
  · exact sent_eq_of_blind_eq (s := s) (u := u) h

/-- An operation of 46_modes_queries sends nothing. -/
theorem exec_hostSide_sameBus (hi : i.isHostSide = true) (hx : exec i s = .next t) : t.bus = s.bus :=
  exec_keeps_hostSide runSteps_sameBus i hi (fun _ _ => rfl) (fun _ _ _ => rfl) (fun _ _ _ => rfl) hx

/-- Every instruction sends the same from two states of the same blinded form. -/
theorem exec_sendsAlike (i : Instr) (h : s.blind = u.blind) (hx : exec i s = .next t) (hy : exec i u = .next v) :
    t.bus.map BusEvent.sent = v.bus.map BusEvent.sent := by
  cases i with
  | begin => exact hostCommand_sendsAlike beginOp_ignoresAnswers.sendsAlike h hx hy
  | read => exact hostCommand_sendsAlike readOp_ignoresAnswers.sendsAlike h hx hy
  | isrHandler => exact isrCommand_sendsAlike isrOp_sendsAlike h hx hy
  | setDataFormat f => exact hostCommand_sendsAlike (setDataFormatOp_ignoresAnswers f).sendsAlike h hx hy
  | setConvMode _ | setAdcMode _ | setClockSelection _ | lock _ =>
    exact hostCommand_sendsAlike (setter_ignoresAnswers _ _).sendsAlike h hx hy
  | setScanChannel sel | unsetScanChannel sel =>
    exact hostCommand_sendsAlike (scanChannelOp_ignoresAnswers sel _).sendsAlike h hx hy
  | setReference r => exact hostCommand_sendsAlike (setReferenceOp_ignoresAnswers r).sendsAlike h hx hy
  | unlock => exact hostCommand_sendsAlike unlockOp_ignoresAnswers.sendsAlike h hx hy
  | analogRead _ | analogReadDiff _ _ => exact hostCommand_sendsAlike (analogReadOp_sendsAlike _) h hx hy
  | singleEndedMode | differentialMode | startContinuousDifferential | startSingleDifferential | setResolution _
  | isComplete | getMaxValue | isDifferential | isContinuous | getReference | readCache _ =>
    rw [exec_hostSide_sameBus rfl hx, exec_hostSide_sameBus rfl hy, sent_eq_of_blind_eq h]
  | frameRreg a n =>
    exact wireFrame_sendsAlike
      (lockstep_bind (frameRreg_ignoresAnswers a n) fun _ _ => lockstep_pure _ _).sendsAlike h hx hy
  | frameWreg a x => exact wireFrame_sendsAlike (frameWreg_ignoresAnswers a x).sendsAlike h hx hy
  | frameFast f => exact wireFrame_sendsAlike (frameFast_ignoresAnswers f).sendsAlike h hx hy

end

/-- Settles O60: the two states have the same blinded form, and every instruction sends the same from such states. -/
theorem sentBytesIgnoreTheAnswers : Obligations.SentBytesIgnoreTheAnswers := by
  intro i s t u answers k hx hy
  have hblind : s.blind = ({ s with peer := answers, drawn := k } : State).blind := rfl
  exact exec_sendsAlike i hblind hx hy

end Sys2Proof.Machine
end

section
/-! The value decodes that move bits of the sample word (42_read_decode R145, R146). The decode of the two extended
formats is said once, bit by bit. From that it distributes over `&&&`, so the masks of R146 come out as its values at
fixed words. The zero-padded decode is a shift, taken against the assembly of a 3-byte read (R142). -/

namespace Sys2Proof.Machine

/-! ### The extended formats -/

/-- `sgnext_data` and `id_sgnext_data` have one decode (42_read_decode R146). -/
theorem decodeValue_sgnext {f : Byte} (hf : f = 2#8 ∨ f = 3#8) (w : Word32) : decodeValue f w = decodeSgnext w := by
  obtain rfl | rfl := hf <;> rfl

theorem getLsbD_decodeSgnext (w : Word32) (i : Nat) :
    (decodeSgnext w).getLsbD i = if i < 24 then w.getLsbD i else decide (i = 31) && w.getLsbD 25 := by
  simp only [decodeSgnext, BitVec.getLsbD_append, BitVec.getLsbD_extractLsb', BitVec.getLsbD_zero, Nat.zero_add]
  by_cases hlow : i < 24
  · simp [hlow]
  · by_cases hgap : i - 24 < 7
    · have hne : i ≠ 31 := by omega
      simp [hlow, hgap, hne]
    · by_cases hsign : i = 31
      · simp [hsign]
      · have hout : ¬ i - 24 - 7 < 1 := by omega
        simp [hlow, hgap, hsign, hout]

theorem getLsbD_decodeSgnext_sign (w : Word32) : (decodeSgnext w).getLsbD 31 = w.getLsbD 25 :=
  getLsbD_decodeSgnext w 31

theorem extractLsb'_decodeSgnext_gap (w : Word32) : (decodeSgnext w).extractLsb' 24 7 = 0#7 := by
  apply BitVec.eq_of_getLsbD_eq
  intro i hi
  have hne : 24 + i ≠ 31 := by omega
  simp [getLsbD_decodeSgnext, hne]

theorem extractLsb'_decodeSgnext_low (w : Word32) : (decodeSgnext w).extractLsb' 0 24 = w.extractLsb' 0 24 := by
  apply BitVec.eq_of_getLsbD_eq
  intro i hi
  simp [getLsbD_decodeSgnext, hi]

theorem getLsbD_lowMask (i : Nat) : (0x00FFFFFF#32).getLsbD i = decide (i < 24) := by
  have hones : 0x00FFFFFF = 2 ^ 24 - 1 := by decide
  rw [BitVec.getLsbD_ofNat, hones, Nat.testBit_two_pow_sub_one, ← Bool.decide_and]
  exact decide_eq_decide.mpr (by omega)

/-- The formula of R146: bit 25 shifted to bit 31, over the low 24 bits. -/
theorem decodeSgnext_eq_or (w : Word32) :
    decodeSgnext w = ((w.extractLsb' 25 1).zeroExtend 32 <<< 31) ||| (w &&& 0x00FFFFFF#32) := by
  apply BitVec.eq_of_getLsbD_eq
  intro i hi
  rw [getLsbD_decodeSgnext, BitVec.getLsbD_or, BitVec.getLsbD_and, getLsbD_lowMask]
  by_cases hsign : i = 31
  · simp [hsign]
  · have hbelow : i < 31 := by omega
    by_cases hlow : i < 24 <;> simp [hlow, hsign, hbelow]

/-- Every bit of the decode is zero or one bit of the word. -/
theorem decodeSgnext_and (w m : Word32) : decodeSgnext (w &&& m) = decodeSgnext w &&& decodeSgnext m := by
  apply BitVec.eq_of_getLsbD_eq
  intro i _
  simp only [getLsbD_decodeSgnext, BitVec.getLsbD_and]
  by_cases hlow : i < 24
  · simp [hlow]
  · by_cases hsign : i = 31 <;> simp [hsign, hlow]

/-- No bit is set outside the mask, which is the decode of the word of all ones. -/
theorem decodeSgnext_and_mask (w : Word32) : decodeSgnext w &&& 0x80FFFFFF#32 = decodeSgnext w := by
  have hmask : decodeSgnext (BitVec.allOnes 32) = 0x80FFFFFF#32 := by decide
  rw [← hmask, ← decodeSgnext_and, BitVec.and_allOnes]

theorem decodeSgnext_and_not_mask (w : Word32) : decodeSgnext w &&& ~~~0x80FFFFFF#32 = 0#32 := by
  rw [← decodeSgnext_and_mask w, BitVec.and_assoc, BitVec.and_not_self]
  exact BitVec.and_zero

/-- Bits 31:26 and 24 of the word are ignored: without them the word of all ones still decodes to the mask. -/
theorem decodeSgnext_ignores (w : Word32) : decodeSgnext (w &&& 0x02FFFFFF#32) = decodeSgnext w := by
  have hmask : decodeSgnext 0x02FFFFFF#32 = 0x80FFFFFF#32 := by decide
  rw [decodeSgnext_and, hmask, decodeSgnext_and_mask]

/-- A set bit 25 makes the top byte 0x80, which is -128, over 24 bits that count up from there. -/
theorem toInt_decodeSgnext_of_sign {w : Word32} (h : w.getLsbD 25 = true) :
    (decodeSgnext w).toInt = -2147483648 + (w.extractLsb' 0 24).toNat := by
  have hsign : w.extractLsb' 25 1 = 1#1 := by
    apply BitVec.eq_of_getLsbD_eq
    intro i hi
    obtain rfl : i = 0 := by omega
    simpa using h
  have htop : (1#1 ++ 0#7).toInt = -128 := by decide
  rw [decodeSgnext, hsign, BitVec.toInt_append, htop]
  norm_num

theorem toInt_decodeSgnext_le_of_sign {w : Word32} (h : w.getLsbD 25 = true) :
    (decodeSgnext w).toInt ≤ -2130706433 := by
  have hlow : (w.extractLsb' 0 24).toNat < 2 ^ 24 := BitVec.isLt _
  rw [toInt_decodeSgnext_of_sign h]
  omega

/-- Settles O16: both format codes have the decode whose bits `getLsbD_decodeSgnext` gives. -/
theorem extendedSignDecodeKeepsTheMask : Obligations.ExtendedSignDecodeKeepsTheMask := by
  intro f w hf
  simp only [decodeValue_sgnext hf]
  exact ⟨getLsbD_decodeSgnext_sign w, extractLsb'_decodeSgnext_gap w, extractLsb'_decodeSgnext_low w,
    decodeSgnext_eq_or w, decodeSgnext_and_not_mask w, toInt_decodeSgnext_le_of_sign, (decodeSgnext_ignores w).symm⟩

/-! ### The zero-padded format -/

theorem decodeValue_sgnDataZero (w : Word32) : decodeValue 1#8 w = w >>> 8 := rfl

/-- The 24 bits that the shift leaves do not reach the sign bit. -/
theorem toInt_ushiftRight_eight_nonneg (w : Word32) : 0 ≤ (w >>> 8).toInt := by
  rw [BitVec.toInt_ushiftRight, if_neg (by decide)]
  exact Int.natCast_nonneg _

/-- One step of the assembly: the byte received comes below the bits assembled so far (42_read_decode R142). -/
theorem setWidth_shiftLeft_or_byte {n : Nat} (x : BitVec n) (b : Byte) :
    ((x.setWidth 32 <<< 8) ||| b.setWidth 32 : Word32) = (x ++ b).setWidth 32 := by
  apply BitVec.eq_of_getLsbD_eq
  intro i hi
  by_cases hlow : i < 8
  · simp [BitVec.getLsbD_append, hi, hlow]
  · have hb : b.getLsbD i = false := BitVec.getLsbD_of_ge b i (by omega)
    simp [BitVec.getLsbD_append, hi, hlow, hb]

theorem assembleBytes_three (a b c : Byte) : assembleBytes [a, b, c] = (a ++ b ++ c).setWidth 32 := by
  simp only [assembleBytes, List.foldl_cons, List.foldl_nil, BitVec.zero_shiftLeft, BitVec.zero_or]
  rw [setWidth_shiftLeft_or_byte, setWidth_shiftLeft_or_byte]

/-- The shift by 8 takes the last byte received out of the word. -/
theorem assembleBytes_three_ushiftRight (a b c : Byte) : assembleBytes [a, b, c] >>> 8 = 0#16 ++ (a ++ b) := by
  rw [assembleBytes_three]
  apply BitVec.eq_of_getLsbD_eq
  intro i hi
  rw [BitVec.getLsbD_ushiftRight, BitVec.getLsbD_setWidth, BitVec.getLsbD_append, BitVec.getLsbD_append (x := 0#16)]
  by_cases hkept : i < 16
  · have hin : 8 + i < 32 := by omega
    simp [hkept, hin]
  · have hab : (a ++ b).getLsbD i = false := BitVec.getLsbD_of_ge _ i (by omega)
    simp [hkept, hab]

/-- Settles O15: the decode is a shift by 8, which leaves 24 bits, and of a 3-byte word the first two bytes. -/
theorem zeroPaddedDecodeShiftsRight : Obligations.ZeroPaddedDecodeShiftsRight := by
  simp only [Obligations.ZeroPaddedDecodeShiftsRight, decodeValue_sgnDataZero, true_and]
  exact ⟨fun w => ⟨BitVec.toNat_ushiftRight_lt w 8 (by decide), toInt_ushiftRight_eight_nonneg w⟩, by decide, rfl,
    assembleBytes_three_ushiftRight⟩

end Sys2Proof.Machine
end

section
/-! The mode toggles and the queries of what is held (46_modes_queries R230, R231, R238 to R240). Each gets its next
state from one of two equations: a toggle answers the empty record from the state it has written, a query answers what
it looked up. -/

namespace Sys2Proof.Machine

/-- An operation that starts and ends on an idle block leaves only its response behind (R263 steps 4 and 5). -/
theorem State.leave_enter {s : State} (hb : s.busy = .none) (b : Busy) (r : Response) :
    (s.enter b).leave (some r) = { s with seqStep := 0, responses := s.responses ++ [r] } := by
  simp only [State.enter, State.leave, Option.toList_some, ← hb]

theorem toggle_apply (f : State → State) (s : State) : toggle f s = .ok { } (f s) := rfl

/-- A toggle whose write does not meddle with the start of the operation answers the empty record. -/
theorem hostCommand_toggle (i : Instr) {f : State → State} {s : State} (hs : s.Idle) (hb : (f s).busy = s.busy)
    (hf : f (s.enter (.fg i)) = (f s).enter (.fg i)) :
    hostCommand i (toggle f) s = .next { f s with seqStep := 0, responses := (f s).responses ++ [{ }] } := by
  rw [hostCommand_ok i _ s _ _ hs (toggle_apply f _), hf, State.leave_enter (hb.trans hs.2)]

/-- A query of a field that the start of the operation does not write answers what is held, and changes nothing. -/
theorem hostCommand_query (i : Instr) {α : Type} {f : State → α} (g : α → Response) {s : State} (hs : s.Idle)
    (hf : f (s.enter (.fg i)) = f s) :
    hostCommand i (do return g (← look f)) s =
      .next { s with seqStep := 0, responses := s.responses ++ [g (f s)] } := by
  have hrun : (do return g (← look f) : Op Response) (s.enter (.fg i)) = .ok (g (f s)) (s.enter (.fg i)) := by
    rw [op_bind_ok (look_apply f _), op_pure, hf]
  rw [hostCommand_ok i _ s _ _ hs hrun, State.leave_enter hs.2]

/-- Settles O41: both toggles are `setDifferential`, run by `hostCommand_toggle`. -/
theorem modeTogglesWriteTheFlag : Obligations.ModeTogglesWriteTheFlag := by
  refine ⟨rfl, rfl, fun s hs => ⟨?_, ?_⟩⟩
  · exact hostCommand_toggle .singleEndedMode hs (State.setDifferential_busy s false) rfl
  · exact hostCommand_toggle .differentialMode hs (State.setDifferential_busy s true) rfl

/-- Settles O46: each query looks up a field that `State.enter` leaves unchanged. -/
theorem hostQueriesReturnWhatIsHeld : Obligations.HostQueriesReturnWhatIsHeld := by
  refine ⟨rfl, rfl, rfl, fun s hs => ⟨?_, ?_, ?_⟩, fun _ _ _ => ⟨rfl, rfl, rfl⟩⟩
  · exact hostCommand_query .isDifferential (fun b => { flag := some b }) hs (State.enter_differential s _)
  · exact hostCommand_query .isContinuous (fun b => { flag := some b }) hs (State.enter_continuous s _)
  · exact hostCommand_query .getReference (fun x => { ref := some x }) hs (State.enter_reference s _)

end Sys2Proof.Machine
end

section
/-! The encoding of commands and frames (30_encoding R80 to R89). Each operand format of R81 is said once: which
arguments it takes, and what it makes of them. The decoder and the encoder are then inverse to each other row by row of
the opcode map; for the frames of R87 the rows are the registers and the fast commands. -/

namespace Sys2Proof
open Machine

/-! ### The operand formats of R81 -/

/-- A word is its two fields (R80). -/
theorem opField_append_argField (c : CmdWord) : opField c ++ argField c = c :=
  (BitVec.extractLsb'_append_extractLsb'_eq_extractLsb' rfl).trans BitVec.extractLsb'_eq_self

/-- An argument whose must-be-zero bits are zero is its operand. -/
theorem eq_zeroExtend_of_high_eq_zero {m w : Nat} {arg : BitVec (m + w)} (h : arg.extractLsb' w m = 0#m) :
    arg = (arg.extractLsb' 0 w).zeroExtend (m + w) := by
  apply BitVec.eq_of_getLsbD_eq
  intro i hi
  by_cases hlow : i < w
  · simp [hlow, hi]
  · have hz := congrArg (·.getLsbD (i - w)) h
    simp only [BitVec.getLsbD_extractLsb', BitVec.getLsbD_zero, Nat.add_sub_cancel' (not_lt.mp hlow)] at hz
    simpa [hlow, hi, show i - w < m by omega] using hz

theorem high_zeroExtend {m w : Nat} (x : BitVec w) : (x.zeroExtend (m + w)).extractLsb' w m = 0#m := by
  apply BitVec.eq_of_getLsbD_eq
  intro i hi
  simp

theorem low_zeroExtend {m w : Nat} (x : BitVec w) : (x.zeroExtend (m + w)).extractLsb' 0 w = x :=
  (BitVec.extractLsb'_setWidth_of_le (by omega)).trans BitVec.extractLsb'_eq_self

/-- The must-be-zero bits are those of the mask that has them set. -/
theorem high_eq_zero_iff {m w : Nat} (arg : BitVec (m + w)) :
    arg.extractLsb' w m = 0#m ↔ arg &&& (BitVec.allOnes m ++ 0#w) = 0#(m + w) := by
  constructor
  · intro h
    apply BitVec.eq_of_getLsbD_eq
    intro i hi
    by_cases hlow : i < w
    · simp [BitVec.getLsbD_append, hlow]
    · have hz := congrArg (·.getLsbD (i - w)) h
      simp only [BitVec.getLsbD_extractLsb', BitVec.getLsbD_zero, Nat.add_sub_cancel' (not_lt.mp hlow)] at hz
      simpa [BitVec.getLsbD_append, hlow, show i - w < m by omega] using hz
  · intro h
    apply BitVec.eq_of_getLsbD_eq
    intro i hi
    have hz := congrArg (·.getLsbD (w + i)) h
    simpa [BitVec.getLsbD_append, hi] using hz

theorem formatN_eq_ok {arg : Word32} {i j : Instr} : formatN arg j = .ok i ↔ arg = 0#32 ∧ j = i := by
  unfold formatN
  split <;> simp_all

theorem formatB8_eq_ok {arg : Word32} {k : BitVec 8 → Instr} {i : Instr} :
    formatB8 arg k = .ok i ↔ ∃ x : BitVec 8, arg = x.zeroExtend 32 ∧ k x = i := by
  unfold formatB8
  constructor
  · intro h
    split at h
    next hz => exact ⟨_, eq_zeroExtend_of_high_eq_zero (m := 24) hz, Decoded.ok.inj h⟩
    next => cases h
  · rintro ⟨x, rfl, rfl⟩
    rw [if_pos (high_zeroExtend (m := 24) x), low_zeroExtend (m := 24) x]

theorem formatE2_eq_ok {arg : Word32} {k : BitVec 2 → Instr} {i : Instr} :
    formatE2 arg k = .ok i ↔ ∃ x : BitVec 2, arg = x.zeroExtend 32 ∧ k x = i := by
  unfold formatE2
  constructor
  · intro h
    split at h
    next hz => exact ⟨_, eq_zeroExtend_of_high_eq_zero (m := 30) hz, Decoded.ok.inj h⟩
    next => cases h
  · rintro ⟨x, rfl, rfl⟩
    rw [if_pos (high_zeroExtend (m := 30) x), low_zeroExtend (m := 30) x]

/-- The packed pair is an 8-bit operand, of which its two pins are the halves. -/
theorem formatP44_eq_formatB8 (arg : Word32) (k : BitVec 4 → BitVec 4 → Instr) :
    formatP44 arg k = formatB8 arg fun x => k (x.extractLsb' 4 4) (x.extractLsb' 0 4) := by
  simp only [formatP44, formatB8, BitVec.extractLsb'_extractLsb'_of_le (x := arg) (show 4 + 4 ≤ 8 by decide),
    BitVec.extractLsb'_extractLsb'_of_le (x := arg) (show 0 + 4 ≤ 8 by decide)]

theorem formatP44_eq_ok {arg : Word32} {k : BitVec 4 → BitVec 4 → Instr} {i : Instr} :
    formatP44 arg k = .ok i ↔ ∃ pos neg : BitVec 4, arg = (pos ++ neg).zeroExtend 32 ∧ k pos neg = i := by
  rw [formatP44_eq_formatB8, formatB8_eq_ok]
  constructor
  · rintro ⟨x, harg, hk⟩
    exact ⟨_, _, by rwa [BitVec.extractLsb'_append_extractLsb' (w := 4) (len := 4)], hk⟩
  · rintro ⟨pos, neg, harg, hk⟩
    exact ⟨pos ++ neg, harg, by rwa [BitVec.extractLsb'_append_eq_left, BitVec.extractLsb'_append_eq_right]⟩

theorem formatN_illegal_iff (arg : Word32) (i : Instr) :
    (∃ why, formatN arg i = .illegal why) ↔ arg &&& 0xFFFFFFFF#32 ≠ 0#32 := by
  have hmask : arg &&& 0xFFFFFFFF#32 = arg := BitVec.and_allOnes
  unfold formatN
  split <;> simp_all

theorem formatB8_illegal_iff (arg : Word32) (k : BitVec 8 → Instr) :
    (∃ why, formatB8 arg k = .illegal why) ↔ arg &&& 0xFFFFFF00#32 ≠ 0#32 := by
  have hmask : arg.extractLsb' 8 24 = 0#24 ↔ arg &&& 0xFFFFFF00#32 = 0#32 := high_eq_zero_iff (m := 24) (w := 8) arg
  unfold formatB8
  split <;> simp_all

theorem formatE2_illegal_iff (arg : Word32) (k : BitVec 2 → Instr) :
    (∃ why, formatE2 arg k = .illegal why) ↔ arg &&& 0xFFFFFFFC#32 ≠ 0#32 := by
  have hmask : arg.extractLsb' 2 30 = 0#30 ↔ arg &&& 0xFFFFFFFC#32 = 0#32 := high_eq_zero_iff (m := 30) (w := 2) arg
  unfold formatE2
  split <;> simp_all

theorem formatP44_illegal_iff (arg : Word32) (k : BitVec 4 → BitVec 4 → Instr) :
    (∃ why, formatP44 arg k = .illegal why) ↔ arg &&& 0xFFFFFF00#32 ≠ 0#32 := by
  rw [formatP44_eq_formatB8, formatB8_illegal_iff]

/-! ### Command words -/

/-- The word of an instruction is the one with its opcode and its argument. -/
theorem commandWord_of_fields {c : CmdWord} {i : Instr} {op : Byte} (hop : i.opcode = some op)
    (hc : (opField c).toNat = op.toNat) (harg : argField c = i.arg) : commandWord i = some c := by
  rw [commandWord, hop, Option.map_some, ← harg, ← BitVec.eq_of_toNat_eq hc, opField_append_argField]

/-- Settles O3: row by row of the opcode map, the format gives back the argument it was decoded from. -/
theorem legalWordIsTheEncoding : Obligations.LegalWordIsTheEncoding := by
  intro c i h
  unfold decodeCommand at h
  split at h
  case h_4 hc | h_8 hc | h_9 hc | h_11 hc | h_13 hc | h_19 hc | h_25 hc =>
    obtain ⟨x, harg, rfl⟩ := formatB8_eq_ok.mp h
    exact commandWord_of_fields rfl hc harg
  case h_5 hc | h_6 hc | h_7 hc =>
    obtain ⟨x, harg, rfl⟩ := formatE2_eq_ok.mp h
    exact commandWord_of_fields rfl hc harg
  case h_14 hc =>
    obtain ⟨pos, neg, harg, rfl⟩ := formatP44_eq_ok.mp h
    exact commandWord_of_fields rfl hc harg
  case h_10 hc =>
    obtain rfl := Decoded.ok.inj h
    exact commandWord_of_fields rfl hc rfl
  case h_26 => cases h
  all_goals
    next hc =>
      obtain ⟨harg, rfl⟩ := formatN_eq_ok.mp h
      exact commandWord_of_fields rfl hc harg

/-- A host command's word decodes to it. -/
theorem decodeCommand_commandWord {i : Instr} {c : CmdWord} (h : commandWord i = some c) :
    decodeCommand c = .ok i := by
  cases i with
  | frameRreg _ _ | frameWreg _ _ | frameFast _ => cases h
  | setDataFormat x | setScanChannel x | unsetScanChannel x | lock x | analogRead x | setResolution x | readCache x =>
    obtain rfl := Option.some.inj h
    rw [decodeCommand, opField_append, argField_append]
    exact formatB8_eq_ok.mpr ⟨x, rfl, rfl⟩
  | setConvMode x | setAdcMode x | setClockSelection x =>
    obtain rfl := Option.some.inj h
    rw [decodeCommand, opField_append, argField_append]
    exact formatE2_eq_ok.mpr ⟨x, rfl, rfl⟩
  | analogReadDiff pos neg =>
    obtain rfl := Option.some.inj h
    rw [decodeCommand, opField_append, argField_append]
    exact formatP44_eq_ok.mpr ⟨pos, neg, rfl, rfl⟩
  | setReference r =>
    obtain rfl := Option.some.inj h
    rw [decodeCommand, opField_append, argField_append]
    rfl
  | begin | read | isrHandler | unlock | singleEndedMode | differentialMode | startContinuousDifferential
  | startSingleDifferential | isComplete | getMaxValue | isDifferential | isContinuous | getReference =>
    obtain rfl := Option.some.inj h
    rw [decodeCommand, opField_append, argField_append]
    exact formatN_eq_ok.mpr ⟨rfl, rfl⟩

/-- The opcodes outside the map are those of R84. -/
theorem unassignedOpcode_iff (op : Byte) : unassignedOpcode op.toNat = true ↔
    op.toNat ∉ [0x01, 0x02, 0x03, 0x10, 0x11, 0x12, 0x13, 0x14, 0x15, 0x16, 0x17, 0x18, 0x20, 0x21, 0x30, 0x31, 0x32,
      0x33, 0x34, 0x40, 0x41, 0x42, 0x43, 0x44, 0x45] := by
  revert op
  decide

/-- Settles O5: at an assigned opcode a word is illegal by the mask of its format. -/
theorem illegalWordsAreThese : Obligations.IllegalWordsAreThese := by
  intro c
  rw [unassignedOpcode_iff]
  unfold decodeCommand
  split
  case h_4 hc | h_8 hc | h_9 hc | h_11 hc | h_13 hc | h_19 hc | h_25 hc =>
    simp [hc, mustBeZeroMask, formatB8_illegal_iff]
  case h_5 hc | h_6 hc | h_7 hc => simp [hc, mustBeZeroMask, formatE2_illegal_iff]
  case h_14 hc => simp [hc, mustBeZeroMask, formatP44_illegal_iff]
  case h_10 hc => simp [hc, mustBeZeroMask]
  case h_26 => simp_all
  all_goals next hc => simp [hc, mustBeZeroMask, formatN_illegal_iff]

/-! ### Frames -/

/-- A host command is well formed: its operands have the widths of their fields. -/
theorem Instr.wf_of_isCommand {i : Instr} (p : Params) (h : i.isCommand = true) : i.wf p = true := by
  cases i with
  | frameRreg _ _ | frameWreg _ _ | frameFast _ => cases h
  | _ => rfl

/-- The host commands are the instructions that have a command word (30_encoding R82, R85). -/
theorem isSome_commandWord (i : Instr) : (commandWord i).isSome = i.isCommand := by
  cases i <;> rfl

/-- Only a read frame has a width to fit. -/
theorem Instr.fits_of_isCommand {i : Instr} (fmt : Option Byte) (h : i.isCommand = true) : i.fits fmt := by
  rintro a n rfl
  cases h

theorem encode_command {i : Instr} {c : CmdWord} (p : Params) (h : commandWord i = some c) :
    encode p i = .command c := by
  simp only [encode, h]

theorem wireRead_eq_ok {p : Params} {fmt : Option Byte} {pay : List Byte} {i : Instr} :
    wireRead p fmt pay = .ok i ↔
      ∃ n ∈ readWidths fmt, pay = List.replicate n 0#8 ∧ .frameRreg p.addr.adcdata n = i := by
  unfold wireRead
  constructor
  · intro h
    split at h
    next hc =>
      obtain ⟨hz, hn⟩ : (∀ b ∈ pay, b = 0#8) ∧ pay.length ∈ readWidths fmt := by simpa using hc
      exact ⟨pay.length, hn, List.eq_replicate_of_mem hz, Decoded.ok.inj h⟩
    next => cases h
  · rintro ⟨n, hn, rfl, rfl⟩
    simp [hn]

theorem wireWrite_eq_ok {p : Params} {r : Reg} {pay : List Byte} {i : Instr} :
    wireWrite p r pay = .ok i ↔ pay.length = p.writeBytes r ∧ .frameWreg (p.addrOf r) pay = i := by
  unfold wireWrite
  split <;> simp_all

theorem wireFast_eq_ok {p : Params} {c : Byte} {pay : List Byte} {i : Instr} (h : wireFast p c pay = .ok i) :
    pay = [] ∧ ∃ f, c = p.fastByte f ∧ .frameFast f = i := by
  unfold wireFast at h
  split at h
  next hp =>
    refine ⟨hp, ?_⟩
    split at h
    next hc => exact ⟨.reset, hc, Decoded.ok.inj h⟩
    next =>
      split at h
      next hc => exact ⟨.standby, hc, Decoded.ok.inj h⟩
      next =>
        split at h
        next hc => exact ⟨.convStart, hc, Decoded.ok.inj h⟩
        next => cases h
  next => cases h

/-- Under admitted parameters the search among the fast commands finds the one whose byte it is. -/
theorem wireFast_fastByte {p : Params} {v : Variant} (h : p.wf v = true) (f : FastCmd) :
    wireFast p (p.fastByte f) [] = .ok (.frameFast f) := by
  obtain ⟨-, -, -, -, hsr, hcr, hcs⟩ := Params.wf_disjoint h
  cases f <;> simp [wireFast, Params.fastByte, hsr, hcr, hcs]

/-- What `writeTarget` finds is a written register with that write command. -/
theorem writeTarget_some {p : Params} {c : Byte} {r : Reg} (h : writeTarget p c = some r) :
    r ∈ writtenRegs ∧ c = p.cmdByte .write (p.addrOf r) :=
  ⟨List.mem_of_find?_eq_some h, (eq_of_beq (List.find?_some (p := fun r => p.cmdByte .write (p.addrOf r) == c) h)).symm⟩

/-- The command bytes of a write and of a fast command are not that of the read (R87). -/
theorem cmdByte_write_ne_read {p : Params} {v : Variant} (h : p.wf v = true) (r : Reg) :
    p.cmdByte .write (p.addrOf r) ≠ p.cmdByte .read p.addr.adcdata := fun e =>
  (Params.wf_disjoint h).2.2.1 _ (Params.cmdByte_mem h .adcdata).1
    (show p.cmdByte .read p.addr.adcdata ∈ _ from e ▸ (Params.cmdByte_mem h r).2)

theorem fastByte_ne_read {p : Params} {v : Variant} (h : p.wf v = true) (f : FastCmd) :
    p.fastByte f ≠ p.cmdByte .read p.addr.adcdata := fun e =>
  ((Params.wf_disjoint h).2.2.2.1 f).1 (e ▸ (Params.cmdByte_mem h .adcdata).1)

/-- A well-formed write frame is of a written register, with that register's width (20_memory R60, R68). -/
theorem Instr.wf_frameWreg {p : Params} {a : Nat} {x : List Byte} :
    (Instr.frameWreg a x).wf p = true ↔ ∃ r ∈ writtenRegs, a = p.addrOf r ∧ x.length = p.writeBytes r := by
  simp [Instr.wf]

theorem Instr.wf_frameRreg {p : Params} {a n : Nat} :
    (Instr.frameRreg a n).wf p = true ↔ a = p.addr.adcdata ∧ (n = 3 ∨ n = 4) := by
  simp [Instr.wf]

/-- The bytes of a well-formed frame decode to it. -/
theorem decodeWire_wireBytes {p : Params} {v : Variant} (h : p.wf v = true) {fmt : Option Byte} {i : Instr}
    (hi : i.isCommand = false) (hw : i.wf p = true) (hf : i.fits fmt) : decodeWire p fmt (wireBytes p i) = .ok i := by
  cases i with
  | frameRreg a n =>
    obtain ⟨rfl, -⟩ := Instr.wf_frameRreg.mp hw
    rw [wireBytes, decodeWire, if_pos rfl]
    exact wireRead_eq_ok.mpr ⟨n, hf _ n rfl, rfl, rfl⟩
  | frameWreg a x =>
    obtain ⟨r, hr, rfl, hx⟩ := Instr.wf_frameWreg.mp hw
    rw [wireBytes, decodeWire, if_neg (cmdByte_write_ne_read h r), writeTarget_cmdByte h hr]
    exact wireWrite_eq_ok.mpr ⟨hx, rfl⟩
  | frameFast f =>
    rw [wireBytes, decodeWire, if_neg (fastByte_ne_read h f), writeTarget_fastByte h f]
    exact wireFast_fastByte h f
  | _ => cases hi

/-- The encoding of a frame is its bytes. -/
theorem encode_frame {i : Instr} (p : Params) (h : i.isCommand = false) : encode p i = .wire (wireBytes p i) := by
  cases i with
  | frameRreg _ _ | frameWreg _ _ | frameFast _ => rfl
  | _ => cases h

/-- Settles O2: a host command by its word, a frame by its bytes. -/
theorem decodeEncodeAgree : Obligations.DecodeEncodeAgree := by
  intro p v h fmt i hw hf
  cases hc : commandWord i with
  | some c =>
    rw [encode_command p hc]
    exact decodeCommand_commandWord hc
  | none =>
    have hi : i.isCommand = false := by rw [← isSome_commandWord, hc, Option.isSome_none]
    rw [encode_frame p hi]
    exact decodeWire_wireBytes h hi hw hf

/-- Bytes that decode are the encoding of a well-formed frame. -/
theorem decodeWire_eq_ok {p : Params} {fmt : Option Byte} {bytes : List Byte} {i : Instr}
    (h : decodeWire p fmt bytes = .ok i) : i.wf p = true ∧ i.fits fmt ∧ encode p i = .wire bytes := by
  cases bytes with
  | nil => cases h
  | cons c pay =>
    rw [decodeWire] at h
    split at h
    next hc =>
      obtain ⟨n, hn, rfl, rfl⟩ := wireRead_eq_ok.mp h
      refine ⟨Instr.wf_frameRreg.mpr ⟨rfl, mem_readWidths hn⟩, ?_, by rw [hc]; rfl⟩
      rintro a m ⟨⟩
      exact hn
    next =>
      split at h
      next r ht =>
        obtain ⟨hr, rfl⟩ := writeTarget_some ht
        obtain ⟨hl, rfl⟩ := wireWrite_eq_ok.mp h
        exact ⟨Instr.wf_frameWreg.mpr ⟨r, hr, rfl, hl⟩, (by rintro a n ⟨⟩), rfl⟩
      next =>
        obtain ⟨rfl, f, rfl, rfl⟩ := wireFast_eq_ok h
        exact ⟨rfl, (by rintro a n ⟨⟩), rfl⟩

/-- What decodes is the encoding of a well-formed instruction that fits S.fmt_code. -/
theorem decode_eq_ok {p : Params} {fmt : Option Byte} {inp : Input} {i : Instr} (h : decode p fmt inp = .ok i) :
    i.wf p = true ∧ i.fits fmt ∧ encode p i = inp := by
  cases inp with
  | wire bytes => exact decodeWire_eq_ok h
  | command c =>
    have hc := legalWordIsTheEncoding c i h
    have hi : i.isCommand = true := by rw [← isSome_commandWord, hc, Option.isSome_some]
    exact ⟨Instr.wf_of_isCommand p hi, Instr.fits_of_isCommand fmt hi, encode_command p hc⟩

/-- Settles O4: the addresses and widths of a frame are what well-formedness and `fits` say of it. -/
theorem decodedIsWellFormed : Obligations.DecodedIsWellFormed := by
  intro p fmt inp i h
  obtain ⟨hw, hf, he⟩ := decode_eq_ok h
  refine ⟨hw, hf, he, ?_, ?_⟩
  · rintro a n rfl
    obtain ⟨ha, hn⟩ := Instr.wf_frameRreg.mp hw
    refine ⟨ha, hn, fun f hfmt => ?_⟩
    obtain rfl : fmt = some f := hfmt
    simpa [readWidths] using hf a n rfl
  · rintro a x rfl
    obtain ⟨r, hr, rfl, hx⟩ := Instr.wf_frameWreg.mp hw
    cases r <;> simp_all [writtenRegs, Params.writeBytes]

/-- Settles O1: each word is evaluated by the decoder. -/
theorem sampleWordsDecode : Obligations.SampleWordsDecode := by
  unfold Obligations.SampleWordsDecode
  decide

end Sys2Proof
end

section
/-! The sample decoder (42_read_decode R141 to R153) and the effective resolution (44_setters R183), as numbers. -/

namespace Sys2Proof.Machine

/-- Settles O12: the widths of R141, code by code. -/
theorem payloadWidthByFormat : Obligations.PayloadWidthByFormat := by
  unfold Obligations.PayloadWidthByFormat
  decide

/-! ### Assembly and value decode -/

theorem assembleBytes_four (a b c d : Byte) : assembleBytes [a, b, c, d] = a ++ b ++ c ++ d := by
  simp only [assembleBytes, List.foldl_cons, List.foldl_nil, BitVec.zero_shiftLeft, BitVec.zero_or]
  rw [setWidth_shiftLeft_or_byte, setWidth_shiftLeft_or_byte, setWidth_shiftLeft_or_byte]
  exact BitVec.setWidth_eq _

theorem setWidth_three (a b c : Byte) : (a ++ b ++ c).setWidth 32 = 0#8 ++ a ++ b ++ c := by
  apply BitVec.eq_of_toNat_eq
  rw [BitVec.toNat_setWidth_of_le (by decide)]
  simp only [BitVec.toNat_append, BitVec.toNat_ofNat, Nat.zero_mod, Nat.zero_shiftLeft, Nat.zero_or]

/-- Settles O13: the assembly is the concatenation of the bytes, padded with zeros. -/
theorem assemblyIsBigEndian : Obligations.AssemblyIsBigEndian := by
  refine ⟨assembleBytes_four, fun a b c => ?_⟩
  rw [assembleBytes_three, setWidth_three]

theorem decodeValue_unrecognized {f : Byte} (hf : 4 ≤ f.toNat) (w : Word32) : decodeValue f w = 0xFFFFFFFF#32 := by
  unfold decodeValue
  split
  case h_5 => rfl
  all_goals next h => omega

/-- Settles O14: each format by its own decode. -/
theorem valueDecodeByFormat : Obligations.ValueDecodeByFormat := by
  intro f w
  refine ⟨?_, ?_, fun hf => ?_, fun hf => ?_⟩
  · rintro rfl
    exact BitVec.toInt_signExtend_of_le (by decide)
  · rintro rfl
    rw [decodeValue_sgnDataZero, BitVec.toNat_ushiftRight, Nat.shiftRight_eq_div_pow]
  · obtain ⟨-, -, -, hor, hmask, -⟩ := extendedSignDecodeKeepsTheMask f w hf
    exact ⟨hor, hmask⟩
  · rw [decodeValue_unrecognized hf]
    rfl

/-! ### The channel id -/

theorem lookupFrom_eq_noChannel {m : Byte} {l : List Byte} (i : Nat) (h : m ∉ l) : lookupFrom m i l = noChannel := by
  induction l generalizing i with
  | nil => rfl
  | cons b rest ih =>
    rw [List.mem_cons, not_or] at h
    rw [lookupFrom, if_neg (Ne.symm h.1), ih _ h.2]

theorem lookupFrom_of_mem {m : Byte} {l : List Byte} (i : Nat) (h : m ∈ l) :
    ∃ j < l.length, lookupFrom m i l = BitVec.ofNat 8 (i + j) ∧ l[j]? = some m ∧ ∀ k < j, l[k]? ≠ some m := by
  induction l generalizing i with
  | nil => cases h
  | cons b rest ih =>
    by_cases hb : b = m
    · exact ⟨0, Nat.zero_lt_succ _, by rw [lookupFrom, if_pos hb, Nat.add_zero], congrArg some hb,
        fun k hk => absurd hk (Nat.not_lt_zero k)⟩
    · obtain ⟨j, hj, hl, hm, hlow⟩ := ih (i + 1) ((List.mem_cons.mp h).resolve_left (Ne.symm hb))
      refine ⟨j + 1, by simpa using hj, by rw [lookupFrom, if_neg hb, hl]; congr 1; omega, by simpa using hm, ?_⟩
      rintro (_ | k) hk
      · simpa using hb
      · simpa using hlow k (by omega)

/-- Settles O17: the scan of the table from index 0. -/
theorem lookupFindsLowestIndex : Obligations.LookupFindsLowestIndex := by
  intro s m hlen
  refine ⟨lookupFrom_eq_noChannel 0, fun hm => ?_⟩
  obtain ⟨j, hj, hl, hat, hlow⟩ := lookupFrom_of_mem 0 hm
  exact ⟨j, by omega, by rw [State.lookup, hl, Nat.zero_add], hat, hlow⟩

/-- Settles O18: the top four bits of the word for `id_sgnext_data`, the lookup otherwise. -/
theorem channelIdByFormat : Obligations.ChannelIdByFormat := by
  intro s f w m
  constructor
  · rintro rfl
    have hw : w.toNat / 2 ^ 28 < 2 ^ 4 := by omega
    rw [State.decodeChannel, if_pos (show 3#8 = Config.fmtIdSgnextData from rfl), BitVec.toNat_setWidth,
      BitVec.extractLsb'_toNat, Nat.shiftRight_eq_div_pow]
    omega
  · intro hf
    rw [State.decodeChannel, if_neg (show ¬ f = Config.fmtIdSgnextData from hf)]

/-! ### The effective resolution -/

theorem newResolution_unrecognized (s : State) {f : Byte} (hf : 4 ≤ f.toNat) : s.newResolution f = 0xFF#8 := if_pos hf

theorem newResolution_recognized (s : State) {f : Byte} (hf : f.toNat ≤ 3) : s.newResolution f =
    if s.params.signConsumes (f.setWidth 2) then s.resolutionMax - 1#8 else s.resolutionMax :=
  if_neg (by omega)

/-- The resolutions of R6 are far from the ends of the signed range. -/
theorem toInt_resolutionMax_sub_one (v : Variant) :
    (v.resolutionMax - 1#8).toInt = v.resolutionMax.toInt - 1 := by
  cases v <;> decide

/-- Settles O24: R183 over the resolutions of R6. -/
theorem resolutionByFormat : Obligations.ResolutionByFormat := by
  intro s f hmax
  have hknown (hf : f.toNat ≤ 3) : (s.newResolution f).toInt =
      if s.params.signConsumes (f.setWidth 2) then s.resolutionMax.toInt - 1 else s.resolutionMax.toInt := by
    rw [newResolution_recognized s hf, hmax, ← toInt_resolutionMax_sub_one]
    exact apply_ite BitVec.toInt _ _ _
  refine ⟨fun hf => ?_, ?_, hknown⟩
  · rw [newResolution_unrecognized s hf]
    rfl
  · rintro rfl
    exact hknown (by decide)

end Sys2Proof.Machine
end

section
/-! The views of the register images (10_state R27), bit by bit: what each write of a view leaves in the image. -/

namespace Sys2Proof.Machine

/-- A view's bits are the image's from its lowest bit on. -/
theorem getLsbD_view2 (img : Byte) (lo i : Nat) :
    (view2 img lo).getLsbD i = (decide (i < 2) && img.getLsbD (lo + i)) := by
  rw [view2, BitVec.getLsbD_setWidth, BitVec.getLsbD_ushiftRight]

theorem getLsbD_three (i : Nat) : (0x03#8).getLsbD i = decide (i < 2) := by
  rw [BitVec.getLsbD_ofNat, show 3 = 2 ^ 2 - 1 from rfl, Nat.testBit_two_pow_sub_one, ← Bool.decide_and]
  exact decide_eq_decide.mpr (by omega)

/-- The image after a write of a 2-bit view: the written bits in their place, every other bit as it was. -/
theorem getLsbD_setView2 (img : Byte) (lo : Nat) (x : BitVec 2) {k : Nat} (hk : k < 8) :
    (setView2 img lo x).getLsbD k = if lo ≤ k ∧ k < lo + 2 then x.getLsbD (k - lo) else img.getLsbD k := by
  simp only [setView2, BitVec.getLsbD_or, BitVec.getLsbD_and, BitVec.getLsbD_not, BitVec.getLsbD_shiftLeft,
    getLsbD_three, BitVec.getLsbD_setWidth]
  by_cases hlo : lo ≤ k
  · by_cases hhi : k < lo + 2
    · simp [hk, hlo, hhi, show k - lo < 8 by omega, show k - lo < 2 by omega, show ¬ k < lo by omega]
    · have hx : x.getLsbD (k - lo) = false := BitVec.getLsbD_of_ge x _ (by omega)
      simp [hk, hhi, hx, show ¬ k - lo < 2 by omega]
  · simp [hk, hlo, show k < lo by omega]

/-- The image after a write of a 1-bit view. -/
theorem getLsbD_setViewBit (img : Byte) (n : Nat) (x : Bool) {k : Nat} (hk : k < 8) :
    (setViewBit img n x).getLsbD k = if k = n then x else img.getLsbD k := by
  have hbit : (0x01#8 <<< n).getLsbD k = decide (k = n) := by
    rw [BitVec.getLsbD_shiftLeft, BitVec.getLsbD_one]
    simp only [hk, decide_true, Bool.true_and, ← decide_not, ← Bool.decide_and]
    exact decide_eq_decide.mpr (by omega)
  cases x with
  | true =>
    rw [setViewBit, if_pos rfl, BitVec.getLsbD_or, hbit]
    by_cases h : k = n <;> simp [h]
  | false =>
    rw [setViewBit, if_neg Bool.false_ne_true, BitVec.getLsbD_and, BitVec.getLsbD_not, hbit, decide_eq_true hk]
    by_cases h : k = n <;> simp [h]

/-- A view reads as it was written. -/
theorem view2_setView2 (img : Byte) {lo : Nat} (x : BitVec 2) (h : lo + 2 ≤ 8) : view2 (setView2 img lo x) lo = x := by
  apply BitVec.eq_of_getLsbD_eq
  intro i hi
  rw [getLsbD_view2, getLsbD_setView2 img lo x (show lo + i < 8 by omega), if_pos (by omega), decide_eq_true hi,
    Bool.true_and, Nat.add_sub_cancel_left]

/-- A write of another view, which shares no bit with this one, leaves it (log 11). -/
theorem view2_setView2_of_disjoint (img : Byte) {lo lo' : Nat} (x : BitVec 2) (h : lo' + 2 ≤ 8)
    (hd : disjointRanges lo 2 lo' 2 = true) : view2 (setView2 img lo x) lo' = view2 img lo' := by
  apply BitVec.eq_of_getLsbD_eq
  intro i hi
  simp only [disjointRanges, Bool.or_eq_true, decide_eq_true_eq] at hd
  rw [getLsbD_view2, getLsbD_view2, getLsbD_setView2 img lo x (show lo' + i < 8 by omega), if_neg (by omega)]

/-- Settles O31: the bits of the image after each write. -/
theorem viewWriteKeepsOtherBits : Obligations.ViewWriteKeepsOtherBits := by
  refine ⟨fun img lo x h => ⟨view2_setView2 img x h, fun k hk hout => ?_⟩,
    fun img n x h => ⟨?_, fun k hk hne => ?_⟩⟩
  · rw [getLsbD_setView2 img lo x hk, if_neg (by omega)]
  · rw [viewBit, getLsbD_setViewBit img n x h, if_pos rfl]
  · rw [getLsbD_setViewBit img n x hk, if_neg hne]

/-- The image of several bytes after a write of one bit inside it. -/
theorem imageBit_setImageBit (img : List Byte) {k : Nat} (x : Bool) (h : k < 8 * img.length) (j : Nat) :
    imageBit (setImageBit img k x) j = if j = k then x else imageBit img j := by
  have hk : k / 8 < img.reverse.length := by rw [List.length_reverse]; omega
  simp only [imageBit, setImageBit, List.reverse_reverse, List.getD_eq_getElem?_getD, List.getElem?_modify]
  by_cases hbyte : k / 8 = j / 8
  · have hj : j / 8 < img.reverse.length := hbyte ▸ hk
    simp only [hbyte, if_true, List.getElem?_eq_getElem hj, Option.map_eq_map, Option.map_some,
      Option.getD_some, viewBit,      getLsbD_setViewBit _ _ _ (show j % 8 < 8 by omega)]
    exact if_congr (by omega) rfl rfl
  · simp only [hbyte, if_false, if_neg (show ¬ j = k by rintro rfl; exact hbyte rfl), id_map']

/-- Settles O32: the scan mask is 16 bits of one image. -/
theorem scanMaskWriteKeepsOtherBits : Obligations.ScanMaskWriteKeepsOtherBits := by
  intro sh l i x h
  refine ⟨?_, fun k hk => ?_, Shadow.setScanMask_length sh l i x⟩
  · exact (imageBit_setImageBit sh.imgScan x h _).trans (if_pos rfl)
  · exact (imageBit_setImageBit sh.imgScan x h k).trans (if_neg hk)

end Sys2Proof.Machine
end

section
/-! The commands on the bus in a quiet environment: READ and ISR_HANDLER (42_read_decode R140, 43_interrupt R170), the
setters (44_setters), the conversion triggers (45_conversion R210 to R214), BEGIN (40_begin R100 to R106), and the
frames by themselves (41_bus_frames R120 to R126). The laws of the operations give the state in which each ends as a
chain of updates; here the chain is read off field by field. -/

namespace Sys2Proof.Machine

/-! ### READ and ISR_HANDLER -/

/-- READ from a begun block: what the read frame answers is the response (R140). -/
theorem readOp_quiet (s : State) (sh : Shadow) (hb : s.begun = true) (h : s.shadow = some sh)
    (q : s.Quiet (s.frameBoundaries (sampleWidth sh.fmtCode))) :
    readOp s = .ok {
        status := some (s.answer 0)
        channel := some (s.decodeChannel sh.fmtCode (s.nextWord (sampleWidth sh.fmtCode)) sh.imgMux)
        value := some (decodeValue sh.fmtCode (s.nextWord (sampleWidth sh.fmtCode))) }
      (s.afterSample (sampleWidth sh.fmtCode)) := by
  simp only [readOp, op_bind, requireBegun_true s hb, readSample_quiet s sh h q, look_apply, op_pure]
  rfl

/-- ISR_HANDLER from a begun block: the read frame, and then the cache store (R170). -/
theorem isrOp_quiet (s : State) (sh : Shadow) (hb : s.begun = true) (h : s.shadow = some sh)
    (q : s.Quiet (s.frameBoundaries (sampleWidth sh.fmtCode))) :
    isrOp s = (do
        cacheWrite (s.decodeChannel sh.fmtCode (s.nextWord (sampleWidth sh.fmtCode)) sh.imgMux)
          (decodeValue sh.fmtCode (s.nextWord (sampleWidth sh.fmtCode)))
        return { } : Op Response) (s.afterSample (sampleWidth sh.fmtCode)) := by
  rw [isrOp, op_bind_ok (requireBegun_true s hb), op_bind_ok (readSample_quiet s sh h q)]

/-- Settles O19: READ ends in the state after its one frame. -/
theorem readReturnsTheSample : Obligations.ReadReturnsTheSample := by
  intro s sh ⟨hi, hb, hsh⟩ n bytes w q
  refine (hostCommand_ok .read readOp s _ _ hi (readOp_quiet (s.enter (.fg .read)) sh hb hsh q)).trans (congrArg _ ?_)
  simp [State.leave, State.afterSample, State.nextWord, State.frameBoundaries, hi.2, n, bytes, w]

/-- Settles O20: the store at a channel id inside the cache. -/
theorem isrStoresTheSample : Obligations.IsrStoresTheSample := by
  intro s sh ⟨hi, hb, hsh⟩ n bytes w ch q hch
  have hrun := (isrOp_quiet (s.enter .isr) sh hb hsh q).trans (op_bind_ok (cacheWrite_in ch _ _ hch))
  refine (isrCommand_ok isrOp s _ _ hi hrun).trans (congrArg _ ?_)
  simp [State.leave, State.afterSample, State.nextWord, State.frameBoundaries, hi.2, n, bytes, w]

/-- Settles O21: the store at a channel id outside the cache faults. -/
theorem isrOutsideTheCacheFaults : Obligations.IsrOutsideTheCacheFaults := by
  intro s sh ⟨hi, hb, hsh⟩ n bytes w q hch
  have hrun := (isrOp_quiet (s.enter .isr) sh hb hsh q).trans (op_bind_error (cacheWrite_out _ _ _ hch))
  refine (isrCommand_error isrOp s _ _ hi hrun).trans (congrArg _ ?_)
  simp [State.raise, Busy.word, isrWord, State.afterSample, State.nextWord, State.frameBoundaries, n, bytes, w]

/-! ### Setters -/

/-- A setter by the shared pattern (R180): the written shadow, one write frame of the whole image, the captured
status. -/
theorem hostCommand_setter (i : Instr) (write : Layout → Shadow → Shadow) (r : Reg) {s : State} {sh : Shadow}
    (hs : s.Ready sh) (q : s.Quiet (((write s.params.layout sh).image r).length + 2)) :
    hostCommand i (setter write r) s = .next { s with
      shadow := some (write s.params.layout sh)
      status := some (s.answer 0)
      cs := .driven .high
      seqStep := 0
      bus := s.bus ++ s.frameAt 0 (s.params.cmdByte .write (s.params.addrOf r)) ((write s.params.layout sh).image r)
      responses := s.responses ++ [{ status := some (s.answer 0) }]
      irqPlan := s.irqPlan.drop (((write s.params.layout sh).image r).length + 2)
      peer := s.peer.drop (((write s.params.layout sh).image r).length + 1)
      drawn := s.drawn + (((write s.params.layout sh).image r).length + 1) } := by
  obtain ⟨hi, hb, hsh⟩ := hs
  refine (hostCommand_ok i _ s _ _ hi (setter_quiet write r (s.enter (.fg i)) sh hb hsh q)).trans (congrArg _ ?_)
  simp [State.leave, State.afterWriteReg, State.frameBoundaries, hi.2]

/-- Settles O25: the setter of the conv_mode view. -/
theorem setConvModeWritesThrough : Obligations.SetConvModeWritesThrough := by
  intro m s sh hs q
  exact hostCommand_setter (.setConvMode m) (Shadow.setConvMode · m) .config3 hs q

/-- Settles O26: the setter of the adc_mode view. -/
theorem setAdcModeWritesThrough : Obligations.SetAdcModeWritesThrough := by
  intro m s sh hs q
  exact hostCommand_setter (.setAdcMode m) (Shadow.setAdcMode · m) .config0 hs q

/-- Settles O27: the setter of the clk_sel view. -/
theorem setClockWritesThrough : Obligations.SetClockWritesThrough := by
  intro c s sh hs q
  exact hostCommand_setter (.setClockSelection c) (Shadow.setClkSel · c) .config0 hs q

/-- UNLOCK is the setter of the lock image with the default key of the parameters (R198). -/
theorem hostCommand_unlock {s : State} {sh : Shadow} (hs : s.Ready sh) :
    hostCommand .unlock unlockOp s =
      hostCommand .unlock (setter (fun _ sh => { sh with imgLock := s.params.unlockKey }) .lock) s := by
  rw [hostCommand_idle _ _ _ hs.1, hostCommand_idle _ _ _ hs.1]
  rfl

/-- Settles O28: both are setters of the lock image. -/
theorem lockAndUnlockWriteTheKey : Obligations.LockAndUnlockWriteTheKey := by
  intro k s sh hs q after
  constructor
  · exact hostCommand_setter (.lock k) (fun _ sh => { sh with imgLock := k }) .lock hs q
  · exact (hostCommand_unlock hs).trans
      (hostCommand_setter .unlock (fun _ sh => { sh with imgLock := s.params.unlockKey }) .lock hs q)

/-- Settles O22: the format setter with fmt_bits from the code. -/
theorem setRecognizedFormat : Obligations.SetRecognizedFormat := by
  intro f s sh ⟨hi, hb, hsh⟩ q hf img
  have hrun := setDataFormatOp_known f (s.enter (.fg (.setDataFormat f))) sh hb hsh hf q
  refine (hostCommand_ok _ _ s _ _ hi hrun).trans (congrArg _ ?_)
  simp [State.leave, State.afterWriteReg, Shadow.setFmtBits, newResolution_recognized s hf, hi.2, State.frameBoundaries,
    img]

/-- Settles O23: the format setter with drawn fmt_bits. -/
theorem setUnrecognizedFormat : Obligations.SetUnrecognizedFormat := by
  intro f s sh ⟨hi, hb, hsh⟩ q hf img
  have hrun := setDataFormatOp_unknown f (s.enter (.fg (.setDataFormat f))) sh hb hsh hf q
  refine (hostCommand_ok _ _ s _ _ hi hrun).trans (congrArg _ ?_)
  simp [State.leave, State.afterWriteReg, Shadow.setFmtBits, newResolution_unrecognized s hf, hi.2,
    State.frameBoundaries, img]

/-- A scan setter whose selector is in the table, with the mask bit `x` (R191, R192). -/
theorem hostCommand_scanChannel (i : Instr) (sel : Byte) (x : Bool) {s : State} {sh : Shadow} (hs : s.Ready sh)
    (q : s.Quiet (sh.imgScan.length + 2)) (hl : s.lookup sel ≠ noChannel) :
    hostCommand i (scanChannelOp sel x) s = .next { s with
      shadow := some (sh.setScanMask s.params.layout (s.lookup sel).toNat x)
      status := some (s.answer 0)
      cs := .driven .high
      seqStep := 0
      bus := s.bus ++ s.frameAt 0 (s.params.cmdByte .write s.params.addr.scan)
        (sh.setScanMask s.params.layout (s.lookup sel).toNat x).imgScan
      responses := s.responses ++ [{ status := some (s.answer 0) }]
      irqPlan := s.irqPlan.drop (sh.imgScan.length + 2)
      peer := s.peer.drop (sh.imgScan.length + 1)
      drawn := s.drawn + (sh.imgScan.length + 1) } := by
  obtain ⟨hi, hb, hsh⟩ := hs
  have hrun := scanChannelOp_found sel x (s.enter (.fg i)) sh hb hsh hl q
  refine (hostCommand_ok i _ s _ _ hi hrun).trans (congrArg _ ?_)
  simp [State.leave, State.afterWriteReg, State.frameBoundaries, hi.2]

/-- Settles O29: both scan setters write the mask bit of the selector's index. -/
theorem scanChannelWritesItsBit : Obligations.ScanChannelWritesItsBit := by
  intro sel s sh hs q hl after
  exact ⟨hostCommand_scanChannel (.setScanChannel sel) sel true hs q hl,
    hostCommand_scanChannel (.unsetScanChannel sel) sel false hs q hl⟩

/-- An operation of an idle block that faults before it has changed anything leaves the fault, S.busy and the sequencer
step behind (R261 to R263). -/
theorem hostCommand_raise {i : Instr} {body : Op Response} {s : State} {c : FaultCode} {w : CmdWord} (hs : s.Idle)
    (hw : commandWord i = some w)
    (h : body (s.enter (.fg i)) = .error () ((s.enter (.fg i)).raise c (s.enter (.fg i)).busy.word)) :
    hostCommand i body s = .next { s with busy := .fg i, seqStep := 0, fault := some ⟨c, w⟩ } := by
  refine (hostCommand_error i body s _ _ hs h).trans (congrArg _ ?_)
  simp [State.raise, State.enter, Busy.word, hw]

/-- An 8-bit operand's argument (R81). -/
theorem zeroExtend_byte (x : Byte) : x.zeroExtend 32 = 0#24 ++ x := by
  apply BitVec.eq_of_toNat_eq
  rw [BitVec.toNat_setWidth_of_le (by decide), BitVec.toNat_append, BitVec.toNat_ofNat, Nat.zero_mod,
    Nat.zero_shiftLeft, Nat.zero_or]

/-- Settles O30: the lookup's 0xFF raises ChannelNotFound first. -/
theorem unknownScanChannelFaults : Obligations.UnknownScanChannelFaults := by
  intro sel s sh ⟨hi, hb, _⟩ hl
  rw [← zeroExtend_byte]
  exact ⟨hostCommand_raise hi rfl (scanChannelOp_notFound sel true _ hb hl),
    hostCommand_raise hi rfl (scanChannelOp_notFound sel false _ hb hl)⟩

/-- Settles O33: the reference and its selection bit, sent in CONFIG0. -/
theorem setReferenceZeroSelectsInternal : Obligations.SetReferenceZeroSelectsInternal := by
  intro s sh ⟨hi, hb, hsh⟩ q img
  have hrun := setReferenceOp_zero (s.enter (.fg (.setReference 0#32))) sh hb hsh q
  refine (hostCommand_ok _ _ s _ _ hi hrun).trans (congrArg _ ?_)
  simp [State.leave, State.afterWriteReg, Shadow.setVrefSel, hi.2, State.frameBoundaries, img]

/-- Settles O34: a nonzero reference is stored and nothing is sent. -/
theorem setReferenceNonzeroIsHostSide : Obligations.SetReferenceNonzeroIsHostSide := by
  intro r s hi hr
  refine (hostCommand_ok _ _ s _ _ hi (setReferenceOp_nonzero r _ hr)).trans (congrArg _ ?_)
  simp [State.leave, hi.2]

/-! ### Conversion triggers -/

/-- The state after the three frames of a conversion (R210), from the start of the operation `b` on. -/
theorem afterConversion_enter (s : State) (b : Busy) (sh : Shadow) (sel : Byte) :
    (s.enter b).afterConversion sh sel = { s with
      shadow := some { sh with imgMux := sel }
      status := some (s.answer 3)
      sample := some (s.convWord sh)
      payload := s.answers 4 (sampleWidth sh.fmtCode)
      cs := .driven .high
      seqStep := sampleWidth sh.fmtCode + 10
      busy := b
      bus := s.bus ++ (s.frameAt 0 (s.params.cmdByte .write s.params.addr.mux) [sel] ++
        (s.frameAt 2 s.params.fastConvStart [] ++
          s.frameAt 3 (s.params.cmdByte .read s.params.addr.adcdata) (List.replicate (sampleWidth sh.fmtCode) 0#8)))
      irqPlan := s.irqPlan.drop (sampleWidth sh.fmtCode + 9)
      peer := s.peer.drop (sampleWidth sh.fmtCode + 4)
      drawn := s.drawn + (sampleWidth sh.fmtCode + 4) } := by
  rw [State.afterConversion, State.afterSample, State.setSample, State.setPayload]
  simp [State.afterFast, State.afterWriteReg, State.nextWord, State.convWord, State.frameBoundaries, Params.fastByte]
  omega

/-- ANALOG_READ of `sel` by the command `i`, with a channel id inside the cache (R210 to R212). -/
theorem hostCommand_analogRead (i : Instr) (sel : Byte) {s : State} {sh : Shadow} (hs : s.Ready sh)
    (q : s.Quiet (sampleWidth sh.fmtCode + 9))
    (hch : (s.decodeChannel sh.fmtCode (s.convWord sh) sel).toNat < s.params.cacheSize) :
    hostCommand i (analogReadOp sel) s =
      .next ((((s.enter (.fg i)).afterConversion sh sel).setCache
        (s.decodeChannel sh.fmtCode (s.convWord sh) sel).toNat (decodeValue sh.fmtCode (s.convWord sh))).leave
          (some { value := some (decodeValue sh.fmtCode (s.convWord sh)) })) := by
  obtain ⟨hi, hb, hsh⟩ := hs
  exact hostCommand_ok i _ s _ _ hi
    ((analogRead_frames sel (s.enter (.fg i)) sh hb hsh rfl q).trans (op_bind_ok (cacheWrite_in _ _ _ hch)))

/-- ANALOG_READ of `sel` by the command `i`, with a channel id outside the cache (R210, R261). -/
theorem hostCommand_analogRead_out {i : Instr} {w : CmdWord} (hw : commandWord i = some w) (sel : Byte) {s : State}
    {sh : Shadow} (hs : s.Ready sh) (q : s.Quiet (sampleWidth sh.fmtCode + 9))
    (hch : s.params.cacheSize ≤ (s.decodeChannel sh.fmtCode (s.convWord sh) sel).toNat) :
    hostCommand i (analogReadOp sel) s =
      .next (((s.enter (.fg i)).afterConversion sh sel).raise .cacheIndexOutOfRange w) := by
  obtain ⟨hi, hb, hsh⟩ := hs
  have hword : ((s.enter (.fg i)).afterConversion sh sel).busy.word = w := by
    rw [afterConversion_enter, Busy.word, hw, Option.getD_some]
  rw [← hword]
  exact hostCommand_error i _ s _ _ hi
    ((analogRead_frames sel (s.enter (.fg i)) sh hb hsh rfl q).trans (op_bind_error (cacheWrite_out _ _ _ hch)))

/-- The packed pair of pins as a number (R213). -/
theorem muxPack_eq_ofNat (pos neg : BitVec 4) : muxPack pos neg = BitVec.ofNat 8 (16 * pos.toNat + neg.toNat) := by
  apply BitVec.eq_of_toNat_eq
  have hpos := pos.isLt
  have hneg := neg.isLt
  rw [muxPack, BitVec.toNat_append, ← Nat.shiftLeft_add_eq_or_of_lt hneg, BitVec.toNat_ofNat, Nat.shiftLeft_eq]
  omega

/-- Settles O35: ANALOG_READ of its selector. -/
theorem analogReadConvertsAndStores : Obligations.AnalogReadConvertsAndStores := by
  intro sel s sh hs n bytes w ch q hch
  refine (hostCommand_analogRead (.analogRead sel) sel hs q hch).trans (congrArg _ ?_)
  rw [afterConversion_enter, State.setCache, State.leave, ← hs.1.2]
  rfl

/-- Settles O36: ANALOG_READ of the packed pair. -/
theorem analogReadDiffConvertsThePair : Obligations.AnalogReadDiffConvertsThePair := by
  intro pos neg s sh hs
  rw [← muxPack_eq_ofNat]
  intro sel n bytes w ch q hch
  refine (hostCommand_analogRead (.analogReadDiff pos neg) (muxPack pos neg) hs q hch).trans (congrArg _ ?_)
  rw [afterConversion_enter, State.setCache, State.leave, ← hs.1.2]
  rfl

/-- Settles O37: the store faults after the three frames. -/
theorem analogReadOutsideTheCacheFaults : Obligations.AnalogReadOutsideTheCacheFaults := by
  constructor
  · intro sel s sh hs n bytes w q hch
    rw [← zeroExtend_byte]
    refine (hostCommand_analogRead_out rfl sel hs q hch).trans (congrArg _ ?_)
    rw [afterConversion_enter]
    rfl
  · intro pos neg s sh hs
    rw [← muxPack_eq_ofNat]
    intro sel n bytes w q hch
    rw [← zeroExtend_byte]
    refine (hostCommand_analogRead_out rfl (muxPack pos neg) hs q hch).trans (congrArg _ ?_)
    rw [afterConversion_enter]
    rfl

/-! ### BEGIN -/

/-- BEGIN from the end `t` of its mode branch on: the session is closed, and the result is true (R102). -/
theorem exec_begin {s t : State} (hs : s.Idle) (q : s.Quiet 7)
    (hbranch : (if s.hasIrq then beginInterrupt else beginPolled) (s.enter (.fg .begin)).afterClock = .ok () t) :
    exec .begin s = .next ((t.setSession false).leave (some { ok := some true, status := t.status })) := by
  refine hostCommand_ok .begin beginOp s _ _ hs ((beginOp_prefix (s.enter (.fg .begin)) rfl q).trans ?_)
  rw [State.enter_hasIrq]
  cases hirq : s.hasIrq with
  | true =>
    rw [hirq] at hbranch
    exact op_bind_ok hbranch
  | false =>
    rw [hirq] at hbranch
    exact op_bind_ok hbranch

theorem afterClock_seqStep_ne_zero (s : State) (h : s.seqStep = 0) : s.afterClock.seqStep ≠ 0 := by
  rw [afterClock_seqStep s h]
  decide

theorem afterClock_reference (s : State) : s.afterClock.reference = s.reference := by
  simp [State.afterClock, State.afterWriteReg, State.afterLoad, State.afterFast]

/-- `sgn_data` always consumes a sign bit (R183). -/
theorem signConsumes_sgnData (p : Params) : p.signConsumes 0#2 = true := rfl

theorem signConsumes_idSgnextData (p : Params) : p.signConsumes 3#2 = p.signConsuming.idSgnextData := rfl

/-- The mode branch is quiet where all of BEGIN is: seven boundaries lie before it. -/
theorem quiet_afterClock {s : State} {n : Nat} (b : Busy) (q : s.Quiet (7 + n)) : (s.enter b).afterClock.Quiet n :=
  quiet_drop q (afterClock_irqPlan (s.enter b) rfl)

/-- Settles O38: the polled branch that selects the internal reference. -/
theorem beginPolledSelectsInternalReference : Obligations.BeginPolledSelectsInternalReference := by
  intro s hi hirq href q p clk ref fmt
  have hbranch := beginPolled_zero (s.enter (.fg .begin)).afterClock (clockShadow s.params) rfl rfl
    (afterClock_seqStep_ne_zero _ rfl) ((afterClock_reference _).trans href) (quiet_afterClock _ q)
  refine (exec_begin hi (q.mono (by decide)) (by rw [hirq]; exact hbranch)).trans (congrArg _ ?_)
  simp [State.leave, State.afterPolledZero, State.afterFormat, State.afterClock, State.afterLoad, State.afterFast,
    State.afterWriteReg, formatShadow, clockShadow, defaultShadow, Shadow.setVrefSel, Shadow.setFmtBits,
    Shadow.setClkSel, State.frameBoundaries, Params.fastByte, newResolution_recognized, signConsumes_sgnData, hi.2, p, clk, ref, fmt]

/-- Settles O39: the polled branch that keeps the reference. -/
theorem beginPolledKeepsHeldReference : Obligations.BeginPolledKeepsHeldReference := by
  intro s hi hirq href q p clk fmt
  have hbranch := beginPolled_held (s.enter (.fg .begin)).afterClock (clockShadow s.params) rfl rfl
    (afterClock_seqStep_ne_zero _ rfl) (by rw [afterClock_reference]; exact href) (quiet_afterClock _ q)
  refine (exec_begin hi (q.mono (by decide)) (by rw [hirq]; exact hbranch)).trans (congrArg _ ?_)
  simp [State.leave, State.afterPolledHeld, State.afterFormat, State.afterClock, State.afterLoad, State.afterFast,
    State.afterWriteReg, formatShadow, clockShadow, defaultShadow, Shadow.setFmtBits, Shadow.setClkSel,
    State.frameBoundaries, Params.fastByte, newResolution_recognized, signConsumes_sgnData, hi.2, p, clk, fmt]

/-- Settles O40: the interrupt branch. -/
theorem beginInterruptStartsConversion : Obligations.BeginInterruptStartsConversion := by
  intro s hi hirq q p clk fmt cont
  have hbranch := beginInterrupt_quiet (s.enter (.fg .begin)).afterClock (clockShadow s.params) rfl rfl
    (afterClock_seqStep_ne_zero _ rfl) (quiet_afterClock _ q)
  refine (exec_begin hi (q.mono (by decide)) (by rw [hirq]; exact hbranch)).trans (congrArg _ ?_)
  simp [State.leave, State.afterInterruptBranch, State.afterFormat, State.afterClock, State.afterLoad, State.afterFast,
    State.afterWriteReg, formatShadow, clockShadow, defaultShadow, Shadow.setConvMode, Shadow.setFmtBits,
    Shadow.setClkSel, State.frameBoundaries, Params.fastByte, newResolution_recognized, signConsumes_idSgnextData, hi.2,
    p, clk, fmt, cont]

/-! ### Frames by themselves -/

/-- Settles O48: each frame is one undisturbed transaction. -/
theorem framesRunAsOneTransaction : Obligations.FramesRunAsOneTransaction := by
  intro s hi
  refine ⟨fun a n q => ?_, fun a x q => ?_, fun f q => ?_⟩
  · have hrun := op_bind_ok (f := fun _ => pure ()) (frameRreg_quiet a n (s.enter (.fg (.frameRreg a n))) q)
    refine (wireFrame_ok _ _ s _ _ hi hrun).trans (congrArg _ ?_)
    simp [State.leave, State.frameBoundaries, hi.2]
  · refine (wireFrame_ok _ _ s _ _ hi (frameWreg_quiet a x (s.enter (.fg (.frameWreg a x))) q)).trans (congrArg _ ?_)
    simp [State.leave, State.frameBoundaries, hi.2]
  · refine (wireFrame_ok _ _ s _ _ hi (frameFast_quiet f (s.enter (.fg (.frameFast f))) q)).trans (congrArg _ ?_)
    simp [State.leave, State.afterFast, State.frameBoundaries, State.frameAt, hi.2]

end Sys2Proof.Machine
end

section
/-! The step and its entry checks (60_exceptions R261 to R263), the instantiation (10_state R45, 00_scope R6), and the
host-side commands that look a value up or fault (46_modes_queries R232 to R242). -/

namespace Sys2Proof.Machine

/-! ### The step -/

/-- Settles O6: the third case of the step. -/
theorem stepRunsTheDecoded : Obligations.StepRunsTheDecoded := by
  intro s inp rest i hf hp hd
  change step s = exec i (s.take rest)
  simp only [step, hf, hp, hd]

/-- Settles O7: a command word that decodes to Illegal is rejected. -/
theorem illegalWordFaults : Obligations.IllegalWordFaults := by
  intro s w rest why hf hp hd
  have hd' : s.decodeInput (.command w) = .illegal why := hd
  simp only [step, hf, hp, hd']
  rfl

/-- Settles O8: nothing is presented. -/
theorem blockWaitsForAWord : Obligations.BlockWaitsForAWord := by
  intro s hf hp
  simp only [step, hf, hp]

/-- The entry check of every instruction (R263 step 1). -/
theorem exec_faulted (i : Instr) {s : State} {f : FaultRecord} (h : s.fault = some f) :
    exec i s = .fault (.faulted f.code f.word) := by
  cases i with
  | isrHandler => exact isrCommand_faulted _ s f h
  | frameRreg _ _ | frameWreg _ _ | frameFast _ => exact wireFrame_faulted _ _ s f h
  | _ => exact hostCommand_faulted _ _ s f h

/-- Settles O9: the entry checks of the step and of every instruction. -/
theorem faultedBlockTakesNoStep : Obligations.FaultedBlockTakesNoStep := by
  intro s f h
  exact ⟨by simp only [step, h], fun i => exec_faulted i h⟩

/-- Settles O50: the entry check of ISR_HANDLER (R263 step 2). -/
theorem isrWhileBusyFaults : Obligations.IsrWhileBusyFaults := by
  intro s hf hb
  change isrCommand isrOp s = _
  simp only [isrCommand, hf, if_neg hb]
  rfl

/-! ### Instantiation -/

/-- Settles O10: `State.instantiate` field by field. -/
theorem instantiationValues : Obligations.InstantiationValues := by
  intro p v irq s
  have hmask : (BitVec.ofNat 8 (2 ^ v.channelsMax - 1)).toNat = 2 ^ v.channelsMax - 1 := by
    cases v <;> decide
  exact ⟨rfl, rfl, rfl, rfl, rfl, hmask, rfl, rfl, rfl, rfl, rfl, List.length_replicate,
    fun x hx => List.eq_of_mem_replicate hx, rfl, rfl, rfl, rfl, rfl, rfl, rfl, rfl⟩

theorem variantOfIndex_eq_none_iff (n : Nat) : Variant.ofIndex n = none ↔ 6 ≤ n := by
  match n with
  | 0 | 1 | 2 | 3 | 4 | 5 => decide
  | n + 6 => simp [Variant.ofIndex]

/-- Settles O11: the indices 0 to 5 are the rows of R6. -/
theorem variantTable : Obligations.VariantTable := by
  refine ⟨fun p n irq => ?_, by decide⟩
  rw [State.instantiateIndex, Option.map_eq_none_iff, variantOfIndex_eq_none_iff]

/-! ### Host-side commands -/

/-- Settles O42: both toggles write the two flags. -/
theorem startTogglesWriteBothFlags : Obligations.StartTogglesWriteBothFlags := by
  intro s hs
  constructor
  · exact hostCommand_toggle .startContinuousDifferential hs
      (f := fun s => (s.setContinuous true).setDifferential true) rfl rfl
  · exact hostCommand_toggle .startSingleDifferential hs
      (f := fun s => (s.setContinuous false).setDifferential true) rfl rfl

/-- The comparison of R234 is of signed numbers. -/
theorem belowMax_iff (b max : BitVec 8) : belowMax b max = true ↔ b.toInt < max.toInt :=
  BitVec.slt_iff_toInt_lt

theorem setResolutionOp_apply (b : BitVec 8) (s : State) :
    setResolutionOp b s = .ok { } (if b.toInt < s.resolutionMax.toInt then s.setResolution b else s) := by
  by_cases h : b.toInt < s.resolutionMax.toInt
  · simp only [setResolutionOp, op_bind, look_apply, if_pos ((belowMax_iff _ _).mpr h), update_apply, op_pure, if_pos h]
  · simp only [setResolutionOp, op_bind, look_apply, if_neg (mt (belowMax_iff _ _).mp h), op_pure, if_neg h]

/-- Settles O43: the one update of SET_RESOLUTION is under the comparison of R234. -/
theorem setResolutionBelowTheMaximum : Obligations.SetResolutionBelowTheMaximum := by
  intro b s hs
  refine (hostCommand_ok _ _ s _ _ hs (setResolutionOp_apply b _)).trans (congrArg _ ?_)
  by_cases h : b.toInt < s.resolutionMax.toInt
  · simp [State.leave, h, hs.2]
  · simp [State.leave, h, hs.2]

/-- An operation of an idle block that ends where it began leaves its response behind. -/
theorem hostCommand_answer {i : Instr} {body : Op Response} {s : State} {r : Response} (hs : s.Idle)
    (h : body (s.enter (.fg i)) = .ok r (s.enter (.fg i))) :
    hostCommand i body s = .next { s with seqStep := 0, responses := s.responses ++ [r] } := by
  rw [hostCommand_ok i body s _ r hs h, State.leave_enter hs.2]

theorem isCompleteOp_some {s : State} {st : Byte} (h : s.status = some st) :
    isCompleteOp s = .ok { flag := some (dataReady s.params st) } s := by
  simp only [isCompleteOp, op_bind, look_apply, h, op_pure]

theorem isCompleteOp_none {s : State} (h : s.status = none) :
    isCompleteOp s = .error () (s.raise .unwrittenStatus s.busy.word) := by
  simp only [isCompleteOp, op_bind, look_apply, h, raise_apply]

/-- Settles O44: by whether a status byte is held. -/
theorem isCompleteReturnsTheRawBit : Obligations.IsCompleteReturnsTheRawBit := by
  intro s hs
  exact ⟨fun st h => hostCommand_answer hs (isCompleteOp_some (s := s.enter _) h),
    fun h => hostCommand_raise hs rfl (isCompleteOp_none (s := s.enter _) h)⟩

theorem negative_iff (r : BitVec 8) : negative r = true ↔ r.toInt < 0 := by
  rw [negative, BitVec.msb_eq_toInt, decide_eq_true_eq]

theorem getMaxValueOp_negative {s : State} (h : s.resolution.toInt < 0) :
    getMaxValueOp s = .error () (s.raise .negativeResolution s.busy.word) := by
  simp only [getMaxValueOp, op_bind, look_apply, if_pos ((negative_iff _).mpr h), raise_apply]

theorem getMaxValueOp_nonneg {s : State} (h : 0 ≤ s.resolution.toInt) :
    getMaxValueOp s = .ok { max := some (maxValue s.resolution) } s := by
  simp only [getMaxValueOp, op_bind, look_apply, if_neg (mt (negative_iff _).mp (not_lt.mpr h)), op_pure]

theorem toNat_maxValue {r : BitVec 8} {n : Nat} (hn : n ≤ 31) (h : r.toInt = n) : (maxValue r).toNat = 2 ^ n := by
  have hr : r.toNat = n := by
    have := r.isLt
    rw [BitVec.toInt_eq_toNat_cond] at h
    split at h <;> omega
  rw [maxValue, hr, if_pos (by omega), BitVec.toNat_ofNat]
  exact Nat.mod_eq_of_lt (Nat.pow_lt_pow_right (by decide) (by omega))

/-- Settles O45: by the sign of the resolution. -/
theorem getMaxValueIsAPowerOfTwo : Obligations.GetMaxValueIsAPowerOfTwo := by
  intro s hs
  refine ⟨fun n hn h => ⟨maxValue s.resolution, toNat_maxValue hn h, ?_⟩, fun h => ?_⟩
  · exact hostCommand_answer hs (getMaxValueOp_nonneg (s := s.enter _) (h ▸ Int.natCast_nonneg n))
  · exact hostCommand_raise hs rfl (getMaxValueOp_negative (s := s.enter _) h)

/-- Settles O47: by what the cache holds at the channel id. -/
theorem readCacheReturnsTheLastStored : Obligations.ReadCacheReturnsTheLastStored := by
  intro i s hs
  have hget {x : Option Word32} (h : s.cache[i.toNat]? = some x) : s.cache.getD i.toNat none = x := by
    rw [List.getD_eq_getElem?_getD, h, Option.getD_some]
  rw [← zeroExtend_byte]
  refine ⟨fun x hi hx => ?_, fun hi hx => ?_, fun hi => ?_⟩
  · exact hostCommand_answer hs (op_bind_ok (cacheRead_some i x (s.enter _) hi (hget hx)))
  · exact hostCommand_raise hs rfl (op_bind_error (cacheRead_none i (s.enter _) hi (hget hx)))
  · exact hostCommand_raise hs rfl (op_bind_error (cacheRead_out i (s.enter _) hi))

/-! ### Before the first BEGIN -/

/-- An operation that begins with the check of R31 stops there before the first BEGIN. -/
theorem requireBegun_bind {α : Type} {s : State} (h : s.begun = false) (f : Unit → Op α) :
    (requireBegun >>= f) s = .error () (s.raise .notBegun s.busy.word) :=
  op_bind_error (requireBegun_false s h)

theorem setter_notBegun {s : State} (h : s.begun = false) (write : Layout → Shadow → Shadow) (r : Reg) :
    setter write r s = .error () (s.raise .notBegun s.busy.word) := requireBegun_bind h _

theorem setReferenceOp_notBegun {s : State} (h : s.begun = false) :
    setReferenceOp 0#32 s = .error () (s.raise .notBegun s.busy.word) := by
  rw [setReferenceOp, if_pos rfl, requireBegun_bind h]

/-- ISR_HANDLER before the first BEGIN. -/
theorem isrCommand_notBegun {s : State} (hs : s.Idle) (h : s.begun = false) :
    isrCommand isrOp s = .next { s with busy := .isr, seqStep := 0, fault := some ⟨.notBegun, isrWord⟩ } :=
  isrCommand_error isrOp s _ _ hs (requireBegun_bind (s := s.enter .isr) h _)

/-- Settles O49: every operation that needs a BEGIN checks for it first. -/
theorem notBegunBeforeBegin : Obligations.NotBegunBeforeBegin := by
  intro i s w hs hb hi hw
  have hb' : (s.enter (.fg i)).begun = false := hb
  cases i with
  | isrHandler =>
    obtain rfl := Option.some.inj hw
    exact isrCommand_notBegun hs hb
  | setConvMode _ | setAdcMode _ | setClockSelection _ | lock _ =>
    exact hostCommand_raise hs hw (setter_notBegun hb' _ _)
  | unlock => exact hostCommand_raise hs hw ((op_bind_ok (look_apply _ _)).trans (setter_notBegun hb' _ _))
  | setReference r =>
    obtain rfl : r = 0#32 := of_decide_eq_true hi
    exact hostCommand_raise hs hw (setReferenceOp_notBegun hb')
  | read | setDataFormat _ | setScanChannel _ | unsetScanChannel _ | analogRead _ | analogReadDiff _ _ =>
    exact hostCommand_raise hs hw (requireBegun_bind hb' _)
  | begin | singleEndedMode | differentialMode | startContinuousDifferential | startSingleDifferential | setResolution _
  | isComplete | getMaxValue | isDifferential | isContinuous | getReference | readCache _ | frameRreg _ _
  | frameWreg _ _ | frameFast _ => cases hi

end Sys2Proof.Machine
end

section
/-! What any instruction may do: which of them write the cache and the host-side flags (10_state R35 to R37), which send
nothing (46_modes_queries), and what every other one adds to the bus trace (30_encoding R87 to R89, 20_memory R68). -/

namespace Sys2Proof.Machine

/-! ### Frame conditions -/

abbrev SameCache (s t : State) : Prop := t.cache = s.cache

theorem execSteps_sameCache : ExecSteps SameCache where
  refl _ := rfl
  trans hst htu := htu.trans hst
  raise _ _ _ := rfl
  passBoundary _ := rfl
  addEvent _ _ := rfl
  drewByte _ := rfl
  setSession _ _ := rfl
  setCs _ _ := rfl
  setStatus _ _ := rfl
  setPayload _ _ := rfl
  setSample _ _ := rfl
  enter _ _ := rfl
  leave _ _ := rfl
  setShadow _ _ := rfl
  setReference _ _ := rfl
  setResolution _ _ := rfl
  drewFmtBits _ := rfl
  setBegun _ := rfl

/-- Settles O55: no update but the cache store writes the cache. -/
theorem onlyReadersWriteTheCache : Obligations.OnlyReadersWriteTheCache := by
  intro i s t hx hisr hread hdiff
  have hstore : i.storesSample ≠ true := by
    cases i with
    | isrHandler => exact absurd rfl hisr
    | analogRead sel => exact absurd rfl (hread sel)
    | analogReadDiff pos neg => exact absurd rfl (hdiff pos neg)
    | _ => exact Bool.false_ne_true
  exact exec_keeps execSteps_sameCache i (fun h => absurd h hstore) (fun _ _ _ => rfl) (fun _ _ _ => rfl) hx

abbrev SameFlags (s t : State) : Prop := t.differential = s.differential ∧ t.continuous = s.continuous

theorem SameFlags.refl (s : State) : SameFlags s s := ⟨rfl, rfl⟩

theorem execSteps_sameFlags : ExecSteps SameFlags where
  refl := .refl
  trans hst htu := ⟨htu.1.trans hst.1, htu.2.trans hst.2⟩
  raise s _ _ := .refl s
  passBoundary s := .refl s
  addEvent s _ := .refl s
  drewByte s := .refl s
  setSession s _ := .refl s
  setCs s _ := .refl s
  setStatus s _ := .refl s
  setPayload s _ := .refl s
  setSample s _ := .refl s
  enter s _ := .refl s
  leave s _ := .refl s
  setShadow s _ := .refl s
  setReference s _ := .refl s
  setResolution s _ := .refl s
  drewFmtBits s := .refl s
  setBegun s := .refl s

/-- Settles O56: no update but the flags' own writes a flag, and only toggles make those. -/
theorem onlyTogglesWriteTheFlags : Obligations.OnlyTogglesWriteTheFlags := by
  intro i s t hx hse hd hcd hsd
  have htoggle : i.isToggle ≠ true := by
    cases i with
    | singleEndedMode => exact absurd rfl hse
    | differentialMode => exact absurd rfl hd
    | startContinuousDifferential => exact absurd rfl hcd
    | startSingleDifferential => exact absurd rfl hsd
    | _ => exact Bool.false_ne_true
  exact exec_keeps execSteps_sameFlags i (fun _ s _ _ => .refl s) (fun h => absurd h htoggle)
    (fun h => absurd h htoggle) hx

/-- The bus, the agents' answers and choices, and what the block has captured or was told, put together. -/
def State.busSide (s : State) :=
  (s.bus, s.peer, s.drawn, s.irqPlan, s.shadow, s.status, s.sample, s.payload, s.cache, s.cs, s.session, s.begun,
    s.reference)

abbrev SameBusSide (s t : State) : Prop := t.busSide = s.busSide

theorem runSteps_sameBusSide : RunSteps SameBusSide SameBusSide SameBusSide where
  refl _ := rfl
  trans hst htu := htu.trans hst
  cross hst htu := htu.trans hst
  raise _ _ _ := rfl
  enter _ _ := rfl
  leave h _ := h
  fault h := h

/-- Settles O57: the host-side operations make no update of the bus side. -/
theorem hostSideOperationsSendNoFrame : Obligations.HostSideOperationsSendNoFrame := by
  intro i s t hi hx
  have h : SameBusSide s t :=
    exec_keeps_hostSide runSteps_sameBusSide i hi (fun _ _ => rfl) (fun _ _ _ => rfl) (fun _ _ _ => rfl) hx
  simpa only [SameBusSide, State.busSide, Prod.mk.injEq] using h

/-! ### What is added to the trace -/

/-- The parameters are admitted, and the scan image of the shadow has its width (R26). -/
def State.ImageFits (s : State) : Prop :=
  (∃ v, s.params.wf v = true) ∧ ∀ sh ∈ s.shadow, sh.imgScan.length = s.params.scanBytes

/-- The events `new` are added to the trace: frames with listed command bytes, the last of which gave the status byte
(R32, R87); and, where the images fit, whole frames of the listed widths (R68). -/
structure AddsFrames (s t : State) (new : List BusEvent) : Prop where
  bus : t.bus = s.bus ++ new
  listed : ∀ e ∈ commandExchanges new, e.1 ∈ s.params.usedCommands
  status : t.status = ((commandExchanges new).getLast?.map fun e => e.2).or s.status
  params : t.params = s.params
  widths : s.ImageFits → ∀ e ∈ wholeFrames new, e.2 ∈ s.params.frameWidths e.1

/-- Between two frames: what was added leaves no frame open, and the images still fit. -/
def BetweenFrames (s t : State) : Prop :=
  (∃ new, Released new ∧ AddsFrames s t new) ∧ (s.ImageFits → t.ImageFits)

/-- At a fault, inside a frame or between two. -/
def InsideFrame (s t : State) : Prop := ∃ new, AddsFrames s t new

/-- Two additions join where no frame is open between them. -/
theorem AddsFrames.append {s t u : State} {a b : List BusEvent} (hst : AddsFrames s t a) (ha : Released a)
    (hf : s.ImageFits → t.ImageFits) (htu : AddsFrames t u b) : AddsFrames s u (a ++ b) where
  bus := by rw [htu.bus, hst.bus, List.append_assoc]
  listed := by
    rw [commandExchanges_append a b ha.not_endsLow]
    intro e he
    obtain he | he := List.mem_append.mp he
    · exact hst.listed e he
    · exact hst.params ▸ htu.listed e he
  status := by
    rw [commandExchanges_append a b ha.not_endsLow, List.getLast?_append, Option.map_or, Option.or_assoc, htu.status,
      hst.status]
  params := htu.params.trans hst.params
  widths hs := by
    rw [wholeFrames_append a b ha]
    intro e he
    obtain he | he := List.mem_append.mp he
    · exact hst.widths hs e he
    · exact hst.params ▸ htu.widths (hf hs) e he

/-- An update that writes neither the trace nor the status byte nor the parameters adds nothing. -/
theorem AddsFrames.of_sameTrace {s t : State} (hb : t.bus = s.bus) (hs : t.status = s.status)
    (hp : t.params = s.params) : AddsFrames s t [] where
  bus := by rw [hb, List.append_nil]
  listed _ h := by cases h
  status := hs
  params := hp
  widths _ _ h := by cases h

theorem BetweenFrames.of_sameTrace {s t : State} (h : SameTrace s t) : BetweenFrames s t := by
  obtain ⟨hb, hs, hp, hsh⟩ := h
  refine ⟨⟨[], .inl rfl, .of_sameTrace hb hs hp⟩, fun hf => ?_⟩
  rwa [State.ImageFits, hp, hsh]

theorem composes_addsFrames : Composes BetweenFrames InsideFrame where
  refl s := .of_sameTrace ⟨rfl, rfl, rfl, rfl⟩
  trans := by
    rintro s t u ⟨⟨a, ha, hst⟩, hf⟩ ⟨⟨b, hb, htu⟩, hf'⟩
    exact ⟨⟨a ++ b, ha.append hb, hst.append ha hf htu⟩, hf' ∘ hf⟩
  cross := by
    rintro s t u ⟨⟨a, ha, hst⟩, hf⟩ ⟨b, htu⟩
    exact ⟨a ++ b, hst.append ha hf htu⟩
  raise s _ _ := ⟨[], .of_sameTrace rfl rfl rfl⟩

/-- An operation goes on from where its first part left it. -/
theorem leaves_bind {K E : State → State → Prop} {α β : Type} (h : Composes K E) {x : Op α} {f : α → Op β} {s : State}
    (hx : Leaves (K s) (E s) (x s)) (hf : ∀ a, Keeps K E (f a)) : Leaves (K s) (E s) ((x >>= f) s) := by
  rw [op_bind]
  cases hxs : x s with
  | error e t => rw [hxs] at hx; exact hx
  | ok a t =>
    rw [hxs] at hx
    exact (hf a t).mono (fun _ => h.trans hx) (fun _ => h.cross hx)

/-- One frame with a listed command byte and, where the images fit, the width that follows from it. -/
theorem leaves_frame {s : State} {cmd : Byte} {out : List Byte} (hc : cmd ∈ s.params.usedCommands)
    (hw : s.ImageFits → out.length ∈ s.params.frameWidths cmd) :
    Leaves (BetweenFrames s) (InsideFrame s) (frame cmd out s) := by
  refine (frame_trace cmd out s).mono ?_ ?_
  · rintro t ⟨r, pay, hpay, hlen, hb, hs, hp, hsh⟩
    refine ⟨⟨_, frameEvents_released cmd r pay, hb, ?_, ?_, hp, fun hf => ?_⟩, fun hf => ?_⟩
    · rw [frameEvents_command cmd r pay hpay]
      simpa using hc
    · rw [frameEvents_command cmd r pay hpay, hs]
      rfl
    · rw [frameEvents_whole cmd r pay hpay, hlen]
      simpa using hw hf
    · rwa [State.ImageFits, hp, hsh]
  · rintro t ⟨new, hbroken, hb, hp, -⟩
    refine ⟨new, hb, ?_, ?_, hp, fun _ => ?_⟩
    · obtain ⟨hnone, -⟩ | ⟨r, hone, -⟩ := hbroken.command
      · simp [hnone]
      · simpa [hone] using hc
    · obtain ⟨hnone, hs⟩ | ⟨r, hone, hs⟩ := hbroken.command
      · rw [hnone, hs]
        rfl
      · rw [hone, hs]
        rfl
    · simp [hbroken.whole]

/-- The commands of R87's table of uses. -/
theorem mem_usedCommands_read (p : Params) : p.cmdByte .read p.addr.adcdata ∈ p.usedCommands := List.mem_cons_self

theorem mem_usedCommands_write (p : Params) {r : Reg} (hr : r ≠ .adcdata) :
    p.cmdByte .write (p.addrOf r) ∈ p.usedCommands := by
  cases r with
  | adcdata => exact absurd rfl hr
  | _ => simp [Params.usedCommands]

theorem mem_usedCommands_fast (p : Params) (f : FastCmd) : p.fastByte f ∈ p.usedCommands := by
  cases f <;> simp [Params.usedCommands, Params.fastByte]

theorem keeps_update_sameTrace {f : State → State} (hf : ∀ s, SameTrace s (f s)) :
    Keeps BetweenFrames InsideFrame (update f) := keeps_update fun s => .of_sameTrace (hf s)

theorem leaves_frameRreg {s : State} {n : Nat} (hn : n = 3 ∨ n = 4) :
    Leaves (BetweenFrames s) (InsideFrame s) (frameRreg s.params.addr.adcdata n s) := by
  have c := composes_addsFrames
  rw [frameRreg, op_bind_ok (look_apply _ s)]
  refine leaves_bind c (leaves_frame (mem_usedCommands_read _) fun _ => ?_) fun _ =>
    keeps_bind c (keeps_update_sameTrace fun _ => ⟨rfl, rfl, rfl, rfl⟩) fun _ => keeps_pure c _
  rw [frameWidths_read, List.length_replicate]
  simpa using hn

theorem leaves_frameWreg {s : State} {r : Reg} (hr : r ≠ .adcdata) {x : List Byte}
    (hx : s.ImageFits → x.length = s.params.writeBytes r) :
    Leaves (BetweenFrames s) (InsideFrame s) (frameWreg (s.params.addrOf r) x s) := by
  have c := composes_addsFrames
  rw [frameWreg, op_bind_ok (look_apply _ s)]
  refine leaves_bind c (leaves_frame (mem_usedCommands_write _ hr) fun hf => ?_) fun _ => keeps_pure c _
  obtain ⟨v, hv⟩ := hf.1
  rw [frameWidths_write hv hr, hx hf]
  exact List.mem_cons_self

theorem keeps_frameFast_listed (f : FastCmd) : Keeps BetweenFrames InsideFrame (frameFast f) := by
  intro s
  have c := composes_addsFrames
  rw [frameFast, op_bind_ok (look_apply _ s)]
  refine leaves_bind c (leaves_frame (mem_usedCommands_fast _ f) fun hf => ?_) fun _ => keeps_pure c _
  obtain ⟨v, hv⟩ := hf.1
  rw [frameWidths_fast hv f]
  exact List.mem_cons_self

/-- The image of a register has the register's width (R68). -/
theorem length_image {s : State} {sh : Shadow} (h : s.shadow = some sh) (hf : s.ImageFits) {r : Reg}
    (hr : r ≠ .adcdata) : (sh.image r).length = s.params.writeBytes r := by
  cases r with
  | adcdata => exact absurd rfl hr
  | scan => exact hf.2 sh h
  | _ => rfl

theorem keeps_writeReg_listed {r : Reg} (hr : r ≠ .adcdata) : Keeps BetweenFrames InsideFrame (writeReg r) := by
  intro s
  cases h : s.shadow with
  | none =>
    rw [writeReg, op_bind_error (readShadow_none s h)]
    exact composes_addsFrames.raise s _ _
  | some sh =>
    rw [writeReg, op_bind_ok (readShadow_some s sh h), op_bind_ok (look_apply _ s)]
    exact leaves_frameWreg hr fun hf => length_image h hf hr

theorem keeps_readSample_listed : Keeps BetweenFrames InsideFrame readSample := by
  intro s
  have c := composes_addsFrames
  cases h : s.shadow with
  | none =>
    rw [readSample, op_bind_error (readShadow_none s h)]
    exact c.raise s _ _
  | some sh =>
    rw [readSample, op_bind_ok (readShadow_some s sh h), op_bind_ok (look_apply _ s)]
    exact leaves_bind c (leaves_frameRreg (sampleWidth_eq _)) fun _ =>
      keeps_bind c (keeps_update_sameTrace fun _ => ⟨rfl, rfl, rfl, rfl⟩) fun _ =>
      keeps_bind c (keeps_look c _) fun _ => keeps_pure c _

/-- A release of chip-select outside a frame, as at the start of BEGIN (R100). -/
theorem keeps_driveHigh_listed : Keeps BetweenFrames InsideFrame (driveCs .high) := by
  intro s
  refine (driveCs_trace .high s).mono ?_ ?_
  · rintro t ⟨hb, hs, hp, hsh⟩
    refine ⟨⟨_, .inr rfl, hb, by simp [commandExchanges], hs, hp, by simp [wholeFrames]⟩, fun hf => ?_⟩
    rwa [State.ImageFits, hp, hsh]
  · rintro t ⟨hb, hs, hp, -⟩
    exact ⟨[], hb, by simp [commandExchanges], hs, hp, by simp [wholeFrames]⟩

/-- A write of the shadow that keeps the scan image's width. -/
theorem BetweenFrames.setShadow {s : State} {sh : Shadow}
    (h : s.ImageFits → sh.imgScan.length = s.params.scanBytes) : BetweenFrames s (s.setShadow sh) := by
  refine ⟨⟨[], .inl rfl, .of_sameTrace rfl rfl rfl⟩, fun hf => ⟨hf.1, ?_⟩⟩
  rintro sh' hsh'
  obtain rfl := Option.some.inj hsh'
  exact h hf

theorem keeps_writeShadow_listed {f : Shadow → Shadow} (hf : ∀ sh, (f sh).imgScan.length = sh.imgScan.length) :
    Keeps BetweenFrames InsideFrame (writeShadow f) := by
  intro s
  cases h : s.shadow with
  | none =>
    rw [writeShadow, op_bind_error (readShadow_none s h)]
    exact composes_addsFrames.raise s _ _
  | some sh =>
    rw [writeShadow_some f s sh h]
    exact BetweenFrames.setShadow fun hfit => (hf sh).trans (hfit.2 sh h)

theorem opSteps_addsFrames : OpSteps BetweenFrames InsideFrame where
  toComposes := composes_addsFrames
  writeReg _ hr := keeps_writeReg_listed hr
  frameFast := keeps_frameFast_listed
  readSample := keeps_readSample_listed
  driveHigh := keeps_driveHigh_listed
  setCs _ := .of_sameTrace ⟨rfl, rfl, rfl, rfl⟩
  setSession _ _ := .of_sameTrace ⟨rfl, rfl, rfl, rfl⟩
  writeShadow _ hf := keeps_writeShadow_listed hf
  loadDefaults := keeps_update fun _ => .setShadow fun hf => (Params.wf_layout hf.1.choose_spec).2
  setReference _ _ := .of_sameTrace ⟨rfl, rfl, rfl, rfl⟩
  setResolution _ _ := .of_sameTrace ⟨rfl, rfl, rfl, rfl⟩
  drewFmtBits _ := .of_sameTrace ⟨rfl, rfl, rfl, rfl⟩
  setBegun _ := .of_sameTrace ⟨rfl, rfl, rfl, rfl⟩

theorem runSteps_addsFrames : RunSteps BetweenFrames InsideFrame InsideFrame where
  toComposes := composes_addsFrames
  enter _ _ := .of_sameTrace ⟨rfl, rfl, rfl, rfl⟩
  leave := by
    rintro s t ⟨⟨new, -, h⟩, -⟩ r
    exact ⟨new, h.bus, h.listed, h.status, h.params, h.widths⟩
  fault h := h

/-- What a well-formed instruction adds to the trace. -/
theorem exec_addsFrames {i : Instr} {s t : State} (hw : i.wf s.params = true) (hx : exec i s = .next t) :
    InsideFrame s t := by
  have c := composes_addsFrames
  cases i with
  | frameRreg a n =>
    obtain ⟨rfl, hn⟩ := Instr.wf_frameRreg.mp hw
    exact leaves_wireFrame runSteps_addsFrames _ _
      (leaves_bind c (leaves_frameRreg (s := s.enter _) hn) fun _ => keeps_pure c _) hx
  | frameWreg a x =>
    obtain ⟨r, hr, rfl, hlen⟩ := Instr.wf_frameWreg.mp hw
    have hne : r ≠ .adcdata := by
      rintro rfl
      simp [writtenRegs] at hr
    exact leaves_wireFrame runSteps_addsFrames _ _ (leaves_frameWreg (s := s.enter _) hne fun _ => hlen) hx
  | frameFast f => exact leaves_wireFrame runSteps_addsFrames _ _ (keeps_frameFast_listed f _) hx
  | _ =>
    exact exec_keeps_command opSteps_addsFrames runSteps_addsFrames _ rfl
      (fun _ _ _ _ => .of_sameTrace ⟨rfl, rfl, rfl, rfl⟩) (fun _ _ _ => .of_sameTrace ⟨rfl, rfl, rfl, rfl⟩)
      (fun _ _ _ => .of_sameTrace ⟨rfl, rfl, rfl, rfl⟩) hx

/-- Settles O58: the command bytes and the status byte of what is added. -/
theorem framesUseTheListedCommands : Obligations.FramesUseTheListedCommands := by
  intro i s t hw hx
  obtain ⟨new, h⟩ := exec_addsFrames hw hx
  exact ⟨new, h.bus, h.listed, h.status⟩

/-- Settles O59: what a step runs is well formed, and under the invariant the images fit. -/
theorem stepSendsOnlyListedFrames : Obligations.StepSendsOnlyListedFrames := by
  intro s t ⟨⟨hwf, _⟩, ⟨_, _, hsh⟩, _⟩ hx
  have hfit : s.ImageFits := ⟨⟨s.v, hwf⟩, fun sh h => (hsh sh h).1⟩
  obtain ⟨-, ⟨-, rfl⟩ | ⟨inp, rest, i, -, hd, hrun⟩ | ⟨w, rest, why, -, -, rfl⟩⟩ := step_cases hx
  · exact ⟨[], (List.append_nil _).symm, by simp [wholeFrames]⟩
  · obtain ⟨new, h⟩ := exec_addsFrames (s := s.take rest) (decode_eq_ok hd).1 hrun
    exact ⟨new, h.bus, h.widths hfit⟩
  · exact ⟨[], (List.append_nil _).symm, by simp [wholeFrames]⟩

end Sys2Proof.Machine
end

section
/-! The state invariant (10_state R22 to R41) is kept by every step. Inside an operation it is weakened in three ways:
a frame has its session open and chip-select asserted; SET_DATA_FORMAT writes the code before fmt_bits; and BEGIN loads
the shadow before it sets S.begun. At every line that can fault, all but the idle part of it holds. -/

namespace Sys2Proof.Machine

/-! ### The invariant inside an operation -/

/-- The invariant but for its idle part, under the parameters `p`, with `J` in place of what it says of the shadow. -/
structure State.Holds (p : Params) (J : Shadow → Prop) (s : State) : Prop where
  params : s.params = p
  fixed : s.InvInstance
  begun : s.begun = s.shadow.isSome
  status : s.begun = true → s.status.isSome = true
  shadow : ∀ sh ∈ s.shadow, J sh
  data : s.InvData

/-- Between two frames of an operation: no fault, chip-select not asserted, and the session flag is `b`. -/
structure State.AtRest (p : Params) (b : Bool) (J : Shadow → Prop) (s : State) : Prop extends s.Holds p J where
  session : s.session = b
  released : s.cs ≠ .driven .low
  noFault : s.fault = none

/-- Inside a frame; with `c`, after the status byte was captured. -/
structure State.InFrame (p : Params) (c : Bool) (s : State) : Prop extends s.Holds p (Shadow.Inv p) where
  noFault : s.fault = none
  captured : c = true → s.status.isSome = true

/-- Where a fault stopped the operation. -/
structure State.Stopped (p : Params) (s : State) : Prop extends s.Holds p (Shadow.Inv p) where
  faulted : s.fault ≠ none

/-- The fields that `State.Holds` speaks of. -/
def State.held (s : State) :=
  (s.params, s.v, s.resolutionMax, s.channelsMax, s.chanValidMask, s.begun, s.status, s.shadow, s.cache, s.resolution)

/-- An update of other fields keeps `State.Holds`. -/
theorem State.Holds.of_held_eq {p : Params} {J : Shadow → Prop} {s t : State} (h : s.Holds p J) (e : t.held = s.held) :
    t.Holds p J := by
  simp only [State.held, Prod.mk.injEq] at e
  obtain ⟨hp, hv, hmax, hchan, hmask, hbegun, hstatus, hshadow, hcache, hres⟩ := e
  exact
    { params := hp.trans h.params
      fixed := by simpa only [State.InvInstance, hp, hv, hmax, hchan, hmask] using h.fixed
      begun := by simpa only [hbegun, hshadow] using h.begun
      status := by simpa only [hbegun, hstatus] using h.status
      shadow := by simpa only [hshadow] using h.shadow
      data := by simpa only [State.InvData, hp, hmax, hcache, hres] using h.data }

/-! ### Assertions about operations -/

/-- From `P` the operation ends in `Q`, or faults in `E`. -/
def Meets {α : Type} (P Q E : State → Prop) (x : Op α) : Prop := ∀ s, P s → Leaves Q E (x s)

section
variable {P Q R E : State → Prop} {α β : Type}

theorem meets_pure (a : α) : Meets P P E (pure a : Op α) := fun _ h => h

theorem meets_look (f : State → α) : Meets P P E (look f) := fun _ h => h

theorem meets_update {f : State → State} (hf : ∀ s, P s → Q (f s)) : Meets P Q E (update f) := hf

theorem meets_bind {x : Op α} {f : α → Op β} (hx : Meets P Q E x) (hf : ∀ a, Meets Q R E (f a)) :
    Meets P R E (x >>= f) := by
  intro s h
  have hs := hx s h
  rw [op_bind]
  cases hxs : x s with
  | error e t => rw [hxs] at hs; exact hs
  | ok a t => rw [hxs] at hs; exact hf a t hs

theorem meets_ite {c : Prop} [Decidable c] {x y : Op α} (hx : Meets P Q E x) (hy : Meets P Q E y) :
    Meets P Q E (if c then x else y) := by
  split
  · exact hx
  · exact hy

theorem Meets.weaken {x : Op α} (hx : Meets P Q E x) (hq : ∀ s, Q s → R s) : Meets P R E x := fun s h =>
  (hx s h).mono hq fun _ he => he

/-- A field whose value the assertion knows is read with that value. -/
theorem meets_look_bind {f : State → α} {g : α → Op β} {a : α} (hf : ∀ s, P s → f s = a) (hg : Meets P Q E (g a)) :
    Meets P Q E (look f >>= g) := by
  intro s h
  rw [op_bind_ok (look_apply f s), hf s h]
  exact hg s h

/-- What an operation keeps, as an assertion about it. -/
theorem Keeps.meets {x : Op α} (hx : Keeps (fun s t => P s → P t) (fun s t => P s → E t) x) : Meets P P E x :=
  fun s h => (hx s).mono (fun _ hk => hk h) fun _ he => he h

theorem composes_meets (hraise : ∀ s c w, P s → E (s.raise c w)) :
    Composes (fun s t => P s → P t) (fun s t => P s → E t) where
  refl _ h := h
  trans hst htu h := htu (hst h)
  cross hst htu h := htu (hst h)
  raise := hraise
end

variable {p : Params} {b : Bool} {J : Shadow → Prop}

/-- An assertion that the events of the bus keep, and under which a fault leaves the invariant. -/
structure BusStable (p : Params) (A : State → Prop) : Prop where
  raise : ∀ s c w, A s → (s.raise c w).Stopped p
  passBoundary : ∀ s, A s → A s.passBoundary
  addEvent : ∀ s e, A s → A (s.addEvent e)
  drewByte : ∀ s, A s → A s.drewByte

theorem busStable_atRest : BusStable p (State.AtRest p b (Shadow.Inv p)) where
  raise _ _ _ h := ⟨h.toHolds.of_held_eq rfl, Option.some_ne_none _⟩
  passBoundary _ h := ⟨h.toHolds.of_held_eq rfl, h.session, h.released, h.noFault⟩
  addEvent _ _ h := ⟨h.toHolds.of_held_eq rfl, h.session, h.released, h.noFault⟩
  drewByte _ h := ⟨h.toHolds.of_held_eq rfl, h.session, h.released, h.noFault⟩

theorem busStable_inFrame {c : Bool} : BusStable p (State.InFrame p c) where
  raise _ _ _ h := ⟨h.toHolds.of_held_eq rfl, Option.some_ne_none _⟩
  passBoundary _ h := ⟨h.toHolds.of_held_eq rfl, h.noFault, h.captured⟩
  addEvent _ _ h := ⟨h.toHolds.of_held_eq rfl, h.noFault, h.captured⟩
  drewByte _ h := ⟨h.toHolds.of_held_eq rfl, h.noFault, h.captured⟩

/-! ### Frames -/

section
variable {A : State → Prop} (hA : BusStable p A)
include hA

theorem meets_boundary : Meets A A (State.Stopped p) boundary := by
  intro s h
  rw [boundary]
  split
  · exact h
  · split
    · exact hA.raise _ _ _ (hA.passBoundary s h)
    · exact hA.passBoundary s h

theorem meets_driveCs (l : Level) : Meets A A (State.Stopped p) (driveCs l) :=
  meets_bind (meets_boundary hA) fun _ => meets_update (hA.addEvent · _)

theorem meets_xfer (c : Byte) : Meets A A (State.Stopped p) (xfer c) :=
  meets_bind (meets_boundary hA) fun _ => meets_bind (fun s h => hA.drewByte s h) fun _ =>
  meets_bind (meets_update (hA.addEvent · _)) fun _ => meets_pure _

theorem meets_exchange (out : List Byte) : Meets A A (State.Stopped p) (exchange out) := by
  induction out with
  | nil => exact meets_pure _
  | cons c rest ih =>
    exact meets_bind (meets_xfer hA c) fun _ => meets_bind ih fun _ => meets_pure _

end

/-- A frame ends with the session as it was, chip-select released and a status byte captured (41_bus_frames R120). -/
theorem meets_frame (cmd : Byte) (out : List Byte) :
    Meets (State.AtRest p b (Shadow.Inv p)) (fun s => s.AtRest p b (Shadow.Inv p) ∧ s.status.isSome = true)
      (State.Stopped p) (frame cmd out) := by
  have hopen : Meets (State.AtRest p b (Shadow.Inv p)) (State.InFrame p false) (State.Stopped p)
      (update (·.setSession true)) :=
    meets_update fun s h => ⟨h.toHolds.of_held_eq rfl, h.noFault, fun h => absurd h Bool.false_ne_true⟩
  have hassert (c : Bool) (l : Level) : Meets (State.InFrame p c) (State.InFrame p c) (State.Stopped p)
      (update (·.setCs l)) :=
    meets_update fun s h => ⟨h.toHolds.of_held_eq rfl, h.noFault, h.captured⟩
  have hstatus (x : Byte) : Meets (State.InFrame p false) (State.InFrame p true) (State.Stopped p)
      (update (·.setStatus x)) :=
    meets_update fun s h =>
      ⟨⟨h.params, h.fixed, h.begun, fun _ => rfl, h.shadow, h.data⟩, h.noFault, fun _ => rfl⟩
  have hrelease : Meets (State.InFrame p true) (fun s => s.InFrame p true ∧ s.cs = .driven .high) (State.Stopped p)
      (update (·.setCs .high)) :=
    meets_update fun s h => ⟨⟨h.toHolds.of_held_eq rfl, h.noFault, h.captured⟩, rfl⟩
  have hclose : Meets (fun s => s.InFrame p true ∧ s.cs = .driven .high)
      (fun s => s.AtRest p b (Shadow.Inv p) ∧ s.status.isSome = true) (State.Stopped p)
      (update (·.setSession b)) := by
    refine meets_update fun s ⟨h, hcs⟩ => ⟨⟨h.toHolds.of_held_eq rfl, rfl, ?_, h.noFault⟩, h.captured rfl⟩
    rw [State.setSession_cs, hcs]
    decide
  exact meets_look_bind (fun _ h => h.session) <|
    meets_bind hopen fun _ => meets_bind (meets_driveCs busStable_inFrame _) fun _ =>
    meets_bind (hassert _ _) fun _ => meets_bind (meets_xfer busStable_inFrame _) fun _ =>
    meets_bind (hstatus _) fun _ => meets_bind (meets_exchange busStable_inFrame _) fun _ =>
    meets_bind (meets_driveCs busStable_inFrame _) fun _ => meets_bind hrelease fun _ =>
    meets_bind hclose fun _ => meets_pure _

/-- What every operation on the bus keeps between its frames. -/
abbrev KeepsInv (p : Params) (b : Bool) {α : Type} (x : Op α) : Prop :=
  Meets (State.AtRest p b (Shadow.Inv p)) (State.AtRest p b (Shadow.Inv p)) (State.Stopped p) x

theorem composes_inv (p : Params) (b : Bool) :
    Composes (fun s t : State => s.AtRest p b (Shadow.Inv p) → t.AtRest p b (Shadow.Inv p))
      (fun s t : State => s.AtRest p b (Shadow.Inv p) → t.Stopped p) :=
  composes_meets busStable_atRest.raise

theorem meets_frameFast (f : FastCmd) :
    Meets (State.AtRest p b (Shadow.Inv p)) (fun s => s.AtRest p b (Shadow.Inv p) ∧ s.status.isSome = true)
      (State.Stopped p) (frameFast f) :=
  meets_bind (meets_look _) fun _ => meets_bind (meets_frame _ _) fun _ => meets_pure _

theorem keepsInv_frame (cmd : Byte) (out : List Byte) : KeepsInv p b (frame cmd out) :=
  (meets_frame cmd out).weaken fun _ => And.left

theorem keepsInv_frameFast (f : FastCmd) : KeepsInv p b (frameFast f) := (meets_frameFast f).weaken fun _ => And.left

theorem keepsInv_frameWreg (a : Nat) (x : List Byte) : KeepsInv p b (frameWreg a x) :=
  meets_bind (meets_look _) fun _ => meets_bind (keepsInv_frame _ _) fun _ => meets_pure _

theorem keepsInv_frameRreg (a n : Nat) : KeepsInv p b (frameRreg a n) :=
  meets_bind (meets_look _) fun _ => meets_bind (keepsInv_frame _ _) fun _ =>
  meets_bind (meets_update fun _ h => ⟨h.toHolds.of_held_eq rfl, h.session, h.released, h.noFault⟩) fun _ =>
  meets_pure _

theorem keepsInv_requireBegun : KeepsInv p b requireBegun := (keeps_requireBegun (composes_inv p b)).meets

theorem keepsInv_writeReg (r : Reg) : KeepsInv p b (writeReg r) :=
  meets_bind (keeps_readShadow (composes_inv p b)).meets fun _ => meets_bind (meets_look _) fun _ =>
  keepsInv_frameWreg _ _

theorem keepsInv_readSample : KeepsInv p b readSample :=
  meets_bind (keeps_readShadow (composes_inv p b)).meets fun _ => meets_bind (meets_look _) fun _ =>
  meets_bind (keepsInv_frameRreg _ _) fun _ =>
  meets_bind (meets_update fun _ h => ⟨h.toHolds.of_held_eq rfl, h.session, h.released, h.noFault⟩) fun _ =>
  meets_bind (meets_look _) fun _ => meets_pure _

/-! ### Writes of the block's registers -/

/-- A write of the shadow takes what holds of it from `J` to `J'`; it can fault only while there is no shadow. -/
theorem meets_writeShadow {J' : Shadow → Prop} {f : Shadow → Shadow} (hf : ∀ sh, J sh → J' (f sh)) :
    Meets (State.AtRest p b J) (State.AtRest p b J') (State.Stopped p) (writeShadow f) := by
  intro s h
  cases hsh : s.shadow with
  | none =>
    rw [writeShadow, op_bind_error (readShadow_none s hsh)]
    refine ⟨⟨h.params, h.fixed, h.begun, h.status, fun sh hmem => ?_, h.data⟩, Option.some_ne_none _⟩
    rw [State.raise_shadow, hsh] at hmem
    cases hmem
  | some sh =>
    rw [writeShadow_some f s sh hsh]
    refine ⟨⟨h.params, h.fixed, ?_, h.status, ?_, h.data⟩, h.session, h.released, h.noFault⟩
    · rw [State.setShadow_begun, h.begun, hsh]
      rfl
    · rintro sh' hmem
      obtain rfl := Option.some.inj hmem
      exact hf sh (h.shadow sh hsh)

theorem keepsInv_cacheWrite (i : Byte) (x : Word32) : KeepsInv p b (cacheWrite i x) := by
  refine (keeps_cacheWrite (composes_inv p b) (fun s k y h => ?_) i x).meets
  refine ⟨⟨h.params, h.fixed, h.begun, h.status, h.shadow, ?_, h.data.2⟩, h.session, h.released, h.noFault⟩
  rw [State.setCache_cache, List.length_set]
  exact h.data.1

/-- A write of the resolution at most resolution_max. -/
theorem State.AtRest.setResolution {s : State} {x : BitVec 8} (h : s.AtRest p b J)
    (hx : x.toInt ≤ s.resolutionMax.toInt) : (s.setResolution x).AtRest p b J :=
  ⟨⟨h.params, h.fixed, h.begun, h.status, h.shadow, h.data.1, hx⟩, h.session, h.released, h.noFault⟩

/-- The effective resolution of a format is at most resolution_max (44_setters R183). -/
theorem newResolution_le (s : State) (f : Byte) (h : s.resolutionMax = s.v.resolutionMax) :
    (s.newResolution f).toInt ≤ s.resolutionMax.toInt := by
  obtain ⟨hbad, -, hgood⟩ := resolutionByFormat s f h
  have hpos : 0 ≤ s.v.resolutionMax.toInt := by cases s.v <;> decide
  by_cases hf : f.toNat ≤ 3
  · rw [hgood hf]
    split <;> omega
  · rw [hbad (by omega), h]
    omega

/-! ### Whole operations -/

theorem keepsInv_readOp : KeepsInv p b readOp :=
  meets_bind keepsInv_requireBegun fun _ => meets_bind keepsInv_readSample fun _ =>
  meets_bind (meets_look _) fun _ => meets_pure _

theorem keepsInv_isrOp : KeepsInv p b isrOp :=
  meets_bind keepsInv_requireBegun fun _ => meets_bind keepsInv_readSample fun _ =>
  meets_bind (keepsInv_cacheWrite _ _) fun _ => meets_pure _

theorem keepsInv_analogReadOp (sel : Byte) : KeepsInv p b (analogReadOp sel) :=
  meets_bind keepsInv_requireBegun fun _ => meets_bind (meets_writeShadow fun _ h => h) fun _ =>
  meets_bind (keepsInv_writeReg _) fun _ => meets_bind (keepsInv_frameFast _) fun _ =>
  meets_bind keepsInv_readSample fun _ => meets_bind (keepsInv_cacheWrite _ _) fun _ => meets_pure _

/-- The end of a setter: the image is sent, and the response carries the captured status. -/
theorem keepsInv_writeRegStatus (r : Reg) :
    KeepsInv p b (do
      writeReg r
      return { status := ← look (·.status) } : Op Response) :=
  meets_bind (keepsInv_writeReg r) fun _ => meets_bind (meets_look _) fun _ => meets_pure _

/-- A setter whose write keeps what the invariant says of the shadow. -/
theorem keepsInv_setter {write : Layout → Shadow → Shadow} (r : Reg)
    (hw : ∀ sh : Shadow, sh.Inv p → (write p.layout sh).Inv p) : KeepsInv p b (setter write r) :=
  meets_bind keepsInv_requireBegun fun _ => meets_look_bind (fun _ h => h.params) <|
  meets_bind (meets_writeShadow hw) fun _ => keepsInv_writeRegStatus r

theorem keepsInv_unlockOp : KeepsInv p b unlockOp :=
  meets_bind (meets_look _) fun _ => keepsInv_setter _ fun _ h => h

theorem keepsInv_scanChannelOp (sel : Byte) (x : Bool) : KeepsInv p b (scanChannelOp sel x) := by
  have hend (i : Byte) : KeepsInv p b (do
      let p ← look (·.params)
      writeShadow (Shadow.setScanMask p.layout i.toNat x)
      writeReg .scan
      return { status := ← look (·.status) } : Op Response) :=
    meets_look_bind (fun _ h => h.params) <| meets_bind
      (meets_writeShadow fun sh h => ⟨(Shadow.setScanMask_length sh _ _ x).trans h.1, h.2⟩) fun _ =>
    keepsInv_writeRegStatus _
  exact meets_bind keepsInv_requireBegun fun _ => meets_bind (meets_look _) fun _ => meets_ite
    (meets_bind (keeps_raise (composes_inv p b) _).meets fun _ => hend _) (hend _)

theorem keepsInv_setReferenceOp (r : Word32) : KeepsInv p b (setReferenceOp r) := by
  have hr (x : Word32) : KeepsInv p b (update (·.setReference x)) :=
    meets_update fun _ h => ⟨h.toHolds.of_held_eq rfl, h.session, h.released, h.noFault⟩
  exact meets_ite
    (meets_bind keepsInv_requireBegun fun _ => meets_bind (hr _) fun _ => meets_bind (meets_look _) fun _ =>
      meets_bind (meets_writeShadow fun _ h => h) fun _ => keepsInv_writeRegStatus _)
    (meets_bind (hr _) fun _ => meets_bind (meets_look _) fun _ => meets_pure _)

theorem keepsInv_setResolutionOp (x : BitVec 8) : KeepsInv p b (setResolutionOp x) := by
  intro s h
  rw [setResolutionOp_apply]
  by_cases hx : x.toInt < s.resolutionMax.toInt
  · rw [if_pos hx]
    exact h.setResolution hx.le
  · rw [if_neg hx]
    exact h

/-- A toggle whose write is of the flags only. -/
theorem keepsInv_toggle {f : State → State} (hf : ∀ s, (f s).held = s.held) (hs : ∀ s, (f s).session = s.session)
    (hc : ∀ s, (f s).cs = s.cs) (hn : ∀ s, (f s).fault = s.fault) : KeepsInv p b (toggle f) :=
  (keeps_toggle (composes_inv p b) fun s h =>
    ⟨h.toHolds.of_held_eq (hf s), (hs s).trans h.session, hc s ▸ h.released, (hn s).trans h.noFault⟩).meets

section
variable {v : Variant} (hp : p.wf v = true)
include hp

/-- The fields of the CONFIG3 image are inside it and share no bit (R27, log 11). -/
theorem layout_config3 :
    p.layout.dataFormat + 2 ≤ 8 ∧ disjointRanges p.layout.convMode 2 p.layout.dataFormat 2 = true := by
  have h := (Params.wf_layout hp).1
  simp only [Layout.wf, Bool.and_eq_true, decide_eq_true_eq] at h
  exact ⟨h.1.1.1.1.1.2, h.2⟩

/-- The conv_mode view shares no bit with fmt_bits. -/
theorem inv_setConvMode (m : BitVec 2) {sh : Shadow} (h : sh.Inv p) : (sh.setConvMode p.layout m).Inv p :=
  ⟨h.1, fun hf => (view2_setView2_of_disjoint _ m (layout_config3 hp).1 (layout_config3 hp).2).trans (h.2 hf)⟩

/-- Writing fmt_bits restores what the invariant says of them: they are the code's, if it is recognized. -/
theorem inv_setFmtBits {f : Byte} {x : BitVec 2} (hx : f.toNat ≤ 3 → x = f.setWidth 2) {sh : Shadow}
    (h : sh.imgScan.length = p.scanBytes ∧ sh.fmtCode = f) : (sh.setFmtBits p.layout x).Inv p := by
  obtain ⟨hscan, rfl⟩ := h
  exact ⟨hscan, fun hf => (view2_setView2 _ x (layout_config3 hp).1).trans (hx hf)⟩

theorem keepsInv_setDataFormatOp (f : Byte) : KeepsInv p b (setDataFormatOp f) := by
  have hend : KeepsInv p b (do
      writeReg .config3
      update fun s => s.setResolution (s.newResolution f)
      return { status := ← look (·.status) } : Op Response) :=
    meets_bind (keepsInv_writeReg _) fun _ =>
    meets_bind (meets_update fun s h => h.setResolution (newResolution_le s f h.fixed.2.1)) fun _ =>
    meets_bind (meets_look _) fun _ => meets_pure _
  have hcode : Meets (State.AtRest p b (Shadow.Inv p))
      (State.AtRest p b fun sh => sh.imgScan.length = p.scanBytes ∧ sh.fmtCode = f) (State.Stopped p)
      (writeShadow fun sh => { sh with fmtCode := f }) :=
    meets_writeShadow fun _ h => ⟨h.1, rfl⟩
  refine meets_bind keepsInv_requireBegun fun _ => meets_look_bind (fun _ h => h.params) <|
    meets_bind hcode fun _ => ?_
  by_cases hf : f.toNat ≤ 3
  · rw [if_pos hf]
    exact meets_bind (meets_writeShadow fun _ => inv_setFmtBits hp fun _ => rfl) fun _ => hend
  · rw [if_neg hf]
    have hdraw : Meets (State.AtRest p b fun sh => sh.imgScan.length = p.scanBytes ∧ sh.fmtCode = f)
        (State.AtRest p b fun sh => sh.imgScan.length = p.scanBytes ∧ sh.fmtCode = f) (State.Stopped p) drawFmtBits :=
      fun s h => ⟨h.toHolds.of_held_eq rfl, h.session, h.released, h.noFault⟩
    exact meets_bind hdraw fun _ =>
      meets_bind (meets_writeShadow fun _ => inv_setFmtBits hp fun h => absurd h hf) fun _ => hend

/-- The power-on defaults meet the invariant: the format code is read from fmt_bits (R103). -/
theorem inv_defaultShadow : (defaultShadow p).Inv p := by
  refine ⟨(Params.wf_layout hp).2, fun _ => ?_⟩
  change view2 p.defaults.cfg3 p.layout.dataFormat =
    ((view2 p.defaults.cfg3 p.layout.dataFormat).setWidth 8).setWidth 2
  rw [BitVec.setWidth_setWidth_of_le _ (by decide), BitVec.setWidth_eq]

theorem keepsInv_beginBranch (irq : Bool) : KeepsInv p b (if irq then beginInterrupt else beginPolled) :=
  meets_ite
    (meets_look_bind (fun _ h => h.params) <| meets_bind (keepsInv_setDataFormatOp hp _) fun _ =>
      meets_bind (keepsInv_setter _ fun _ => inv_setConvMode hp _) fun _ => keepsInv_frameFast _)
    (meets_bind (keepsInv_setDataFormatOp hp _) fun _ => meets_bind (meets_look _) fun _ =>
      meets_bind (keepsInv_setReferenceOp _) fun _ => keepsInv_frameFast _)

/-- BEGIN sets S.begun after a frame has captured a status byte, and closes its session at its end (R100). -/
theorem keepsInv_beginOp : KeepsInv p false beginOp := by
  have hsession (b b' : Bool) : Meets (State.AtRest p b (Shadow.Inv p)) (State.AtRest p b' (Shadow.Inv p))
      (State.Stopped p) (update (·.setSession b')) :=
    meets_update fun _ h => ⟨h.toHolds.of_held_eq rfl, rfl, h.released, h.noFault⟩
  have hcs : KeepsInv p false (update (·.setCs .high)) :=
    meets_update fun _ h => ⟨h.toHolds.of_held_eq rfl, h.session, by rw [State.setCs_cs]; decide, h.noFault⟩
  have hload : Meets (fun s => s.AtRest p true (Shadow.Inv p) ∧ s.status.isSome = true)
      (fun s => s.setBegun.AtRest p true (Shadow.Inv p)) (State.Stopped p) loadDefaults := by
    refine meets_update fun s ⟨h, hst⟩ =>
      ⟨⟨h.params, h.fixed, rfl, fun _ => hst, ?_, h.data⟩, h.session, h.released, h.noFault⟩
    rintro sh hmem
    obtain rfl := Option.some.inj hmem
    rw [h.params]
    exact inv_defaultShadow hp
  have hbegun : Meets (fun s => s.setBegun.AtRest p true (Shadow.Inv p)) (State.AtRest p true (Shadow.Inv p))
      (State.Stopped p) (update (·.setBegun)) := meets_update fun _ h => h
  have hend : Meets (State.AtRest p true (Shadow.Inv p)) (State.AtRest p false (Shadow.Inv p)) (State.Stopped p) (do
      update (·.setSession false)
      return { ok := some true, status := ← look (·.status) } : Op Response) :=
    meets_bind (hsession true false) fun _ => meets_bind (meets_look _) fun _ => meets_pure _
  have hclock (irq : Bool) := keepsInv_beginBranch (b := true) hp irq
  refine meets_bind hcs fun _ => meets_bind (meets_driveCs busStable_atRest _) fun _ =>
    meets_bind (hsession false true) fun _ => meets_bind (meets_frameFast _) fun _ =>
    meets_bind hload fun _ => meets_bind hbegun fun _ => meets_look_bind (fun _ h => h.params) <|
    meets_bind (keepsInv_setter _ fun _ h => h) fun _ => meets_bind (meets_look _) fun irq => ?_
  cases irq with
  | true => exact meets_bind (hclock true) fun _ => hend
  | false => exact meets_bind (hclock false) fun _ => hend

end

/-! ### Whole instructions -/

/-- An idle block that meets the invariant is at rest when an operation starts. -/
theorem State.Inv.atRest_enter {s : State} (h : s.Inv) (hf : s.fault = none) (o : Busy) :
    (s.enter o).AtRest s.params false (Shadow.Inv s.params) := by
  obtain ⟨hfixed, ⟨hbegun, hstatus, hshadow⟩, hdata, hidle⟩ := h
  obtain ⟨-, hsession, hcs, -⟩ := hidle hf
  exact ⟨⟨rfl, hfixed, hbegun, hstatus, hshadow, hdata⟩, hsession, hcs, hf⟩

/-- The end of an operation is between operations. -/
theorem State.AtRest.inv_leave {s : State} (h : s.AtRest p false (Shadow.Inv p)) (r : Option Response) :
    (s.leave r).Inv := by
  obtain rfl := h.params
  exact ⟨h.fixed, ⟨h.begun, h.status, h.shadow⟩, h.data, fun _ => ⟨rfl, h.session, h.released, rfl⟩⟩

/-- In the faulted state the idle part of the invariant says nothing. -/
theorem State.Stopped.inv {s : State} (h : s.Stopped p) : s.Inv := by
  obtain rfl := h.params
  exact ⟨h.fixed, ⟨h.begun, h.status, h.shadow⟩, h.data, fun hf => absurd hf h.faulted⟩

section
variable {s t : State} {i : Instr}

theorem runOperation_inv {γ : Type} {o : Busy} {body : Op γ} {f : γ → Option Response} (h : s.Inv)
    (hf : s.fault = none) (hb : KeepsInv s.params false body) (hx : runOperation o (f <$> body) s = .next t) :
    t.Inv := by
  have hs := leaves_map f (hb _ (h.atRest_enter hf o))
  simp only [runOperation] at hx
  cases hr : (f <$> body) (s.enter o) with
  | ok r u =>
    rw [hr] at hs hx
    exact Host.Outcome.next.inj hx ▸ hs.inv_leave r
  | error e u =>
    rw [hr] at hs hx
    exact Host.Outcome.next.inj hx ▸ hs.inv

theorem hostCommand_inv {body : Op Response} (h : s.Inv) (hf : s.fault = none) (hb : KeepsInv s.params false body)
    (hx : hostCommand i body s = .next t) : t.Inv := runOperation_inv h hf hb (hostCommand_runs hx)

theorem wireFrame_inv {body : Op Unit} (h : s.Inv) (hf : s.fault = none) (hb : KeepsInv s.params false body)
    (hx : wireFrame i body s = .next t) : t.Inv := runOperation_inv h hf hb (wireFrame_runs hx)

/-- Under the invariant ISR_HANDLER meets no running operation. -/
theorem isrCommand_inv {body : Op Response} (h : s.Inv) (hf : s.fault = none) (hb : KeepsInv s.params false body)
    (hx : isrCommand body s = .next t) : t.Inv := by
  obtain ⟨-, hrun⟩ | ⟨hbusy, -⟩ := isrCommand_cases hx
  · exact runOperation_inv h hf hb hrun
  · obtain ⟨-, -, -, hidle⟩ := h
    exact absurd (hidle hf).1 hbusy

/-- Every instruction keeps the invariant. -/
theorem exec_inv (h : s.Inv) (hf : s.fault = none) (hx : exec i s = .next t) : t.Inv := by
  have hp : s.params.wf s.v = true := h.1.1
  have c := composes_inv s.params false
  cases i with
  | begin => exact hostCommand_inv h hf (keepsInv_beginOp hp) hx
  | read => exact hostCommand_inv h hf keepsInv_readOp hx
  | isrHandler => exact isrCommand_inv h hf keepsInv_isrOp hx
  | setDataFormat f => exact hostCommand_inv h hf (keepsInv_setDataFormatOp hp f) hx
  | setConvMode m => exact hostCommand_inv h hf (keepsInv_setter _ fun _ => inv_setConvMode hp m) hx
  | setAdcMode _ | setClockSelection _ | lock _ => exact hostCommand_inv h hf (keepsInv_setter _ fun _ h => h) hx
  | setScanChannel sel | unsetScanChannel sel => exact hostCommand_inv h hf (keepsInv_scanChannelOp sel _) hx
  | setReference r => exact hostCommand_inv h hf (keepsInv_setReferenceOp r) hx
  | unlock => exact hostCommand_inv h hf keepsInv_unlockOp hx
  | analogRead _ | analogReadDiff _ _ => exact hostCommand_inv h hf (keepsInv_analogReadOp _) hx
  | singleEndedMode | differentialMode | startContinuousDifferential | startSingleDifferential =>
    refine hostCommand_inv h hf (keepsInv_toggle ?_ ?_ ?_ ?_) hx
    all_goals exact fun _ => rfl
  | setResolution x => exact hostCommand_inv h hf (keepsInv_setResolutionOp x) hx
  | isComplete => exact hostCommand_inv h hf (keeps_isCompleteOp c).meets hx
  | getMaxValue => exact hostCommand_inv h hf (keeps_getMaxValueOp c).meets hx
  | isDifferential | isContinuous | getReference => exact hostCommand_inv h hf (keeps_query c _ _).meets hx
  | readCache k => exact hostCommand_inv h hf (keeps_readCacheOp c k).meets hx
  | frameRreg a n =>
    exact wireFrame_inv h hf (meets_bind (keepsInv_frameRreg a n) fun _ => meets_pure _) hx
  | frameWreg a x => exact wireFrame_inv h hf (keepsInv_frameWreg a x) hx
  | frameFast f => exact wireFrame_inv h hf (keepsInv_frameFast f) hx

/-- Fault entry keeps the invariant (R262). -/
theorem State.Inv.raise (h : s.Inv) (c : FaultCode) (w : CmdWord) : (s.raise c w).Inv := by
  obtain ⟨hfixed, hshadow, hdata, -⟩ := h
  exact ⟨hfixed, hshadow, hdata, fun hf => absurd hf (Option.some_ne_none _)⟩

/-- The port is no part of the invariant. -/
theorem State.Inv.take (h : s.Inv) (rest : List Input) : (s.take rest).Inv := h

end

/-- Settles O53: by what the step does, and by what each instruction keeps. -/
theorem stepKeepsTheInvariant : Obligations.StepKeepsTheInvariant := by
  intro s t h hx
  obtain ⟨hf, ⟨-, rfl⟩ | ⟨_, rest, _, -, -, hrun⟩ | ⟨w, rest, _, -, -, rfl⟩⟩ := step_cases hx
  · exact h
  · exact exec_inv (h.take rest) hf hrun
  · exact (h.take rest).raise _ w

/-- The instantiation values meet the invariant: there is no shadow, and the resolution is resolution_max (R45). -/
theorem inv_instantiate {p : Params} {v : Variant} (irq : Bool) (hp : p.wf v = true) :
    (State.instantiate p v irq).Inv :=
  ⟨⟨hp, rfl, rfl, rfl⟩, ⟨rfl, fun h => absurd h Bool.false_ne_true, fun _ h => by cases h⟩,
    ⟨List.length_replicate, le_refl _⟩, fun _ => ⟨rfl, rfl, CsPin.noConfusion, rfl⟩⟩

/-- Settles O54: reset is an instantiation with admitted parameters. -/
theorem invariantAtInstantiation : Obligations.InvariantAtInstantiation :=
  ⟨fun _ _ irq hp => inv_instantiate irq hp, inv_instantiate false (by decide)⟩

end Sys2Proof.Machine
end

section
/-! ISR_HANDLER at a boundary inside an operation (60_exceptions R268). The disturbed run and the undisturbed one differ
in the environment's plan alone, until the boundary at which the plan says yes: there the disturbed run stops, and the
undisturbed one only adds to the trace. -/

namespace Sys2Proof.Machine

variable {α β : Type}

/-! ### Two runs that differ in the plan -/

/-- The state in an environment that presents nothing. -/
def State.quiet (s : State) : State := { s with irqPlan := [] }

/-- What one presented ISR_HANDLER is told by: the boundaries that pass first, the plan after it, and, of the state in
which the operation starts, the length of the trace and the responses. -/
structure Interrupt where
  passes : Nat
  later : List Bool
  start : Nat
  responses : List Response

def Interrupt.plan (w : Interrupt) : List Bool := List.replicate w.passes false ++ true :: w.later

theorem Interrupt.plan_drop (w : Interrupt) {j : Nat} (h : j ≤ w.passes) :
    w.plan.drop j = List.replicate (w.passes - j) false ++ true :: w.later := by
  rw [Interrupt.plan, List.drop_append_of_le_length (by simpa using h), List.drop_replicate]

/-- The plan's yes has not been reached. With `d = 1` the next boundary is that before the next event; with `d = 0` that
boundary has been passed. -/
structure Interrupt.Before (w : Interrupt) (d : Nat) (u : State) : Prop where
  bus : u.bus.length = w.start + u.seqStep
  plan : u.irqPlan = w.plan.drop (u.seqStep - d)
  early : u.seqStep ≤ w.passes + d
  responses : u.responses = w.responses

/-- The trace when the operation ended or faulted. -/
def endBus : EStateM.Result Unit State α → List BusEvent
  | .ok _ t => t.bus
  | .error _ t => t.bus

/-- The disturbed run was stopped by ISR_HANDLER, after the first events of the trace `bus`. -/
structure Interrupt.Fired (w : Interrupt) (bus : List BusEvent) (u : State) : Prop where
  fault : u.fault = some ⟨.concurrentEntry, isrWord⟩
  length : u.bus.length = w.start + (w.passes + 1)
  isPrefix : u.bus <+: bus
  responses : u.responses = w.responses

/-- The undisturbed result and the disturbed one: both end with the same value, both fault before the plan's yes is
reached, or the disturbed run was stopped. -/
inductive Interrupt.Course (w : Interrupt) (d : Nat) :
    EStateM.Result Unit State α → EStateM.Result Unit State α → Prop
  | ok {a : α} {u : State} (h : w.Before d u) : Course w d (.ok a u.quiet) (.ok a u)
  | early {e e' : Unit} {s u : State} (h : s.bus.length ≤ w.start + (w.passes + 1)) :
      Course w d (.error e s) (.error e' u)
  | fired {r : EStateM.Result Unit State α} {e : Unit} {u : State} (h : w.Fired (endBus r) u) :
      Course w d r (.error e u)

/-- The trace only grows. -/
abbrev BusGrows (s t : State) : Prop := s.bus <+: t.bus

theorem busSteps_busGrows : BusSteps BusGrows where
  refl _ := List.prefix_rfl
  trans := List.IsPrefix.trans
  raise _ _ _ := List.prefix_rfl
  passBoundary _ := List.prefix_rfl
  addEvent s e := List.prefix_append s.bus [e]
  drewByte _ := List.prefix_rfl
  setSession _ _ := List.prefix_rfl
  setCs _ _ := List.prefix_rfl
  setStatus _ _ := List.prefix_rfl
  setPayload _ _ := List.prefix_rfl
  setSample _ _ := List.prefix_rfl

theorem composes_busGrows : Composes BusGrows BusGrows := busSteps_busGrows.composes

/-- From a state in which the yes lies ahead, the operation takes one of the three courses, and it only adds events. -/
structure Follows (w : Interrupt) (d d' : Nat) (x : Op α) : Prop where
  course : ∀ u, w.Before d u → w.Course d' (x u.quiet) (x u)
  grows : Keeps BusGrows BusGrows x

variable {w : Interrupt} {d d' d'' : Nat}

theorem follows_bind {x : Op α} {f : α → Op β} (hx : Follows w d d' x) (hf : ∀ a, Follows w d' d'' (f a)) :
    Follows w d d'' (x >>= f) where
  grows := keeps_bind composes_busGrows hx.grows fun a => (hf a).grows
  course u h := by
    have hc := hx.course u h
    rw [op_bind, op_bind]
    generalize x u.quiet = r at hc ⊢
    generalize x u = r' at hc ⊢
    cases hc with
    | ok hu => exact (hf _).course _ hu
    | early hs => exact .early hs
    | fired hu =>
      refine .fired ⟨hu.fault, hu.length, hu.isPrefix.trans ?_, hu.responses⟩
      cases r with
      | error e s => exact List.prefix_rfl
      | ok a s =>
        have hgrow := (hf a).grows s
        simp only
        cases hs : f a s <;> rw [hs] at hgrow <;> exact hgrow

theorem follows_ite {c : Prop} [Decidable c] {x y : Op α} (hx : Follows w d d' x) (hy : Follows w d d' y) :
    Follows w d d' (if c then x else y) := by
  split
  · exact hx
  · exact hy

/-- The fields that an operation's own steps leave to its events and boundaries. -/
def State.progress (s : State) := (s.bus, s.seqStep, s.irqPlan, s.responses)

theorem Interrupt.Before.of_progress_eq {u v : State} (h : w.Before d u) (e : v.progress = u.progress) :
    w.Before d v := by
  simp only [State.progress, Prod.mk.injEq] at e
  obtain ⟨hbus, hseq, hplan, hresp⟩ := e
  exact ⟨by rw [hbus, hseq]; exact h.bus, by rw [hplan, hseq]; exact h.plan, by rw [hseq]; exact h.early,
    hresp.trans h.responses⟩

/-- A step that neither reads nor writes the plan, and makes no event. -/
theorem follows_step {g : State → α} {f : State → State} (hg : ∀ u, g u.quiet = g u)
    (hf : ∀ u, f u.quiet = (f u).quiet) (hp : ∀ u, (f u).progress = u.progress) :
    Follows w d d (fun s => .ok (g s) (f s) : Op α) where
  grows s := by
    have hb : (f s).bus = s.bus := congrArg Prod.fst (hp s)
    change s.bus <+: (f s).bus
    rw [hb]
  course u h := by
    simp only [hg, hf]
    exact .ok (h.of_progress_eq (hp u))

theorem follows_pure (a : α) : Follows w d d (pure a : Op α) :=
  follows_step (g := fun _ => a) (f := id) (fun _ => rfl) (fun _ => rfl) fun _ => rfl

theorem follows_look {f : State → α} (hf : ∀ u, f u.quiet = f u) : Follows w d d (look f) :=
  follows_step (f := id) hf (fun _ => rfl) fun _ => rfl

theorem follows_update {f : State → State} (hf : ∀ u, f u.quiet = (f u).quiet)
    (hp : ∀ u, (f u).progress = u.progress) : Follows w d d (update f) :=
  follows_step (g := fun _ => ()) (fun _ => rfl) hf hp

theorem follows_drawByte : Follows w d d drawByte :=
  follows_step (g := (·.answer 0)) (fun _ => rfl) (fun _ => rfl) fun _ => rfl

theorem follows_drawFmtBits : Follows w d d drawFmtBits :=
  follows_step (g := (·.fmtAnswer)) (fun _ => rfl) (fun _ => rfl) fun _ => rfl

/-! ### Boundaries and events -/

/-- A boundary that still lies ahead is passed, or it is the one at which ISR_HANDLER is presented. -/
theorem follows_boundary : Follows w 1 0 boundary where
  grows := keeps_boundary busSteps_busGrows
  course u h := by
    by_cases h0 : u.seqStep = 0
    · rw [boundary_first u h0, boundary_first u.quiet h0]
      exact .ok ⟨h.bus, by rw [h.plan, h0], by omega, h.responses⟩
    · have hq : boundary u.quiet = .ok () u.passBoundary.quiet :=
        boundary_quiet u.quiet h0 fun x hx => by cases hx
      have hplan := h.plan.trans (w.plan_drop (by have := h.early; omega))
      rw [hq]
      by_cases hlast : u.seqStep = w.passes + 1
      · have hyes : u.irqPlan.headD false = true := by rw [hplan, hlast, Nat.add_sub_cancel, Nat.sub_self]; rfl
        rw [boundary_isr u h0 hyes]
        exact .fired ⟨rfl, by rw [← hlast]; exact h.bus, List.prefix_rfl, h.responses⟩
      · have hle : u.seqStep ≤ w.passes := by have := h.early; omega
        have hno : u.Quiet 1 := by
          obtain ⟨m, hm⟩ : ∃ m, w.passes - (u.seqStep - 1) = m + 1 := ⟨w.passes - u.seqStep, by omega⟩
          rw [State.Quiet, hplan, hm]
          simp [List.replicate_succ]
        rw [boundary_quiet u h0 hno]
        refine .ok ⟨h.bus, ?_, hle, h.responses⟩
        rw [State.passBoundary_irqPlan, h.plan, List.tail_drop]
        congr 1
        have : u.passBoundary.seqStep = u.seqStep := rfl
        omega

/-- The event after its boundary. -/
theorem follows_emit (e : BusEvent) : Follows w 0 1 (emit e) where
  grows := keeps_update (busSteps_busGrows.addEvent · e)
  course u h := by
    refine .ok (u := u.addEvent e) ⟨?_, h.plan, Nat.succ_le_succ h.early, h.responses⟩
    rw [State.addEvent_bus, State.addEvent_seqStep, List.length_append, h.bus]
    rfl

/-- An operation in which ISR_HANDLER is presented at a boundary of the plan. -/
abbrev Interruptible (w : Interrupt) (x : Op α) : Prop := Follows w 1 1 x

theorem interruptible_driveCs (l : Level) : Interruptible w (driveCs l) :=
  follows_bind follows_boundary fun _ => follows_emit _

theorem interruptible_xfer (b : Byte) : Interruptible w (xfer b) :=
  follows_bind follows_boundary fun _ => follows_bind follows_drawByte fun _ =>
  follows_bind (follows_emit _) fun _ => follows_pure _

/-- A fault of the operation's own comes before the plan's yes. -/
theorem interruptible_raise (c : FaultCode) : Interruptible w (raise c : Op α) where
  grows := keeps_raise composes_busGrows c
  course u h := .early (by
    have hbus : (u.quiet.raise c u.quiet.busy.word).bus.length = w.start + u.seqStep := h.bus
    rw [hbus]
    exact Nat.add_le_add_left h.early _)

/-! ### Operations -/

theorem interruptible_requireBegun : Interruptible w requireBegun :=
  follows_bind (follows_look fun _ => rfl) fun _ => follows_ite (follows_pure _) (interruptible_raise _)

theorem interruptible_readShadow : Interruptible w readShadow where
  grows := keeps_readShadow composes_busGrows
  course u h := by
    cases hsh : u.shadow with
    | none =>
      rw [readShadow_none u hsh, readShadow_none u.quiet hsh]
      exact (interruptible_raise (α := Shadow) .notBegun).course u h
    | some sh =>
      rw [readShadow_some u sh hsh, readShadow_some u.quiet sh hsh]
      exact .ok h

theorem interruptible_writeShadow (f : Shadow → Shadow) : Interruptible w (writeShadow f) :=
  follows_bind interruptible_readShadow fun _ => follows_update (fun _ => rfl) fun _ => rfl

theorem interruptible_exchange (out : List Byte) : Interruptible w (exchange out) := by
  induction out with
  | nil => exact follows_pure _
  | cons b rest ih =>
    exact follows_bind (interruptible_xfer b) fun _ => follows_bind ih fun _ => follows_pure _

theorem interruptible_frame (cmd : Byte) (out : List Byte) : Interruptible w (frame cmd out) :=
  follows_bind (follows_look fun _ => rfl) fun _ => follows_bind (follows_update (fun _ => rfl) fun _ => rfl) fun _ =>
  follows_bind (interruptible_driveCs _) fun _ => follows_bind (follows_update (fun _ => rfl) fun _ => rfl) fun _ =>
  follows_bind (interruptible_xfer _) fun _ => follows_bind (follows_update (fun _ => rfl) fun _ => rfl) fun _ =>
  follows_bind (interruptible_exchange _) fun _ => follows_bind (interruptible_driveCs _) fun _ =>
  follows_bind (follows_update (fun _ => rfl) fun _ => rfl) fun _ =>
  follows_bind (follows_update (fun _ => rfl) fun _ => rfl) fun _ => follows_pure _

theorem interruptible_frameRreg (a n : Nat) : Interruptible w (frameRreg a n) :=
  follows_bind (follows_look fun _ => rfl) fun _ => follows_bind (interruptible_frame _ _) fun _ =>
  follows_bind (follows_update (fun _ => rfl) fun _ => rfl) fun _ => follows_pure _

theorem interruptible_frameWreg (a : Nat) (x : List Byte) : Interruptible w (frameWreg a x) :=
  follows_bind (follows_look fun _ => rfl) fun _ => follows_bind (interruptible_frame _ _) fun _ => follows_pure _

theorem interruptible_frameFast (f : FastCmd) : Interruptible w (frameFast f) :=
  follows_bind (follows_look fun _ => rfl) fun _ => follows_bind (interruptible_frame _ _) fun _ => follows_pure _

theorem interruptible_writeReg (r : Reg) : Interruptible w (writeReg r) :=
  follows_bind interruptible_readShadow fun _ => follows_bind (follows_look fun _ => rfl) fun _ =>
  interruptible_frameWreg _ _

theorem interruptible_readSample : Interruptible w readSample :=
  follows_bind interruptible_readShadow fun _ => follows_bind (follows_look fun _ => rfl) fun _ =>
  follows_bind (interruptible_frameRreg _ _) fun _ => follows_bind (follows_update (fun _ => rfl) fun _ => rfl) fun _ =>
  follows_bind (follows_look fun _ => rfl) fun _ => follows_pure _

theorem interruptible_cacheWrite (i : Byte) (x : Word32) : Interruptible w (cacheWrite i x) := by
  have hstore : Interruptible w (update (·.setCache i.toNat x)) := follows_update (fun _ => rfl) fun _ => rfl
  exact follows_bind (follows_look fun _ => rfl) fun _ =>
    follows_ite (follows_bind (interruptible_raise _) fun _ => hstore) hstore

theorem interruptible_readOp : Interruptible w readOp :=
  follows_bind interruptible_requireBegun fun _ => follows_bind interruptible_readSample fun _ =>
  follows_bind (follows_look fun _ => rfl) fun _ => follows_pure _

theorem interruptible_isrOp : Interruptible w isrOp :=
  follows_bind interruptible_requireBegun fun _ => follows_bind interruptible_readSample fun _ =>
  follows_bind (interruptible_cacheWrite _ _) fun _ => follows_pure _

theorem interruptible_analogReadOp (sel : Byte) : Interruptible w (analogReadOp sel) :=
  follows_bind interruptible_requireBegun fun _ => follows_bind (interruptible_writeShadow _) fun _ =>
  follows_bind (interruptible_writeReg _) fun _ => follows_bind (interruptible_frameFast _) fun _ =>
  follows_bind interruptible_readSample fun _ => follows_bind (interruptible_cacheWrite _ _) fun _ => follows_pure _

/-- The end of a setter: the image is sent, and the response carries the captured status. -/
theorem interruptible_writeRegStatus (r : Reg) :
    Interruptible w (do
      writeReg r
      return { status := ← look (·.status) } : Op Response) :=
  follows_bind (interruptible_writeReg r) fun _ => follows_bind (follows_look fun _ => rfl) fun _ => follows_pure _

theorem interruptible_setter (write : Layout → Shadow → Shadow) (r : Reg) : Interruptible w (setter write r) :=
  follows_bind interruptible_requireBegun fun _ => follows_bind (follows_look fun _ => rfl) fun _ =>
  follows_bind (interruptible_writeShadow _) fun _ => interruptible_writeRegStatus r

theorem interruptible_unlockOp : Interruptible w unlockOp :=
  follows_bind (follows_look fun _ => rfl) fun _ => interruptible_setter _ _

theorem interruptible_setDataFormatOp (f : Byte) : Interruptible w (setDataFormatOp f) := by
  have hend : Interruptible w (do
      writeReg .config3
      update fun s => s.setResolution (s.newResolution f)
      return { status := ← look (·.status) } : Op Response) :=
    follows_bind (interruptible_writeReg _) fun _ => follows_bind (follows_update (fun _ => rfl) fun _ => rfl) fun _ =>
    follows_bind (follows_look fun _ => rfl) fun _ => follows_pure _
  exact follows_bind interruptible_requireBegun fun _ => follows_bind (follows_look fun _ => rfl) fun _ =>
    follows_bind (interruptible_writeShadow _) fun _ => follows_ite
      (follows_bind (interruptible_writeShadow _) fun _ => hend)
      (follows_bind follows_drawFmtBits fun _ => follows_bind (interruptible_writeShadow _) fun _ => hend)

theorem interruptible_scanChannelOp (sel : Byte) (x : Bool) : Interruptible w (scanChannelOp sel x) := by
  have hend (i : Byte) : Interruptible w (do
      let p ← look (·.params)
      writeShadow (Shadow.setScanMask p.layout i.toNat x)
      writeReg .scan
      return { status := ← look (·.status) } : Op Response) :=
    follows_bind (follows_look fun _ => rfl) fun _ => follows_bind (interruptible_writeShadow _) fun _ =>
    interruptible_writeRegStatus _
  exact follows_bind interruptible_requireBegun fun _ => follows_bind (follows_look fun _ => rfl) fun i =>
    follows_ite (follows_bind (interruptible_raise _) fun _ => hend i) (hend i)

theorem interruptible_setReferenceOp (r : Word32) : Interruptible w (setReferenceOp r) :=
  follows_ite
    (follows_bind interruptible_requireBegun fun _ => follows_bind (follows_update (fun _ => rfl) fun _ => rfl) fun _ =>
      follows_bind (follows_look fun _ => rfl) fun _ => follows_bind (interruptible_writeShadow _) fun _ =>
      interruptible_writeRegStatus _)
    (follows_bind (follows_update (fun _ => rfl) fun _ => rfl) fun _ =>
      follows_bind (follows_look fun _ => rfl) fun _ => follows_pure _)

theorem interruptible_beginOp : Interruptible w beginOp := by
  have hend : Interruptible w (do
      update (·.setSession false)
      return { ok := some true, status := ← look (·.status) } : Op Response) :=
    follows_bind (follows_update (fun _ => rfl) fun _ => rfl) fun _ => follows_bind (follows_look fun _ => rfl) fun _ =>
    follows_pure _
  have hirq : Interruptible w beginInterrupt :=
    follows_bind (follows_look fun _ => rfl) fun _ => follows_bind (interruptible_setDataFormatOp _) fun _ =>
    follows_bind (interruptible_setter _ _) fun _ => interruptible_frameFast _
  have hpolled : Interruptible w beginPolled :=
    follows_bind (interruptible_setDataFormatOp _) fun _ => follows_bind (follows_look fun _ => rfl) fun _ =>
    follows_bind (interruptible_setReferenceOp _) fun _ => interruptible_frameFast _
  exact follows_bind (follows_update (fun _ => rfl) fun _ => rfl) fun _ =>
    follows_bind (interruptible_driveCs _) fun _ => follows_bind (follows_update (fun _ => rfl) fun _ => rfl) fun _ =>
    follows_bind (interruptible_frameFast _) fun _ => follows_bind (follows_update (fun _ => rfl) fun _ => rfl) fun _ =>
    follows_bind (follows_update (fun _ => rfl) fun _ => rfl) fun _ => follows_bind (follows_look fun _ => rfl) fun _ =>
    follows_bind (interruptible_setter _ _) fun _ => follows_bind (follows_look fun _ => rfl) fun _ =>
    follows_ite (follows_bind hirq fun _ => hend) (follows_bind hpolled fun _ => hend)

/-! ### Whole instructions -/

theorem endBus_map (f : α → β) (x : Op α) (s : State) : endBus ((f <$> x) s) = endBus (x s) := by
  rw [op_map]
  cases x s <;> rfl

/-- The end of an operation and its fault add no event. -/
theorem runOperation_bus {b : Busy} {body : Op (Option Response)} {s t : State}
    (hx : runOperation b body s = .next t) : t.bus = endBus (body (s.enter b)) := by
  simp only [runOperation] at hx
  cases hb : body (s.enter b) <;> rw [hb] at hx <;> exact Host.Outcome.next.inj hx ▸ rfl

/-- The presented ISR_HANDLER of a plan, for an operation that starts in `s`. -/
def State.interrupt (s : State) (k : Nat) (later : List Bool) : Interrupt where
  passes := k
  later := later
  start := s.bus.length
  responses := s.responses

section
variable {s t : State} {i : Instr} {k : Nat} {later : List Bool}

/-- What the statement says of the disturbed run from `s` to `u`, `bus` being the trace of the undisturbed one. -/
def StoppedAfter (s : State) (bus : List BusEvent) (k : Nat) (u : State) : Prop :=
  u.fault = some ⟨.concurrentEntry, isrWord⟩ ∧ u.bus = bus.take (s.bus.length + (k + 1)) ∧ u.responses = s.responses

/-- If the undisturbed run makes more events than the boundary allows, the disturbed one was stopped there. -/
theorem Follows.stopped {body : Op α} (hbody : Interruptible (s.interrupt k later) body) (b : Busy)
    (hplan : s.irqPlan = List.replicate k false ++ true :: later)
    (hmore : s.bus.length + (k + 1) < (endBus (body (s.quiet.enter b))).length) :
    ∃ u, body (s.enter b) = .error () u ∧ StoppedAfter s (endBus (body (s.quiet.enter b))) k u := by
  have hc : (s.interrupt k later).Course 1 (body (s.quiet.enter b)) (body (s.enter b)) :=
    hbody.course (s.enter b) ⟨rfl, hplan, Nat.zero_le _, rfl⟩
  generalize body (s.quiet.enter b) = r at hc hmore ⊢
  generalize body (s.enter b) = r' at hc ⊢
  cases hc with
  | ok hu =>
    have hlen : _ = s.bus.length + _ := hu.bus
    have hle : _ ≤ k + 1 := hu.early
    simp only [endBus, State.quiet] at hmore
    omega
  | early hs => exact absurd hmore (Nat.not_lt.mpr hs)
  | fired hu =>
    have htake := List.prefix_iff_eq_take.mp hu.isPrefix
    rw [hu.length] at htake
    exact ⟨_, rfl, hu.fault, htake, hu.responses⟩

theorem hostCommand_stopped {body : Op Response} (hbody : Interruptible (s.interrupt k later) body) (hs : s.Idle)
    (hx : hostCommand i body s.quiet = .next t) (hplan : s.irqPlan = List.replicate k false ++ true :: later)
    (hmore : s.bus.length + (k + 1) < t.bus.length) :
    ∃ u, hostCommand i body s = .next u ∧ StoppedAfter s t.bus k u := by
  have ht := (runOperation_bus (hostCommand_runs hx)).trans (endBus_map _ _ _)
  rw [ht] at hmore ⊢
  obtain ⟨u, hrun, hu⟩ := hbody.stopped (.fg i) hplan hmore
  exact ⟨u, hostCommand_error i body s u () hs hrun, hu⟩

theorem isrCommand_stopped {body : Op Response} (hbody : Interruptible (s.interrupt k later) body) (hs : s.Idle)
    (hx : isrCommand body s.quiet = .next t) (hplan : s.irqPlan = List.replicate k false ++ true :: later)
    (hmore : s.bus.length + (k + 1) < t.bus.length) : ∃ u, isrCommand body s = .next u ∧ StoppedAfter s t.bus k u := by
  rw [isrCommand_idle body s.quiet hs] at hx
  have ht := (runOperation_bus hx).trans (endBus_map _ _ _)
  rw [ht] at hmore ⊢
  obtain ⟨u, hrun, hu⟩ := hbody.stopped .isr hplan hmore
  exact ⟨u, isrCommand_error body s u () hs hrun, hu⟩

theorem wireFrame_stopped {body : Op Unit} (hbody : Interruptible (s.interrupt k later) body) (hs : s.Idle)
    (hx : wireFrame i body s.quiet = .next t) (hplan : s.irqPlan = List.replicate k false ++ true :: later)
    (hmore : s.bus.length + (k + 1) < t.bus.length) : ∃ u, wireFrame i body s = .next u ∧ StoppedAfter s t.bus k u := by
  have ht := (runOperation_bus (wireFrame_runs hx)).trans (endBus_map _ _ _)
  rw [ht] at hmore ⊢
  obtain ⟨u, hrun, hu⟩ := hbody.stopped (.fg i) hplan hmore
  refine ⟨u, ?_, hu⟩
  rw [wireFrame_idle i body s hs]
  exact runOperation_error _ _ s u () (by simp only [op_map, hrun])

/-- Every instruction is stopped at the boundary, if it makes an event after it. -/
theorem exec_stopped (hs : s.Idle) (hx : exec i s.quiet = .next t)
    (hplan : s.irqPlan = List.replicate k false ++ true :: later) (hmore : s.bus.length + (k + 1) < t.bus.length) :
    ∃ u, exec i s = .next u ∧ StoppedAfter s t.bus k u := by
  cases i with
  | begin => exact hostCommand_stopped interruptible_beginOp hs hx hplan hmore
  | read => exact hostCommand_stopped interruptible_readOp hs hx hplan hmore
  | isrHandler => exact isrCommand_stopped interruptible_isrOp hs hx hplan hmore
  | setDataFormat f => exact hostCommand_stopped (interruptible_setDataFormatOp f) hs hx hplan hmore
  | setConvMode _ | setAdcMode _ | setClockSelection _ | lock _ =>
    exact hostCommand_stopped (interruptible_setter _ _) hs hx hplan hmore
  | setScanChannel sel | unsetScanChannel sel =>
    exact hostCommand_stopped (interruptible_scanChannelOp sel _) hs hx hplan hmore
  | setReference r => exact hostCommand_stopped (interruptible_setReferenceOp r) hs hx hplan hmore
  | unlock => exact hostCommand_stopped interruptible_unlockOp hs hx hplan hmore
  | analogRead _ | analogReadDiff _ _ => exact hostCommand_stopped (interruptible_analogReadOp _) hs hx hplan hmore
  | frameRreg a n =>
    exact wireFrame_stopped (follows_bind (interruptible_frameRreg a n) fun _ => follows_pure _) hs hx hplan hmore
  | frameWreg a x => exact wireFrame_stopped (interruptible_frameWreg a x) hs hx hplan hmore
  | frameFast f => exact wireFrame_stopped (interruptible_frameFast f) hs hx hplan hmore
  | singleEndedMode | differentialMode | startContinuousDifferential | startSingleDifferential | setResolution _
  | isComplete | getMaxValue | isDifferential | isContinuous | getReference | readCache _ =>
    have hbus : t.bus = s.bus := exec_hostSide_sameBus (s := s.quiet) rfl hx
    rw [hbus] at hmore
    omega

end

/-- Settles O51: the disturbed run goes with the undisturbed one up to the boundary. -/
theorem isrAtABoundaryStopsTheOperation : Obligations.IsrAtABoundaryStopsTheOperation := by
  intro i s t k later hs hx hplan hmore
  exact exec_stopped hs hx hplan hmore

end Sys2Proof.Machine
end
